-- ==== Sys2Proof/Word.lean ====
section
/-! DEFINITION. The two sizes of data the core's window knows: a register word and a byte
(spec/00_scope.md R10, R13). -/

namespace Sys2Proof

/-- A register of the window and a command word: 32 bits (00_scope.md R10). -/
abbrev Word := BitVec 32

/-- A byte of a buffer (00_scope.md R13). -/
abbrev Byte := BitVec 8

end Sys2Proof
end

