-- ==== Sys2Proof/Syntax.lean ====
section
/-! DEFINITION. The instructions of the core: its 19 commands (spec/30_encoding.md R103, R104).
A command takes every operand from the buffers and length registers. The one operand of a command
word is the STRICT flag of X25519_SHARED (R102). -/

namespace Sys2Proof

/-- One command of the core, one constructor per row of the opcode table. -/
inductive Instr where
  /-- FADD, 0x01 (R140). -/
  | fadd
  /-- FSUB, 0x02 (R141). -/
  | fsub
  /-- FMUL, 0x03 (R142). -/
  | fmul
  /-- FINV, 0x04 (R143). -/
  | finv
  /-- X25519_LADDER, 0x10 (R180). -/
  | x25519Ladder
  /-- X25519_SHARED, 0x11, with its STRICT bit (R182). -/
  | x25519Shared (strict : Bool)
  /-- X25519_PUBLIC, 0x12 (R184). -/
  | x25519Public
  /-- EDW_ADD, 0x20 (R220). -/
  | edwAdd
  /-- EDW_DBL, 0x21 (R221). -/
  | edwDbl
  /-- EDW_SMUL, 0x22 (R252). -/
  | edwSmul
  /-- EDW_EQ, 0x23 (R222). -/
  | edwEq
  /-- EDW_COMPRESS, 0x24 (R223). -/
  | edwCompress
  /-- EDW_DECOMPRESS, 0x25 (R224). -/
  | edwDecompress
  /-- EDW_BASE, 0x26 (R225). -/
  | edwBase
  /-- EDW_NEUTRAL, 0x27 (R226). -/
  | edwNeutral
  /-- ED_EXPAND, 0x30 (R280). -/
  | edExpand
  /-- ED_PUBKEY, 0x31 (R281). -/
  | edPubkey
  /-- ED_SIGN, 0x32 (R282). -/
  | edSign
  /-- ED_VERIFY, 0x33 (R283). -/
  | edVerify
  deriving DecidableEq, Repr

end Sys2Proof
end

