-- ==== Sys2Proof/WellFormed.lean ====
section
/-! DEFINITION. Which command words are legal (spec/30_encoding.md R101, R103) and which instructions
are well formed. `Instr` cannot hold an illegal value (its only field is one bit), so the checks are
about the WORD: its opcode is defined, and no bit outside the opcode's mask is set. -/

namespace Sys2Proof

/-- First check of R101: the opcode is one of the 19 that R103 defines. -/
def opcodeDefined (op : Byte) : Bool :=
  [0x01, 0x02, 0x03, 0x04, 0x10, 0x11, 0x12].contains op.toNat ||
  [0x20, 0x21, 0x22, 0x23, 0x24, 0x25, 0x26, 0x27].contains op.toNat ||
  [0x30, 0x31, 0x32, 0x33].contains op.toNat

/-- ALLOWED of R101: the bits a word with this opcode may set. -/
def allowedMask (op : Byte) : Word :=
  if op = 0x11#8 then 0x000001FF#32 else 0x000000FF#32

/-- R101: a command word is legal iff its opcode is defined and it sets no bit outside ALLOWED. -/
def legalWord (w : Word) : Bool :=
  opcodeDefined (w.extractLsb' 0 8) && w &&& ~~~(allowedMask (w.extractLsb' 0 8)) == 0#32

/-- Every instruction is well formed: a constructor stands for a defined opcode and its STRICT field
is one bit (R102), so nothing is left to refuse. The refusals are `legalWord`'s. -/
def Instr.wellFormed : Instr → Bool
  | .fadd => true
  | .fsub => true
  | .fmul => true
  | .finv => true
  | .x25519Ladder => true
  | .x25519Shared _ => true
  | .x25519Public => true
  | .edwAdd => true
  | .edwDbl => true
  | .edwSmul => true
  | .edwEq => true
  | .edwCompress => true
  | .edwDecompress => true
  | .edwBase => true
  | .edwNeutral => true
  | .edExpand => true
  | .edPubkey => true
  | .edSign => true
  | .edVerify => true

end Sys2Proof
end

