-- ==== Sys2Proof/Decode.lean ====
section
/-! DEFINITION. The decoder of a command word by its fields (spec/30_encoding.md R100 to R104), total
and rejecting by name, and the encoder. The rejected words are the illegal ones of R101, which the
machine runs as ILLEGAL_CMD (60_exceptions.md R311). -/

namespace Sys2Proof

/-- Why a command word, or a byte string, is no instruction. -/
inductive DecodeError where
  /-- Fewer than the four byte lanes of a command word (R100: every command word is 32 bits). -/
  | truncated
  /-- OPCODE is marked reserved in R103. -/
  | reservedOpcode
  /-- STRICT is set on an opcode other than X25519_SHARED (R101). -/
  | strictNotAllowed
  /-- A bit of RESERVED, [31:9], is set (R100, R107). -/
  | reservedBits
  deriving DecidableEq, Repr

/-- OPCODE, bits [7:0] (R100, R102). -/
def fieldOpcode (w : Word) : Byte := w.extractLsb' 0 8

/-- STRICT, bit [8] (R100, R102). -/
def fieldStrict (w : Word) : Bool := w.getLsbD 8

/-- RESERVED, bits [31:9] (R100). -/
def fieldReserved (w : Word) : BitVec 23 := w.extractLsb' 9 23

/-- The opcode map of R103: the instruction of an opcode, given the STRICT bit. -/
def opcodeInstr (op : Byte) (strict : Bool) : Option Instr :=
  match op.toNat with
  | 0x01 => some .fadd
  | 0x02 => some .fsub
  | 0x03 => some .fmul
  | 0x04 => some .finv
  | 0x10 => some .x25519Ladder
  | 0x11 => some (.x25519Shared strict)
  | 0x12 => some .x25519Public
  | 0x20 => some .edwAdd
  | 0x21 => some .edwDbl
  | 0x22 => some .edwSmul
  | 0x23 => some .edwEq
  | 0x24 => some .edwCompress
  | 0x25 => some .edwDecompress
  | 0x26 => some .edwBase
  | 0x27 => some .edwNeutral
  | 0x30 => some .edExpand
  | 0x31 => some .edPubkey
  | 0x32 => some .edSign
  | 0x33 => some .edVerify
  | _ => none

/-- Only X25519_SHARED leaves the STRICT bit free (R101). -/
def opcodeTakesStrict (op : Byte) : Bool := op == 0x11#8

/-- The instruction of a command word (R100 to R102), or why there is none. -/
def decodeWord (w : Word) : Except DecodeError Instr :=
  match opcodeInstr (fieldOpcode w) (fieldStrict w) with
  | none => .error .reservedOpcode
  | some i =>
    if fieldReserved w ≠ 0#23 then .error .reservedBits
    else if fieldStrict w && !opcodeTakesStrict (fieldOpcode w) then .error .strictNotAllowed
    else .ok i

/-- Byte lane `i` of a word carries bits [8i+7:8i] (20_memory.md R77). -/
def wordLane (w : Word) (i : Nat) : Byte := w.extractLsb' (8 * i) 8

/-- The four byte lanes of a word, lane 0 first. -/
def wordLanes (w : Word) : List Byte := [wordLane w 0, wordLane w 1, wordLane w 2, wordLane w 3]

/-- The word of four byte lanes, lane 0 first (20_memory.md R77). -/
def laneWord (b0 b1 b2 b3 : Byte) : Word := b3 ++ b2 ++ b1 ++ b0

/-- The decoder on bytes: the lanes of one 32-bit write to CMD, and the bytes after it. -/
def decodeBytes : List Byte → Except DecodeError (Instr × List Byte)
  | b0 :: b1 :: b2 :: b3 :: rest =>
    match decodeWord (laneWord b0 b1 b2 b3) with
    | .ok i => .ok (i, rest)
    | .error e => .error e
  | _ => .error .truncated

/-- The command word of an instruction (R103, R104). -/
def encode : Instr → Word
  | .fadd => 0x00000001#32
  | .fsub => 0x00000002#32
  | .fmul => 0x00000003#32
  | .finv => 0x00000004#32
  | .x25519Ladder => 0x00000010#32
  | .x25519Shared strict => if strict then 0x00000111#32 else 0x00000011#32
  | .x25519Public => 0x00000012#32
  | .edwAdd => 0x00000020#32
  | .edwDbl => 0x00000021#32
  | .edwSmul => 0x00000022#32
  | .edwEq => 0x00000023#32
  | .edwCompress => 0x00000024#32
  | .edwDecompress => 0x00000025#32
  | .edwBase => 0x00000026#32
  | .edwNeutral => 0x00000027#32
  | .edExpand => 0x00000030#32
  | .edPubkey => 0x00000031#32
  | .edSign => 0x00000032#32
  | .edVerify => 0x00000033#32

/-- The command word whose low `nbits` bits are `w` and whose other bits are 0, as the opcode table
numbers them. -/
def tableWord (nbits w : Nat) : Word := BitVec.ofNat 32 (w % 2 ^ nbits)

/-- What the decoder reads from a table row's word, laid out in its byte lanes. -/
def decodeTableWord (nbits w : Nat) : Option Instr :=
  match decodeBytes (wordLanes (tableWord nbits w)) with
  | .ok (i, _) => some i
  | .error _ => none

end Sys2Proof
end

