-- ==== Sys2Proof/Config.lean ====
section
/-! DEFINITION. What the spec leaves to an implementation or to the platform: one value this hardware
fixes, and the open parameters and free values, which are constants without a body. -/

namespace Sys2Proof

/-- MSG_CAP, the capacity of MSG in bytes: 4096 for this hardware (00_scope.md R8, log entry 12). -/
def Config.msgCap : Nat := 4096

/-- BASE divided by 0x2000. The spec leaves BASE open, a multiple of 0x2000 (00_scope.md R7,
log entry 11). -/
opaque Config.baseIndex : Nat

/-- BASE, the bus address of byte 0 of the window (00_scope.md R7). -/
def Config.base : Nat := 0x2000 * Config.baseIndex

/-- HASH512, the external hash: a total function from byte strings to strings of exactly 64 bytes,
of which nothing else is assumed (00_scope.md R9, 44_ed25519_protocol.md R276, log entry 10). -/
opaque Config.hash512 : List Byte → Vector Byte 64

/-- FREE VALUE. What a byte of IN0, IN1 or MSG holds after the reset number `epoch` until it is
written: at `offset` of the window, under no law (70_reset_and_hazards.md R352, log entry 5). -/
opaque Config.unspecifiedByte (epoch offset : Nat) : Byte

end Sys2Proof
end

