-- ==== Sys2Proof/Machine/Codec.lean ====
section
/-! DEFINITION. The little-endian codec between byte strings and integers (spec/00_scope.md R13, R14). -/

namespace Sys2Proof.Machine

/-- `LE(b)`: the sum of `b[i] · 256^i` (R14). -/
def leNat : List Byte → Nat
  | [] => 0
  | b :: bs => b.toNat + 256 * leNat bs

/-- `LE_n(x)`: the `n` bytes of `x`, least significant first (R14). -/
def leBytes : Nat → Nat → List Byte
  | 0, _ => []
  | n + 1, x => BitVec.ofNat 8 x :: leBytes n (x / 256)

/-- `LE32(x)` (R14). -/
def le32 (x : Nat) : List Byte := leBytes 32 x

/-- `zeros(n)` (R13). -/
def zeros (n : Nat) : List Byte := List.replicate n 0#8

end Sys2Proof.Machine
end

