-- ==== Sys2Proof/Machine/State.lean ====
section
/-! DEFINITION. The state of the core and of the HOST beside it, as plain data, and the state after
reset (spec/10_state.md, spec/70_reset_and_hazards.md R351). -/

namespace Sys2Proof.Machine

/-- STATUS, one field per field of its layout (10_state.md R37). Its reserved bits read 0 and ignore
writes (R34), so nothing is stored for them. The word a host reads is `Status.word`. -/
structure Status where
  /-- BUSY, bit 0 (R38). It is the ENGINE's state: IDLE or BUSY (R30). -/
  busy : Bool
  /-- DONE, bit 1, W1C (R39). -/
  done : Bool
  /-- ERR, bit 2 (R40). -/
  err : Bool
  /-- RESULT, bit 3 (R41). -/
  result : Bool
  /-- CMD_OVERRUN, bit 4, W1C (R42). -/
  cmdOverrun : Bool
  /-- WR_BUSY, bit 5, W1C (R43). -/
  wrBusy : Bool
  /-- ERRCODE, bits [15:8] (R44). -/
  errcode : Byte
  deriving DecidableEq, Repr

/-- The width of a host access (20_memory.md R71 to R73): 1, 2 or 4 bytes. -/
inductive Width where
  | w8
  | w16
  | w32
  deriving DecidableEq, Repr

/-- One bus transaction of a host program (30_encoding.md R109), or the POLL loop of R110. `off` is an
offset from BASE. -/
inductive BusOp where
  /-- `R32 off`, `R16 off`, `R8 off`: MemRead(off, n). -/
  | read (off : Nat) (n : Width)
  /-- `W32 off, v`, `W16 off, v`, `W8 off, v`: MemWrite(off, n, v). -/
  | write (off : Nat) (n : Width) (v : Word)
  /-- `POLL`: read STATUS again and again until its BUSY bit is 0. -/
  | poll
  deriving DecidableEq, Repr

/-- Which agent performs the next event of the single order of 20_memory.md R84. -/
inductive Turn where
  /-- The HOST issues its next bus transaction. -/
  | host
  /-- The ENGINE completes the running command. -/
  | engine
  /-- The platform asserts the reset input (70_reset_and_hazards.md R350). -/
  | reset
  deriving DecidableEq, Repr

/-- The buffers IN0, IN1, OUT and MSG: bytes at window offsets, in canonical form (`Memory.wf`). -/
abbrev Memory := List Host.Cell

/-- The core's architectural state, and after it the model's own record of the agents around it. -/
structure State where
  /-- CMD (10_state.md R36). -/
  cmd : Word
  /-- STATUS (R37). -/
  status : Status
  /-- IRQ_EN.DONE_IE; the other bits of IRQ_EN read 0 and ignore writes (R45, R34). -/
  doneIe : Bool
  /-- ERR_SLOT bits [7:0]; the other bits read 0 (R46). -/
  errSlot : Byte
  /-- ERR_EXPECTED (R47). -/
  errExpected : Word
  /-- ERR_GOT (R48). -/
  errGot : Word
  /-- ERR_INFO bits [7:0]; the other bits read 0 (R50). -/
  errInfo : Byte
  /-- LEN0 (R51). -/
  len0 : Word
  /-- LEN1 (R51). -/
  len1 : Word
  /-- MSG_LEN (R51). -/
  msgLen : Word
  /-- OUT_LEN (R56). -/
  outLen : Word
  /-- IN0, IN1, OUT and MSG (R52 to R55). A byte of IN0, IN1 or MSG is listed exactly when its
  `written` flag is set (R60, log entry 5). -/
  mem : Memory
  /-- MODEL'S OWN: how many resets this run has seen after the first; it selects the free values of
  the unwritten bytes (log entry 5). -/
  epoch : Nat
  /-- MODEL'S OWN: the agents that move next, first one first (log entry 1). -/
  sched : List Turn
  /-- MODEL'S OWN: the bus transactions the HOST has still to issue (log entry 2). -/
  host : List BusOp
  /-- MODEL'S OWN: the values the HOST's reads returned, newest first (log entry 2). -/
  reads : List Word
  deriving DecidableEq, Repr

/-- The error codes of an `Err` outcome (60_exceptions.md R310). -/
inductive ErrCode where
  /-- The command word is illegal (R311). -/
  | illegalCmd
  /-- An operand's length register does not hold the required length (R312, R314). -/
  | badLength
  /-- MSG_LEN exceeds MSG_CAP (R315). -/
  | msgLength
  /-- EDW_SMUL's scalar has bit 255 set (43_edwards_scalar_mult.md R252). -/
  | scalarRange
  /-- EDW_DECOMPRESS's encoding does not decode (42_edwards_point.md R224). -/
  | decompress
  /-- X25519_SHARED with STRICT met the all-zero secret (41_montgomery_ladder.md R182). -/
  | zeroSharedSecret
  deriving DecidableEq, Repr

/-- `Err(code, slot, expected, got, info)` (00_scope.md R16). -/
structure CmdError where
  code : ErrCode
  slot : Byte
  expected : Word
  got : Word
  info : Byte
  deriving DecidableEq, Repr

/-- `Ok(out, result)` (00_scope.md R16): at most 128 bytes and one bit. -/
structure CmdResult where
  out : List Byte
  result : Bool
  deriving DecidableEq, Repr

/-- What ends a command before its `return Ok(...)`. -/
inductive Stop where
  /-- `raise E(...)`: an `Err` outcome. -/
  | raised (e : CmdError)
  /-- The command reads a buffer byte that was never written since reset (10_state.md R60). -/
  | unwritten
  deriving DecidableEq, Repr

/-- Why the machine stops. The spec gives the model exactly these two faults (60_exceptions.md R324);
neither is an error code of the hardware. -/
inductive Fault where
  /-- BUS_ERROR(addr, n): raised by a HOST access of `n` bytes at offset `addr` that 20_memory.md R73,
  R74 or R76 does not admit. Safe: the hardware changes nothing and goes on. -/
  | busError (addr n : Nat)
  /-- UNWRITTEN_OPERAND: raised by the completion of a command that reads a byte of IN0, IN1 or MSG never
  written since reset (60_exceptions.md R319). Safe: the hardware computes with whatever the byte holds. -/
  | unwrittenOperand
  deriving DecidableEq, Repr

/-- Why an instruction has no meaning. -/
inductive Refusal where
  /-- Raised by `exec` alone, for a constructor whose meaning is not written yet. No arm raises it now.
  Safe: nothing is said of the instruction. -/
  | notModelled (mnemonic : String)
  deriving DecidableEq, Repr

/-- STATUS = 0x00000000 (70_reset_and_hazards.md R351). -/
def Status.reset : Status where
  busy := false
  done := false
  err := false
  result := false
  cmdOverrun := false
  wrBusy := false
  errcode := 0#8

/-- The state after reset (70_reset_and_hazards.md R351): every register 0, OUT all 0x00 and no byte of
IN0, IN1 or MSG written (both are the empty list), no agent waiting to move. -/
def State.reset : State where
  cmd := 0#32
  status := Status.reset
  doneIe := false
  errSlot := 0#8
  errExpected := 0#32
  errGot := 0#32
  errInfo := 0#8
  len0 := 0#32
  len1 := 0#32
  msgLen := 0#32
  outLen := 0#32
  mem := []
  epoch := 0
  sched := []
  host := []
  reads := []

end Sys2Proof.Machine
end

