-- ==== Sys2Proof/Machine/Flags.lean ====
section
/-! DEFINITION. Every computation of STATUS, IRQ_EN and the interrupt wire: the word a host reads, what
a W1C write, a command's start and its completion do to the flags, and the numbers of the error codes
(spec/10_state.md R37 to R45, R59; spec/60_exceptions.md R310, R317, R319). -/

namespace Sys2Proof.Machine

/-- The number of an error code (60_exceptions.md R310). -/
def ErrCode.number : ErrCode → Byte
  | .illegalCmd => 0x01#8
  | .badLength => 0x02#8
  | .msgLength => 0x03#8
  | .scalarRange => 0x04#8
  | .decompress => 0x05#8
  | .zeroSharedSecret => 0x06#8

/-- STATUS as a host reads it (10_state.md R37): [31:16] 0, ERRCODE, [7:6] 0, WR_BUSY, CMD_OVERRUN,
RESULT, ERR, DONE, BUSY. -/
def Status.word (st : Status) : Word :=
  0#16 ++ st.errcode ++ 0#2 ++ BitVec.ofBool st.wrBusy ++ BitVec.ofBool st.cmdOverrun ++
    BitVec.ofBool st.result ++ BitVec.ofBool st.err ++ BitVec.ofBool st.done ++ BitVec.ofBool st.busy

/-- A host write of `v` to STATUS: a 1 clears DONE, CMD_OVERRUN, WR_BUSY; nothing else acts (R34, R37). -/
def Status.clearW1C (st : Status) (v : Word) : Status :=
  { st with
    done := st.done && !v.getLsbD 1
    cmdOverrun := st.cmdOverrun && !v.getLsbD 4
    wrBusy := st.wrBusy && !v.getLsbD 5 }

/-- STATUS at a command's start (60_exceptions.md R317). -/
def Status.started (st : Status) : Status :=
  { st with busy := true, done := false, err := false, result := false, errcode := 0#8 }

/-- STATUS at an `Ok` completion (60_exceptions.md R319). -/
def Status.completedOk (st : Status) (result : Bool) : Status :=
  { st with busy := false, done := true, err := false, result := result, errcode := 0#8 }

/-- STATUS at an `Err` completion (60_exceptions.md R319). -/
def Status.completedErr (st : Status) (code : ErrCode) : Status :=
  { st with busy := false, done := true, err := true, result := false, errcode := code.number }

/-- IRQ_EN as a host reads it: DONE_IE in bit 0, the reserved bits 0 (10_state.md R45, R34). -/
def irqEnWord (doneIe : Bool) : Word := 0#31 ++ BitVec.ofBool doneIe

/-- The interrupt wire: `irq = STATUS.DONE & IRQ_EN.DONE_IE` at every instant (10_state.md R59). -/
def State.irq (s : State) : Bool := s.status.done && s.doneIe

end Sys2Proof.Machine
end

