-- ==== Sys2Proof/Machine/Ops.lean ====
section
/-! DEFINITION. The named operations: the buffers' bytes, the registers, a host's bus accesses, a
command's start and its completion (the one operation in which a command's errors are reported: the
core has no other trap, spec/60_exceptions.md R322), the length checks, and reset. -/

namespace Sys2Proof.Machine

/-! ### Places of the window (10_state.md R33) -/

/-- Offset of IN0 (R52). -/
def in0Base : Nat := 0x100
/-- Offset of IN1 (R53). -/
def in1Base : Nat := 0x180
/-- Offset of OUT (R55). -/
def outBase : Nat := 0x200
/-- Offset of MSG (R54). -/
def msgBase : Nat := 0x1000
/-- Bytes of each of IN0, IN1 and OUT. -/
def bufBytes : Nat := 128

/-- What an offset of the window belongs to (R33). -/
inductive Region where
  | register
  | in0
  | in1
  | out
  | msg
  | reserved
  deriving DecidableEq, Repr

/-- The map of R33. Offsets past the window are `reserved` too: both end in a bus error (R76). -/
def regionOf (a : Nat) : Region :=
  if a < 0x034 then .register
  else if a < in0Base then .reserved
  else if a < in1Base then .in0
  else if a < outBase then .in1
  else if a < outBase + bufBytes then .out
  else if a < msgBase then .reserved
  else if a < msgBase + Config.msgCap then .msg
  else .reserved

/-- The 32-bit registers of the window (R33). -/
inductive Reg where
  | id
  | cmd
  | status
  | irqEn
  | errSlot
  | errExpected
  | errGot
  | errInfo
  | len0
  | len1
  | msgLen
  | outLen
  | msgCap
  deriving DecidableEq, Repr

/-- The register at an offset (R33). -/
def regAt (a : Nat) : Option Reg :=
  match a with
  | 0x000 => some .id
  | 0x004 => some .cmd
  | 0x008 => some .status
  | 0x00C => some .irqEn
  | 0x010 => some .errSlot
  | 0x014 => some .errExpected
  | 0x018 => some .errGot
  | 0x01C => some .errInfo
  | 0x020 => some .len0
  | 0x024 => some .len1
  | 0x028 => some .msgLen
  | 0x02C => some .outLen
  | 0x030 => some .msgCap
  | _ => none

/-- The window offset of a bus address: `none` where the address is not in this core's window
(00_scope.md R7, 20_memory.md R70). -/
def windowOffset (busAddr : Nat) : Option Nat :=
  if Config.base ≤ busAddr ∧ busAddr < Config.base + 0x2000 then some (busAddr - Config.base) else none

/-! ### The bytes of the buffers -/

/-- What an unlisted offset reads as: 0x00 in OUT (R55), nothing elsewhere (R60: not written). -/
def unlisted (a : Nat) : Option Byte := if regionOf a = .out then some 0#8 else none

/-- The byte listed at `a`. -/
def Memory.find : Memory → Nat → Option Byte
  | [], _ => none
  | (k, b) :: m, a => if k = a then some b else Memory.find m a

/-- The byte at `a`: listed, or what an unlisted offset reads as. -/
def Memory.read (m : Memory) (a : Nat) : Option Byte :=
  match Memory.find m a with
  | some b => some b
  | none => unlisted a

/-- List the byte `b` at `a`, in order of offsets. -/
def Memory.insert : Memory → Nat → Byte → Memory
  | [], a, b => [(a, b)]
  | (k, c) :: m, a, b =>
    if a < k then (a, b) :: (k, c) :: m
    else if a = k then (a, b) :: m
    else (k, c) :: Memory.insert m a b

/-- List nothing at `a`. -/
def Memory.erase (m : Memory) (a : Nat) : Memory := m.filter (fun c => c.1 ≠ a)

/-- Store the byte `b` at `a`, keeping the canonical form. -/
def Memory.write (m : Memory) (a : Nat) (b : Byte) : Memory :=
  if unlisted a = some b then Memory.erase m a else Memory.insert m a b

/-- `m[a +: n]`: the `n` bytes from `a`, if every one of them is there (00_scope.md R13). -/
def Memory.readBytes (m : Memory) (a : Nat) : Nat → Option (List Byte)
  | 0 => some []
  | n + 1 =>
    match Memory.read m a, Memory.readBytes m (a + 1) n with
    | some b, some bs => some (b :: bs)
    | _, _ => none

/-- Store bytes from `a` on. -/
def Memory.writeBytes (m : Memory) (a : Nat) : List Byte → Memory
  | [] => m
  | b :: bs => Memory.writeBytes (Memory.write m a b) (a + 1) bs

/-- The canonical form: offsets strictly rising, no entry equal to what an unlisted offset reads as. -/
abbrev Memory.wf (m : Memory) : Prop :=
  m.Pairwise (fun c d => c.1 < d.1) ∧ ∀ c ∈ m, unlisted c.1 ≠ some c.2

/-- Every listed offset is one of a buffer's. -/
abbrev Memory.inBuffers (m : Memory) : Prop :=
  ∀ c ∈ m, regionOf c.1 ≠ .register ∧ regionOf c.1 ≠ .reserved

/-! ### A command's start and completion -/

/-- A write of `w` to CMD while IDLE: the command starts (60_exceptions.md R317). -/
def startCommand (w : Word) (s : State) : State :=
  { s with
    cmd := w
    status := s.status.started
    errSlot := 0#8
    errExpected := 0#32
    errGot := 0#32
    errInfo := 0#8 }

/-- The completion with outcome `Ok(out, result)` (60_exceptions.md R319, 10_state.md R55, R56). -/
def completeOk (r : CmdResult) (s : State) : State :=
  { s with
    mem := s.mem.writeBytes outBase (r.out ++ zeros (bufBytes - r.out.length))
    outLen := BitVec.ofNat 32 r.out.length
    status := s.status.completedOk r.result
    errSlot := 0#8
    errExpected := 0#32
    errGot := 0#32
    errInfo := 0#8 }

/-- The completion with outcome `Err(code, slot, expected, got, info)` (60_exceptions.md R319, R320). -/
def completeErr (e : CmdError) (s : State) : State :=
  { s with
    mem := s.mem.writeBytes outBase (zeros bufBytes)
    outLen := 0#32
    status := s.status.completedErr e.code
    errSlot := e.slot
    errExpected := e.expected
    errGot := e.got
    errInfo := e.info }

/-- The completion step of a command whose rule gives `o` (60_exceptions.md R319). -/
def complete (o : Except Stop CmdResult) (s : State) : Host.Outcome State Fault Refusal :=
  match o with
  | .ok r => .next (completeOk r s)
  | .error (.raised e) => .next (completeErr e s)
  | .error .unwritten => .fault .unwrittenOperand

/-- `raise E(slot, expected, got, info)` (00_scope.md R16). -/
def raise (code : ErrCode) (slot : Byte) (expected got : Word) (info : Byte) : Except Stop α :=
  .error (.raised ⟨code, slot, expected, got, info⟩)

/-- `check_len(slot, L, n)` (60_exceptions.md R314). -/
def checkLen (slot : Byte) (len : Word) (n : Nat) : Except Stop Unit :=
  if len.toNat ≠ n then raise .badLength slot (BitVec.ofNat 32 n) len 0#8 else .ok ()

/-- `check_msg()` (60_exceptions.md R315). -/
def checkMsg (s : State) : Except Stop Unit :=
  if s.msgLen.toNat > Config.msgCap then
    raise .msgLength 3#8 (BitVec.ofNat 32 Config.msgCap) s.msgLen 0#8
  else .ok ()

/-- `n` bytes a command reads from `a`: an unwritten one among them stops it (10_state.md R60). -/
def operandBytes (s : State) (a n : Nat) : Except Stop (List Byte) :=
  match s.mem.readBytes a n with
  | some bs => .ok bs
  | none => .error .unwritten

/-- `IN0[0 +: n]` (10_state.md R52). -/
def readIn0 (s : State) (n : Nat) : Except Stop (List Byte) := operandBytes s in0Base n

/-- `IN1[0 +: n]` (10_state.md R53). -/
def readIn1 (s : State) (n : Nat) : Except Stop (List Byte) := operandBytes s in1Base n

/-- `MSG[0 +: MSG_LEN]` (10_state.md R54). -/
def readMsg (s : State) : Except Stop (List Byte) := operandBytes s msgBase s.msgLen.toNat

/-! ### Registers -/

/-- A host's read of a register (10_state.md R34 to R51, R56). -/
def readReg (s : State) : Reg → Word
  | .id => 0x25519001#32
  | .cmd => s.cmd
  | .status => s.status.word
  | .irqEn => irqEnWord s.doneIe
  | .errSlot => s.errSlot.setWidth 32
  | .errExpected => s.errExpected
  | .errGot => s.errGot
  | .errInfo => s.errInfo.setWidth 32
  | .len0 => s.len0
  | .len1 => s.len1
  | .msgLen => s.msgLen
  | .outLen => s.outLen
  | .msgCap => BitVec.ofNat 32 Config.msgCap

/-- A dropped operand or length write sets WR_BUSY (10_state.md R43, 70_reset_and_hazards.md R360). -/
def dropWrite (s : State) : State := { s with status := { s.status with wrBusy := true } }

/-- A dropped CMD write sets CMD_OVERRUN (10_state.md R42, 70_reset_and_hazards.md R360). -/
def dropCommand (s : State) : State := { s with status := { s.status with cmdOverrun := true } }

/-- A host's write of `v` to a register: started, dropped while BUSY, W1C, stored or ignored
(10_state.md R34 to R51, 20_memory.md R75, 70_reset_and_hazards.md R360). -/
def writeReg (s : State) (r : Reg) (v : Word) : State :=
  match r with
  | .cmd => if s.status.busy then dropCommand s else startCommand v s
  | .status => { s with status := s.status.clearW1C v }
  | .irqEn => { s with doneIe := v.getLsbD 0 }
  | .len0 => if s.status.busy then dropWrite s else { s with len0 := v }
  | .len1 => if s.status.busy then dropWrite s else { s with len1 := v }
  | .msgLen => if s.status.busy then dropWrite s else { s with msgLen := v }
  | .id => s
  | .errSlot => s
  | .errExpected => s
  | .errGot => s
  | .errInfo => s
  | .outLen => s
  | .msgCap => s

/-! ### Bus accesses of the HOST -/

/-- The number of bytes of an access. -/
def Width.bytes : Width → Nat
  | .w8 => 1
  | .w16 => 2
  | .w32 => 4

/-- A buffer byte as a host reads it: its value, or the unspecified value of a byte not written since
reset, which is no fault (70_reset_and_hazards.md R352). -/
def hostByte (s : State) (a : Nat) : Byte :=
  match s.mem.read a with
  | some b => b
  | none => Config.unspecifiedByte s.epoch a

/-- The `n` buffer bytes from `a` as a host reads them. -/
def hostBytes (s : State) (a : Nat) : Nat → List Byte
  | 0 => []
  | n + 1 => hostByte s a :: hostBytes s (a + 1) n

/-- Where an admitted access of `n` bytes at `a` goes. -/
inductive Target where
  /-- A register (32-bit accesses only, R73). -/
  | reg (r : Reg)
  /-- IN0, IN1 or MSG. -/
  | operand
  /-- OUT. -/
  | out
  deriving DecidableEq, Repr

/-- Which accesses the window admits, and where they go; `none` is a bus error. Natural alignment (R74);
registers only in 32 bits (R73); buffers in any width; no reserved offset, no byte outside a buffer (R76). -/
def accessTarget (a : Nat) (n : Width) : Option Target :=
  if a % n.bytes ≠ 0 then none
  else
    match regionOf a with
    | .register =>
      match n, regAt a with
      | .w32, some r => some (.reg r)
      | _, _ => none
    | .in0 => some .operand
    | .in1 => some .operand
    | .out => some .out
    | .msg => if a + n.bytes ≤ msgBase + Config.msgCap then some .operand else none
    | .reserved => none

/-- `MemRead(a, n)` (20_memory.md R71, R77): the value read, or `none` for a bus error. -/
def busRead (s : State) (a : Nat) (n : Width) : Option Word :=
  match accessTarget a n with
  | none => none
  | some (.reg r) => some (readReg s r)
  | some .operand => some (BitVec.ofNat 32 (leNat (hostBytes s a n.bytes)))
  | some .out => some (BitVec.ofNat 32 (leNat (hostBytes s a n.bytes)))

/-- `MemWrite(a, n, v)` (20_memory.md R72): the state after it, or `none` for a bus error. -/
def busWrite (s : State) (a : Nat) (n : Width) (v : Word) : Option State :=
  match accessTarget a n with
  | none => none
  | some (.reg r) => some (writeReg s r v)
  | some .operand =>
    if s.status.busy then some (dropWrite s)
    else some { s with mem := s.mem.writeBytes a (leBytes n.bytes v.toNat) }
  | some .out => some s

/-! ### Reset -/

/-- The reset input: one atomic step that abandons a running command (70_reset_and_hazards.md R350 to
R353). The HOST's program, what it has read and the order of events go on; the bytes of IN0, IN1 and MSG
are unspecified anew (R352). -/
def resetCore (s : State) : State :=
  { State.reset with
    epoch := s.epoch + 1
    sched := s.sched
    host := s.host
    reads := s.reads }

end Sys2Proof.Machine
end

