-- ==== Sys2Proof/Machine/Operands.lean ====
section
/-! DEFINITION. The operand forms of spec/30_encoding.md R106: how the bytes of a slot become values.
Each form is a function of the bytes; the readers after them take the bytes from the slot. -/

namespace Sys2Proof.Machine

/-- An extended point (X, Y, Z, T) of integers (00_scope.md R18), not validated, not reduced
(42_edwards_point.md R211). -/
structure Point where
  X : Nat
  Y : Nat
  Z : Nat
  T : Nat
  deriving DecidableEq, Repr

/-- `pt_read(b)`: X, Y, Z, T, 32 bytes each (00_scope.md R18). -/
def ptRead (b : List Byte) : Point where
  X := leNat (b.take 32)
  Y := leNat ((b.drop 32).take 32)
  Z := leNat ((b.drop 64).take 32)
  T := leNat ((b.drop 96).take 32)

/-- `pt_bytes(P)`: `LE32(X) ‖ LE32(Y) ‖ LE32(Z) ‖ LE32(T)` (00_scope.md R18). -/
def ptBytes (P : Point) : List Byte := le32 P.X ++ le32 P.Y ++ le32 P.Z ++ le32 P.T

/-- `decode_scalar(b)`: the X25519 clamping of byte 0 and byte 31, bitwise, then LE
(41_montgomery_ladder.md R171). -/
def decodeScalar (b : List Byte) : Nat :=
  leNat ((b.modify 0 (· &&& 0xF8#8)).modify 31 (fun c => (c &&& 0x7F#8) ||| 0x40#8))

/-- `decode_u_coordinate(b)`: bit 255 masked, then LE, not reduced (41_montgomery_ladder.md R172). -/
def decodeU (b : List Byte) : Nat := leNat (b.modify 31 (· &&& 0x7F#8))

/-- A compressed point's sign, bit 255 (30_encoding.md R106, 42_edwards_point.md R208). -/
def encodingSign (b : List Byte) : Nat := leNat b >>> 255

/-- A compressed point's y, bits [254:0] (30_encoding.md R106, 42_edwards_point.md R208). -/
def encodingY (b : List Byte) : Nat := leNat b &&& (2 ^ 255 - 1)

/-- `R_bytes` of a signature (30_encoding.md R106). -/
def signatureR (b : List Byte) : List Byte := b.take 32

/-- `t` of a signature, all 256 bits (30_encoding.md R106). -/
def signatureT (b : List Byte) : Nat := leNat ((b.drop 32).take 32)

/-- "field a": IN0, 32 bytes, all 256 bits (R106). -/
def fieldA (s : State) : Except Stop Nat := leNat <$> readIn0 s 32

/-- "field b": IN1, 32 bytes, all 256 bits (R106). -/
def fieldB (s : State) : Except Stop Nat := leNat <$> readIn1 s 32

/-- "point P": IN0, 128 bytes (R106). -/
def pointP (s : State) : Except Stop Point := ptRead <$> readIn0 s 128

/-- "point Q": IN1, 128 bytes (R106). -/
def pointQ (s : State) : Except Stop Point := ptRead <$> readIn1 s 128

/-- "scalar s" of EDW_SMUL: IN1, 32 bytes, all 256 bits (R106). -/
def scalarS (s : State) : Except Stop Nat := leNat <$> readIn1 s 32

end Sys2Proof.Machine
end

