-- ==== Sys2Proof/Machine/Field.lean ====
section
/-! DEFINITION. GF(p) and the field commands FADD, FSUB, FMUL, FINV (spec/40_field_arithmetic.md). All
computation is on unbounded integers followed by reduction (R144). -/

namespace Sys2Proof.Machine

/-- p = 2^255 − 19 (R130). -/
def fieldPrime : Nat := 0x7fffffffffffffffffffffffffffffffffffffffffffffffffffffffffffffed

/-- `red(x) = x mod p` (R133). -/
def red (x : Nat) : Nat := x % fieldPrime

/-- `fadd(a, b) = red(a + b)` (R134). -/
def fadd (a b : Nat) : Nat := red (a + b)

/-- `fsub(a, b) = red(a − b)`: the least non-negative residue of the difference of integers (R135). -/
def fsub (a b : Nat) : Nat := (((a : Int) - (b : Int)) % (fieldPrime : Int)).toNat

/-- `fmul(a, b) = red(a · b)` (R136). -/
def fmul (a b : Nat) : Nat := red (a * b)

/-- `b^e mod m` for `e < 2^fuel`, by squaring (`powMod_eq` says it is). -/
def powMod (m : Nat) : Nat → Nat → Nat → Nat
  | 0, _, _ => 1 % m
  | fuel + 1, b, e =>
    if e = 0 then 1 % m
    else if e % 2 = 1 then b * powMod m fuel (b * b % m) (e / 2) % m
    else powMod m fuel (b * b % m) (e / 2)

/-- `fpow(a, e) = red(a)^e mod p` (R138), for the exponents of this core, all below 2^256. -/
def fpow (a e : Nat) : Nat := powMod fieldPrime 256 (red a) e

/-- `finv(a) = red(a)^(p−2) mod p`; finv of 0 is 0 (R137). -/
def finv (a : Nat) : Nat := fpow a (fieldPrime - 2)

/-- `fe_out(x) = LE32(red(x))` (R139), which is also `encode_u_coordinate(x)` (R173). -/
def feOut (x : Nat) : List Byte := le32 (red x)

/-- FADD's rule (R140). -/
def faddCommand (s : State) : Except Stop CmdResult := do
  checkLen 1#8 s.len0 32
  checkLen 2#8 s.len1 32
  let a ← fieldA s
  let b ← fieldB s
  return ⟨feOut (fadd a b), false⟩

/-- FADD (R140). -/
def execFadd (s : State) : Host.Outcome State Fault Refusal := complete (faddCommand s) s

/-- FSUB's rule (R141). -/
def fsubCommand (s : State) : Except Stop CmdResult := do
  checkLen 1#8 s.len0 32
  checkLen 2#8 s.len1 32
  let a ← fieldA s
  let b ← fieldB s
  return ⟨feOut (fsub a b), false⟩

/-- FSUB (R141). -/
def execFsub (s : State) : Host.Outcome State Fault Refusal := complete (fsubCommand s) s

/-- FMUL's rule (R142). -/
def fmulCommand (s : State) : Except Stop CmdResult := do
  checkLen 1#8 s.len0 32
  checkLen 2#8 s.len1 32
  let a ← fieldA s
  let b ← fieldB s
  return ⟨feOut (fmul a b), false⟩

/-- FMUL (R142). -/
def execFmul (s : State) : Host.Outcome State Fault Refusal := complete (fmulCommand s) s

/-- FINV's rule (R143): IN1 is not read and LEN1 is not checked. -/
def finvCommand (s : State) : Except Stop CmdResult := do
  checkLen 1#8 s.len0 32
  let a ← fieldA s
  return ⟨feOut (finv a), false⟩

/-- FINV (R143). -/
def execFinv (s : State) : Host.Outcome State Fault Refusal := complete (finvCommand s) s

end Sys2Proof.Machine
end

