-- ==== Sys2Proof/Machine/Ladder.lean ====
section
/-! DEFINITION. The Montgomery ladder, X25519, and the commands X25519_LADDER, X25519_SHARED and
X25519_PUBLIC (spec/41_montgomery_ladder.md). -/

namespace Sys2Proof.Machine

/-- a24 = 121665 (R170). -/
def a24 : Nat := 121665

/-- U_BASE = 9, the X25519 base u-coordinate (00_scope.md R11, R184). -/
def uBase : Nat := 9

/-- `encode_u_coordinate(x) = LE32(red(x))` (R173). -/
def encodeU (x : Nat) : List Byte := le32 (red x)

/-- The ladder's accumulators and its swap bit (R174). -/
structure LadderState where
  x2 : Nat
  z2 : Nat
  x3 : Nat
  z3 : Nat
  swap : Bool
  deriving DecidableEq, Repr

/-- The initial values for the input u (R174). -/
def ladderInit (u : Nat) : LadderState := ⟨1, 0, u, 1, false⟩

/-- `cswap(bit, a, b)`, by its value (R175; how it is built is a timing rule, R181). -/
def cswap (bit : Bool) (a b : Nat) : Nat × Nat := if bit then (b, a) else (a, b)

/-- Both conditional swaps on the swap bit (R177, R178). -/
def ladderSwap (l : LadderState) : LadderState :=
  let x := cswap l.swap l.x2 l.x3
  let z := cswap l.swap l.z2 l.z3
  { l with x2 := x.1, x3 := x.2, z2 := z.1, z3 := z.2 }

/-- One combined differential-add-and-double step (R176). -/
def ladderStep (x1 : Nat) (l : LadderState) : LadderState :=
  let A := fadd l.x2 l.z2
  let AA := fmul A A
  let B := fsub l.x2 l.z2
  let BB := fmul B B
  let E := fsub AA BB
  let C := fadd l.x3 l.z3
  let D := fsub l.x3 l.z3
  let DA := fmul D A
  let CB := fmul C B
  { l with
    x3 := fmul (fadd DA CB) (fadd DA CB)
    z3 := fmul (fmul x1 (fsub DA CB)) (fsub DA CB)
    x2 := fmul AA BB
    z2 := fmul E (fadd AA (fmul a24 E)) }

/-- The loop's body for bit `t` of k (R177). -/
def ladderIteration (k x1 t : Nat) (l : LadderState) : LadderState :=
  let kt := k.testBit t
  let swapped := ladderSwap { l with swap := l.swap ^^ kt }
  ladderStep x1 { swapped with swap := kt }

/-- The loop over bits `n − 1` down to 0 of k (R177). -/
def ladderLoop (k x1 : Nat) : Nat → LadderState → LadderState
  | 0, l => l
  | n + 1, l => ladderLoop k x1 n (ladderIteration k x1 n l)

/-- The final swap and `result = x2 · z2^(p−2) mod p` (R178). -/
def ladderResult (l : LadderState) : Nat :=
  let f := ladderSwap l
  fmul f.x2 (finv f.z2)

/-- The ladder on the decoded k and u: 255 iterations (R174, R177, R178). -/
def ladder (k u : Nat) : Nat := ladderResult (ladderLoop k u 255 (ladderInit u))

/-- `x25519(kb, ub)` (R179). -/
def x25519 (kb ub : List Byte) : List Byte := encodeU (ladder (decodeScalar kb) (decodeU ub))

/-- X25519_LADDER's rule (R180). -/
def x25519LadderCommand (s : State) : Except Stop CmdResult := do
  checkLen 1#8 s.len0 32
  checkLen 2#8 s.len1 32
  let kb ← readIn0 s 32
  let ub ← readIn1 s 32
  return ⟨x25519 kb ub, false⟩

/-- X25519_LADDER (R180). -/
def execX25519Ladder (s : State) : Host.Outcome State Fault Refusal :=
  complete (x25519LadderCommand s) s

/-- X25519_SHARED's rule, with the strict zero test (R182, R183). -/
def x25519SharedCommand (strict : Bool) (s : State) : Except Stop CmdResult := do
  checkLen 1#8 s.len0 32
  checkLen 2#8 s.len1 32
  let kb ← readIn0 s 32
  let ub ← readIn1 s 32
  let secret := x25519 kb ub
  if strict && secret == zeros 32 then raise .zeroSharedSecret 0#8 0#32 0#32 0#8
  else return ⟨secret, false⟩

/-- X25519_SHARED (R182). -/
def execX25519Shared (strict : Bool) (s : State) : Host.Outcome State Fault Refusal :=
  complete (x25519SharedCommand strict s) s

/-- X25519_PUBLIC's rule: IN1 is not read (R184). -/
def x25519PublicCommand (s : State) : Except Stop CmdResult := do
  checkLen 1#8 s.len0 32
  let kb ← readIn0 s 32
  return ⟨x25519 kb (le32 uBase), false⟩

/-- X25519_PUBLIC (R184). -/
def execX25519Public (s : State) : Host.Outcome State Fault Refusal :=
  complete (x25519PublicCommand s) s

end Sys2Proof.Machine
end

