-- ==== Sys2Proof/Machine/Edwards.lean ====
section
/-! DEFINITION. Edwards points: the curve's constants, addition, doubling, equality, compression and
decompression, and the commands EDW_ADD, EDW_DBL, EDW_EQ, EDW_COMPRESS, EDW_DECOMPRESS, EDW_BASE and
EDW_NEUTRAL (spec/42_edwards_point.md). Point operands are not validated (R211). -/

namespace Sys2Proof.Machine

/-- d = fmul(p − 121665, finv(121666)) (R201; `edwardsD_eq` says so). -/
def edwardsD : Nat := 0x52036cee2b6ffe738cc740797779e89800700a4d4141d8ab75eb4dca135978a3

/-- 2d = fadd(d, d) (R201; `edwards2D_eq` says so). -/
def edwards2D : Nat := 0x2406d9dc56dffce7198e80f2eef3d13000e0149a8283b156ebd69b9426b2f159

/-- SQRT_M1 = fpow(2, (p − 1)/4) (R202; `sqrtM1_eq` says so). -/
def sqrtM1 : Nat := 0x2b8324804fc1df0b2b4d00993dfbd7a72f431806ad2fe478c4ee1b274a0ea0b0

/-- N = (0, 1, 1, 0) (R203). -/
def neutralPoint : Point := ⟨0, 1, 1, 0⟩

/-- G = (Gx, Gy, 1, Gt), a constant of the hardware (R204, 10_state.md R57; `basePoint_eq` says that
Gy = 4/5, Gx = recover_x(Gy, 0) and Gt = Gx · Gy). -/
def basePoint : Point where
  X := 0x216936d3cd6e53fec0a4e231fdd6dc5c692cc7609525a7b2c9562d608f25d51a
  Y := 0x6666666666666666666666666666666666666666666666666666666666666658
  Z := 1
  T := 0x67875f0fd78b766566ea4e8e64abe37d20f09f80775152f56dde8ab3a5b7dda3

/-- `edw_add(P1, P2)`, the unified formula (R205). -/
def edwAdd (P1 P2 : Point) : Point :=
  let A := fmul (fsub P1.Y P1.X) (fsub P2.Y P2.X)
  let B := fmul (fadd P1.Y P1.X) (fadd P2.Y P2.X)
  let C := fmul (fmul P1.T edwards2D) P2.T
  let D := fmul (fmul P1.Z 2) P2.Z
  let E := fsub B A
  let F := fsub D C
  let G' := fadd D C
  let H := fadd B A
  ⟨fmul E F, fmul G' H, fmul F G', fmul E H⟩

/-- `edw_dbl(P1)`, the dedicated formula; T1 plays no part (R206). -/
def edwDbl (P1 : Point) : Point :=
  let A := fmul P1.X P1.X
  let B := fmul P1.Y P1.Y
  let C := fmul 2 (fmul P1.Z P1.Z)
  let H := fadd A B
  let E := fsub H (fmul (fadd P1.X P1.Y) (fadd P1.X P1.Y))
  let G' := fsub A B
  let F := fadd C G'
  ⟨fmul E F, fmul G' H, fmul F G', fmul E H⟩

/-- `edw_eq(P1, P2)`: equality of the affine points by cross-multiplication (R210). -/
def edwEq (P1 P2 : Point) : Bool :=
  fsub (fmul P1.X P2.Z) (fmul P2.X P1.Z) == 0 && fsub (fmul P1.Y P2.Z) (fmul P2.Y P1.Z) == 0

/-- Why `recover_x` returns none (R207). -/
inductive RecoverFail where
  /-- fail(2): y ≥ p. -/
  | nonCanonical
  /-- fail(3): no square root. -/
  | noRoot
  /-- fail(4): x = 0 with sign 1. -/
  | zeroWithSign
  deriving DecidableEq, Repr

/-- The reason number that ERR_INFO reports (R207, 60_exceptions.md R313). -/
def RecoverFail.reason : RecoverFail → Byte
  | .nonCanonical => 2#8
  | .noRoot => 3#8
  | .zeroWithSign => 4#8

/-- x² of the curve equation: `(y·y − 1) · finv(d·y·y + 1)` (R207). -/
def recoverX2 (y : Nat) : Nat :=
  fmul (fsub (fmul y y) 1) (finv (fadd (fmul (fmul edwardsD y) y) 1))

/-- The candidate root: `x2^((p+3)/8)`, twisted by SQRT_M1 where it is no root (R207). -/
def candidateRoot (x2 : Nat) : Nat :=
  let x := fpow x2 ((fieldPrime + 3) / 8)
  if fsub (fmul x x) x2 ≠ 0 then fmul x sqrtM1 else x

/-- `recover_x(y, sign)` (R207). -/
def recoverX (y sign : Nat) : Except RecoverFail Nat :=
  if y ≥ fieldPrime then .error .nonCanonical
  else
    let x2 := recoverX2 y
    if x2 = 0 then
      if sign = 1 then .error .zeroWithSign else .ok 0
    else
      let x := candidateRoot x2
      if fsub (fmul x x) x2 ≠ 0 then .error .noRoot
      else if x &&& 1 ≠ sign then .ok (fieldPrime - x)
      else .ok x

/-- `decompress(b)` (R208). -/
def decompress (b : List Byte) : Except RecoverFail Point :=
  let y := encodingY b
  match recoverX y (encodingSign b) with
  | .error f => .error f
  | .ok x => .ok ⟨x, y, 1, fmul x y⟩

/-- `compress(P)`; Z ≡ 0 gives zeros(32), T plays no part (R209). -/
def compress (P : Point) : List Byte :=
  let zi := finv P.Z
  let x := fmul P.X zi
  let y := fmul P.Y zi
  le32 (y ||| ((x &&& 1) <<< 255))

/-- EDW_ADD's rule (R220). -/
def edwAddCommand (s : State) : Except Stop CmdResult := do
  checkLen 1#8 s.len0 128
  checkLen 2#8 s.len1 128
  let P ← pointP s
  let Q ← pointQ s
  return ⟨ptBytes (edwAdd P Q), false⟩

/-- EDW_ADD (R220). -/
def execEdwAdd (s : State) : Host.Outcome State Fault Refusal := complete (edwAddCommand s) s

/-- EDW_DBL's rule (R221). -/
def edwDblCommand (s : State) : Except Stop CmdResult := do
  checkLen 1#8 s.len0 128
  let P ← pointP s
  return ⟨ptBytes (edwDbl P), false⟩

/-- EDW_DBL (R221). -/
def execEdwDbl (s : State) : Host.Outcome State Fault Refusal := complete (edwDblCommand s) s

/-- A truth value as a command returns it: one byte 0x01 or 0x00, and the RESULT bit (R222, R283). -/
def boolResult (e : Bool) : CmdResult := ⟨[if e then 0x01#8 else 0x00#8], e⟩

/-- EDW_EQ's rule (R222). -/
def edwEqCommand (s : State) : Except Stop CmdResult := do
  checkLen 1#8 s.len0 128
  checkLen 2#8 s.len1 128
  let P ← pointP s
  let Q ← pointQ s
  return boolResult (edwEq P Q)

/-- EDW_EQ (R222). -/
def execEdwEq (s : State) : Host.Outcome State Fault Refusal := complete (edwEqCommand s) s

/-- EDW_COMPRESS's rule (R223). -/
def edwCompressCommand (s : State) : Except Stop CmdResult := do
  checkLen 1#8 s.len0 128
  let P ← pointP s
  return ⟨compress P, false⟩

/-- EDW_COMPRESS (R223). -/
def execEdwCompress (s : State) : Host.Outcome State Fault Refusal :=
  complete (edwCompressCommand s) s

/-- EDW_DECOMPRESS's rule: a wrong length is a DECOMPRESS error too (R224, 60_exceptions.md R313). -/
def edwDecompressCommand (s : State) : Except Stop CmdResult := do
  if s.len0.toNat ≠ 32 then raise .decompress 1#8 32#32 s.len0 1#8
  else
    let b ← readIn0 s 32
    match decompress b with
    | .error f => raise .decompress 1#8 0#32 0#32 f.reason
    | .ok P => return ⟨ptBytes P, false⟩

/-- EDW_DECOMPRESS (R224). -/
def execEdwDecompress (s : State) : Host.Outcome State Fault Refusal :=
  complete (edwDecompressCommand s) s

/-- EDW_BASE's rule: no operand, no length checked (R225). -/
def edwBaseCommand : Except Stop CmdResult := .ok ⟨ptBytes basePoint, false⟩

/-- EDW_BASE (R225). -/
def execEdwBase (s : State) : Host.Outcome State Fault Refusal := complete edwBaseCommand s

/-- EDW_NEUTRAL's rule: no operand, no length checked (R226). -/
def edwNeutralCommand : Except Stop CmdResult := .ok ⟨ptBytes neutralPoint, false⟩

/-- EDW_NEUTRAL (R226). -/
def execEdwNeutral (s : State) : Host.Outcome State Fault Refusal := complete edwNeutralCommand s

end Sys2Proof.Machine
end

