-- ==== Sys2Proof/Machine/ScalarMult.lean ====
section
/-! DEFINITION. Edwards scalar multiplication and the command EDW_SMUL
(spec/43_edwards_scalar_mult.md). -/

namespace Sys2Proof.Machine

/-- `n` iterations of the loop, from bit `i` of `s` on: add, then double (R250). -/
def smulLoop (s : Nat) : Nat → Nat → Point → Point → Point
  | 0, _, Q, _ => Q
  | n + 1, i, Q, Pc => smulLoop s n (i + 1) (if s.testBit i then edwAdd Q Pc else Q) (edwDbl Pc)

/-- `edw_smul(P, s)`: 255 iterations, least significant bit first, Q from N (R250). -/
def edwSmul (P : Point) (s : Nat) : Point := smulLoop s 255 0 neutralPoint P

/-- EDW_SMUL's rule: the scalar is read and its range checked before the point is read (R252, R16,
log entry 8). -/
def edwSmulCommand (s : State) : Except Stop CmdResult := do
  checkLen 1#8 s.len0 128
  checkLen 2#8 s.len1 32
  let k ← scalarS s
  if k ≥ 2 ^ 255 then raise .scalarRange 2#8 0#32 0#32 0#8
  else
    let P ← pointP s
    return ⟨ptBytes (edwSmul P k), false⟩

/-- EDW_SMUL (R252). -/
def execEdwSmul (s : State) : Host.Outcome State Fault Refusal := complete (edwSmulCommand s) s

end Sys2Proof.Machine
end

