-- ==== Sys2Proof/Machine/Protocol.lean ====
section
/-! DEFINITION. Ed25519 key derivation, signing and verification, and the commands ED_EXPAND, ED_PUBKEY,
ED_SIGN and ED_VERIFY (spec/44_ed25519_protocol.md). -/

namespace Sys2Proof.Machine

/-- q, the group order (R270). -/
def groupOrder : Nat := 0x1000000000000000000000000000000014def9dea2f79cd65812631a5cf5d3ed

/-- HASH512 of a byte string, 64 bytes (00_scope.md R9, R276). -/
def hashBytes (m : List Byte) : List Byte := (Config.hash512 m).toList

/-- `hmodq(m) = LE(HASH512(m)) mod q` (R271). -/
def hmodq (m : List Byte) : Nat := leNat (hashBytes m) % groupOrder

/-- The clamped integer of `secret_expand(sk)` (R272). -/
def expandScalar (sk : List Byte) : Nat := decodeScalar ((hashBytes sk).take 32)

/-- The prefix of `secret_expand(sk)` (R272). -/
def expandPrefix (sk : List Byte) : List Byte := (hashBytes sk).drop 32

/-- `secret_to_public(sk) = compress(a · G)` (R273). -/
def secretToPublic (sk : List Byte) : List Byte := compress (edwSmul basePoint (expandScalar sk))

/-- `sign(sk, M)` (R274). -/
def sign (sk msg : List Byte) : List Byte :=
  let s := expandScalar sk
  let A := compress (edwSmul basePoint s)
  let r := hmodq (expandPrefix sk ++ msg)
  let Rb := compress (edwSmul basePoint r)
  let k := hmodq (Rb ++ A ++ msg)
  let t := (r + k * s) % groupOrder
  Rb ++ le32 t

/-- `verify(pub, M, sig)`, the cofactorless equation (R275). -/
def verify (pub msg sig : List Byte) : Bool :=
  match decompress pub with
  | .error _ => false
  | .ok Ap =>
    let Rb := signatureR sig
    match decompress Rb with
    | .error _ => false
    | .ok Rp =>
      let t := signatureT sig
      if t ≥ groupOrder then false
      else
        let k := hmodq (Rb ++ pub ++ msg)
        edwEq (edwSmul basePoint t) (edwAdd Rp (edwSmul Ap k))

/-- ED_EXPAND's rule (R280). -/
def edExpandCommand (s : State) : Except Stop CmdResult := do
  checkLen 1#8 s.len0 32
  let sk ← readIn0 s 32
  return ⟨le32 (expandScalar sk) ++ expandPrefix sk, false⟩

/-- ED_EXPAND (R280). -/
def execEdExpand (s : State) : Host.Outcome State Fault Refusal := complete (edExpandCommand s) s

/-- ED_PUBKEY's rule (R281). -/
def edPubkeyCommand (s : State) : Except Stop CmdResult := do
  checkLen 1#8 s.len0 32
  let sk ← readIn0 s 32
  return ⟨secretToPublic sk, false⟩

/-- ED_PUBKEY (R281). -/
def execEdPubkey (s : State) : Host.Outcome State Fault Refusal := complete (edPubkeyCommand s) s

/-- ED_SIGN's rule (R282). -/
def edSignCommand (s : State) : Except Stop CmdResult := do
  checkLen 1#8 s.len0 32
  checkMsg s
  let sk ← readIn0 s 32
  let msg ← readMsg s
  return ⟨sign sk msg, false⟩

/-- ED_SIGN (R282). -/
def execEdSign (s : State) : Host.Outcome State Fault Refusal := complete (edSignCommand s) s

/-- ED_VERIFY's rule: the key's length, then the signature's, then the message's; a signature that does
not verify is no error (R283, R285). -/
def edVerifyCommand (s : State) : Except Stop CmdResult := do
  checkLen 1#8 s.len0 32
  checkLen 2#8 s.len1 64
  checkMsg s
  let pub ← readIn0 s 32
  let msg ← readMsg s
  let sig ← readIn1 s 64
  return boolResult (verify pub msg sig)

/-- ED_VERIFY (R283). -/
def execEdVerify (s : State) : Host.Outcome State Fault Refusal := complete (edVerifyCommand s) s

end Sys2Proof.Machine
end

