-- ==== Sys2Proof/Machine/Dispatch.lean ====
section
/-! DEFINITION. `exec`: the meaning of a command, its completion step from a state in which its operands
stand as they stood at its start (spec/60_exceptions.md R318, R319; log entry 3). -/

namespace Sys2Proof.Machine

def exec (i : Instr) (s : State) : Host.Outcome State Fault Refusal :=
  match i with
  | .fadd => Sys2Proof.Machine.execFadd s
  | .fsub => Sys2Proof.Machine.execFsub s
  | .fmul => Sys2Proof.Machine.execFmul s
  | .finv => Sys2Proof.Machine.execFinv s
  | .x25519Ladder => Sys2Proof.Machine.execX25519Ladder s
  | .x25519Shared strict => Sys2Proof.Machine.execX25519Shared strict s
  | .x25519Public => Sys2Proof.Machine.execX25519Public s
  | .edwAdd => Sys2Proof.Machine.execEdwAdd s
  | .edwDbl => Sys2Proof.Machine.execEdwDbl s
  | .edwSmul => Sys2Proof.Machine.execEdwSmul s
  | .edwEq => Sys2Proof.Machine.execEdwEq s
  | .edwCompress => Sys2Proof.Machine.execEdwCompress s
  | .edwDecompress => Sys2Proof.Machine.execEdwDecompress s
  | .edwBase => Sys2Proof.Machine.execEdwBase s
  | .edwNeutral => Sys2Proof.Machine.execEdwNeutral s
  | .edExpand => Sys2Proof.Machine.execEdExpand s
  | .edPubkey => Sys2Proof.Machine.execEdPubkey s
  | .edSign => Sys2Proof.Machine.execEdSign s
  | .edVerify => Sys2Proof.Machine.execEdVerify s

end Sys2Proof.Machine
end

