-- ==== Sys2Proof/Machine/Agents.lean ====
section
/-! DEFINITION. The agents' moves: the HOST's next bus transaction, the ENGINE's completion of the
running command, the reset input, and which of them moves next (spec/00_scope.md R19,
spec/20_memory.md R84, spec/70_reset_and_hazards.md R350, R366). -/

namespace Sys2Proof.Machine

/-- The completion of an illegal command word: ILLEGAL_CMD with ERR_GOT = the word (60_exceptions.md
R311). It reads no operand and checks no length. -/
def execIllegal (s : State) : Host.Outcome State Fault Refusal :=
  complete (raise .illegalCmd 0#8 0#32 s.cmd 0#8) s

/-- The command that CMD holds, run to its completion: the legality test, then the command's rule
(60_exceptions.md R318, R319). -/
def runCommand (s : State) : Host.Outcome State Fault Refusal :=
  match decodeWord s.cmd with
  | .ok i => exec i s
  | .error _ => execIllegal s

/-- The ENGINE's turn: it completes the running command; IDLE, it does nothing (10_state.md R30). -/
def engineTurn (s : State) : Host.Outcome State Fault Refusal :=
  if s.status.busy then runCommand s else .next s

/-- The HOST's turn: its next bus transaction (20_memory.md R71, R72, R79; POLL of 30_encoding.md R110);
with nothing to issue it does nothing. -/
def hostTurn (s : State) : Host.Outcome State Fault Refusal :=
  match s.host with
  | [] => .next s
  | .read off n :: rest =>
    match busRead s off n with
    | some v => .next { s with host := rest, reads := v :: s.reads }
    | none => .fault (.busError off n.bytes)
  | .write off n v :: rest =>
    match busWrite { s with host := rest } off n v with
    | some t => .next t
    | none => .fault (.busError off n.bytes)
  | .poll :: rest =>
    .next { s with
      host := if s.status.busy then s.host else rest
      reads := readReg s .status :: s.reads }

/-- One agent's turn. -/
def turnStep (t : Turn) (s : State) : Host.Outcome State Fault Refusal :=
  match t with
  | .host => hostTurn s
  | .engine => engineTurn s
  | .reset => .next (resetCore s)

/-- Who moves, and the state with that turn taken off the order. Where the order lists nobody, the
ENGINE moves if it is BUSY (every started command completes, 70_reset_and_hazards.md R366), else the
HOST (log entries 1 and 4). -/
def nextTurn (s : State) : Turn × State :=
  match s.sched with
  | t :: rest => (t, { s with sched := rest })
  | [] => (if s.status.busy then .engine else .host, s)

/-- The state in which a CMD write of `w` has just started a command and the ENGINE moves next. -/
def placeCommand (w : Word) (s : State) : State :=
  { startCommand w s with sched := .engine :: s.sched }

end Sys2Proof.Machine
end

