-- ==== Sys2Proof/Machine/Step.lean ====
section
/-! DEFINITION. One step of the machine: the next event of the single order (spec/20_memory.md R84), and
how a table row's word comes to run (log entry 3). -/

namespace Sys2Proof.Machine

/-- One event: the agent whose turn it is moves. -/
def step (s : State) : Host.Outcome State Fault Refusal := turnStep (nextTurn s).1 (nextTurn s).2

/-- `s` with the command word of a table row started and about to complete: the word is in CMD, where
the ENGINE takes its command from, and the next event is the ENGINE's. -/
def State.withFetchWord (s : State) (nbits w : Nat) : State := placeCommand (tableWord nbits w) s

end Sys2Proof.Machine
end

