-- ==== Sys2Proof/Machine/HostProg.lean ====
section
/-! DEFINITION. The host-program pseudo-instructions and their expansions into bus transactions
(spec/30_encoding.md R109, R110). POLL is an operation of its own, `BusOp.poll`. -/

namespace Sys2Proof.Machine

/-- `WB off, h`: 32-bit writes while four bytes are left, then byte writes (R110). -/
def progWB (off : Nat) : List Byte → List BusOp
  | b0 :: b1 :: b2 :: b3 :: rest => .write off .w32 (laneWord b0 b1 b2 b3) :: progWB (off + 4) rest
  | [b0, b1, b2] =>
    [.write off .w8 (b0.setWidth 32), .write (off + 1) .w8 (b1.setWidth 32),
      .write (off + 2) .w8 (b2.setWidth 32)]
  | [b0, b1] => [.write off .w8 (b0.setWidth 32), .write (off + 1) .w8 (b1.setWidth 32)]
  | [b0] => [.write off .w8 (b0.setWidth 32)]
  | [] => []

/-- `OPCODE(op)`: the command word of the mnemonic with STRICT = 0 (R110, R104). -/
def progOpcode (op : Instr) : Word := encode op &&& 0x000000FF#32

/-- `RUN op` and, where `strict`, `RUN op, STRICT`: `W32 CMD, OPCODE(op)` with 0x100 or-ed in, then `POLL`
(R110). STRICT may stand at any mnemonic; all but X25519_SHARED then give an illegal word (R101). -/
def progRun (op : Instr) (strict : Bool) : List BusOp :=
  [.write 0x004 .w32 (progOpcode op ||| if strict then 0x00000100#32 else 0#32), .poll]

/-- `RB off, n`: `n` byte reads (R110). -/
def progRB (off n : Nat) : List BusOp := (List.range n).map fun j => .read (off + j) .w8

/-- `ACK`: `W32 STATUS, 0x2` (R110). -/
def progAck : List BusOp := [.write 0x008 .w32 0x2#32]

end Sys2Proof.Machine
end

