-- ==== Sys2Proof/Safety.lean ====
section
/-! DEFINITION. The terms in which claims about the core are stated: the operand table of
spec/30_encoding.md R104, what a completion leaves (60_exceptions.md R319), what a command may depend on
(R318), and the invariant of the machine. -/

namespace Sys2Proof.Machine

/-! ### The operand table (30_encoding.md R104) -/

/-- Column "IN0 (LEN0)": the length a command requires in LEN0, if it reads IN0. -/
def requiredLen0 : Instr → Option Nat
  | .fadd => some 32
  | .fsub => some 32
  | .fmul => some 32
  | .finv => some 32
  | .x25519Ladder => some 32
  | .x25519Shared _ => some 32
  | .x25519Public => some 32
  | .edwAdd => some 128
  | .edwDbl => some 128
  | .edwSmul => some 128
  | .edwEq => some 128
  | .edwCompress => some 128
  | .edwDecompress => some 32
  | .edwBase => none
  | .edwNeutral => none
  | .edExpand => some 32
  | .edPubkey => some 32
  | .edSign => some 32
  | .edVerify => some 32

/-- Column "IN1 (LEN1)". -/
def requiredLen1 : Instr → Option Nat
  | .fadd => some 32
  | .fsub => some 32
  | .fmul => some 32
  | .finv => none
  | .x25519Ladder => some 32
  | .x25519Shared _ => some 32
  | .x25519Public => none
  | .edwAdd => some 128
  | .edwDbl => none
  | .edwSmul => some 32
  | .edwEq => some 128
  | .edwCompress => none
  | .edwDecompress => none
  | .edwBase => none
  | .edwNeutral => none
  | .edExpand => none
  | .edPubkey => none
  | .edSign => none
  | .edVerify => some 64

/-- Column "MSG (MSG_LEN)": whether the command reads a message. -/
def takesMessage : Instr → Bool
  | .fadd => false
  | .fsub => false
  | .fmul => false
  | .finv => false
  | .x25519Ladder => false
  | .x25519Shared _ => false
  | .x25519Public => false
  | .edwAdd => false
  | .edwDbl => false
  | .edwSmul => false
  | .edwEq => false
  | .edwCompress => false
  | .edwDecompress => false
  | .edwBase => false
  | .edwNeutral => false
  | .edExpand => false
  | .edPubkey => false
  | .edSign => true
  | .edVerify => true

/-- Column "OUT": OUT_LEN after an `Ok` completion. -/
def outLength : Instr → Nat
  | .fadd => 32
  | .fsub => 32
  | .fmul => 32
  | .finv => 32
  | .x25519Ladder => 32
  | .x25519Shared _ => 32
  | .x25519Public => 32
  | .edwAdd => 128
  | .edwDbl => 128
  | .edwSmul => 128
  | .edwEq => 1
  | .edwCompress => 32
  | .edwDecompress => 128
  | .edwBase => 128
  | .edwNeutral => 128
  | .edExpand => 64
  | .edPubkey => 32
  | .edSign => 64
  | .edVerify => 1

/-- Column "RES": whether STATUS.RESULT can be 1. -/
def mayResult : Instr → Bool
  | .fadd => false
  | .fsub => false
  | .fmul => false
  | .finv => false
  | .x25519Ladder => false
  | .x25519Shared _ => false
  | .x25519Public => false
  | .edwAdd => false
  | .edwDbl => false
  | .edwSmul => false
  | .edwEq => true
  | .edwCompress => false
  | .edwDecompress => false
  | .edwBase => false
  | .edwNeutral => false
  | .edExpand => false
  | .edPubkey => false
  | .edSign => false
  | .edVerify => true

/-! ### Slots -/

/-- IN0[0 +: n] holds the bytes `bs`, every one of them written. -/
abbrev In0Holds (s : State) (n : Nat) (bs : List Byte) : Prop := s.mem.readBytes in0Base n = some bs

/-- IN1[0 +: n] holds the bytes `bs`. -/
abbrev In1Holds (s : State) (n : Nat) (bs : List Byte) : Prop := s.mem.readBytes in1Base n = some bs

/-- MSG[0 +: MSG_LEN] holds the bytes `bs`. -/
abbrev MsgHolds (s : State) (bs : List Byte) : Prop :=
  s.mem.readBytes msgBase s.msgLen.toNat = some bs

/-- The offset is a byte of IN0, IN1 or MSG. -/
abbrev IsOperandByte (a : Nat) : Prop :=
  regionOf a = .in0 ∨ regionOf a = .in1 ∨ regionOf a = .msg

/-- The offset is a byte of OUT. -/
abbrev IsOutByte (a : Nat) : Prop := outBase ≤ a ∧ a < outBase + bufBytes

/-- The length registers hold what the operand table requires (60_exceptions.md R314, R315). -/
structure LengthsPass (i : Instr) (s : State) : Prop where
  len0 : ∀ n ∈ requiredLen0 i, s.len0.toNat = n
  len1 : ∀ n ∈ requiredLen1 i, s.len1.toNat = n
  msgLen : takesMessage i = true → s.msgLen.toNat ≤ Config.msgCap

/-- Every byte of the operands the table names is written (10_state.md R60). -/
structure OperandsWritten (i : Instr) (s : State) : Prop where
  in0 : ∀ n ∈ requiredLen0 i, (s.mem.readBytes in0Base n).isSome
  in1 : ∀ n ∈ requiredLen1 i, (s.mem.readBytes in1Base n).isSome
  msg : takesMessage i = true → (s.mem.readBytes msgBase s.msgLen.toNat).isSome

/-! ### Completion (60_exceptions.md R319) -/

/-- What no completion changes: the operand buffers, the length registers, CMD, IRQ_EN, CMD_OVERRUN and
WR_BUSY; and nothing of the model's own record. -/
structure CompletionFrame (s t : State) : Prop where
  cmd : t.cmd = s.cmd
  doneIe : t.doneIe = s.doneIe
  len0 : t.len0 = s.len0
  len1 : t.len1 = s.len1
  msgLen : t.msgLen = s.msgLen
  cmdOverrun : t.status.cmdOverrun = s.status.cmdOverrun
  wrBusy : t.status.wrBusy = s.status.wrBusy
  bytes : ∀ a, ¬ IsOutByte a → t.mem.read a = s.mem.read a
  epoch : t.epoch = s.epoch
  sched : t.sched = s.sched
  host : t.host = s.host
  reads : t.reads = s.reads

/-- OUT holds `out` and then zeros, and OUT_LEN its length (10_state.md R55, R56). -/
structure OutHolds (t : State) (out : List Byte) : Prop where
  fits : out.length ≤ bufBytes
  bytes : t.mem.readBytes outBase bufBytes = some (out ++ zeros (bufBytes - out.length))
  outLen : t.outLen.toNat = out.length

/-- `t` is `s` after the completion `Ok(out, result)`. -/
structure CompletedOk (s t : State) (out : List Byte) (result : Bool) : Prop where
  busy : t.status.busy = false
  done : t.status.done = true
  err : t.status.err = false
  result : t.status.result = result
  errcode : t.status.errcode = 0#8
  errSlot : t.errSlot = 0#8
  errExpected : t.errExpected = 0#32
  errGot : t.errGot = 0#32
  errInfo : t.errInfo = 0#8
  out : OutHolds t out
  frame : CompletionFrame s t

/-- `t` is `s` after the completion `Err(code, slot, expected, got, info)`, `code` being the number that
60_exceptions.md R310 gives the error. -/
structure CompletedErr (s t : State) (code slot : Byte) (expected got : Word) (info : Byte) : Prop where
  busy : t.status.busy = false
  done : t.status.done = true
  err : t.status.err = true
  result : t.status.result = false
  errcode : t.status.errcode = code
  errSlot : t.errSlot = slot
  errExpected : t.errExpected = expected
  errGot : t.errGot = got
  errInfo : t.errInfo = info
  out : OutHolds t []
  frame : CompletionFrame s t

/-! ### What a command may depend on (60_exceptions.md R318) -/

/-- `s` and `s'` agree on the inputs of the command function: the length registers and the buffers
IN0, IN1 and MSG (what is written and what it holds). -/
structure SameInputs (s s' : State) : Prop where
  len0 : s.len0 = s'.len0
  len1 : s.len1 = s'.len1
  msgLen : s.msgLen = s'.msgLen
  bytes : ∀ a, IsOperandByte a → s.mem.read a = s'.mem.read a

/-- `t` and `t'` show the same results of a command: STATUS but for its sticky bits, the error record,
OUT and OUT_LEN. -/
structure SameResults (t t' : State) : Prop where
  busy : t.status.busy = t'.status.busy
  done : t.status.done = t'.status.done
  err : t.status.err = t'.status.err
  result : t.status.result = t'.status.result
  errcode : t.status.errcode = t'.status.errcode
  errSlot : t.errSlot = t'.errSlot
  errExpected : t.errExpected = t'.errExpected
  errGot : t.errGot = t'.errGot
  errInfo : t.errInfo = t'.errInfo
  outLen : t.outLen = t'.outLen
  out : t.mem.readBytes outBase bufBytes = t'.mem.readBytes outBase bufBytes

/-! ### Turns -/

/-- The HOST moves next, from `s'`. -/
abbrev HostMoves (s s' : State) : Prop := nextTurn s = (.host, s')

/-- The ENGINE moves next, from `s'`. -/
abbrev EngineMoves (s s' : State) : Prop := nextTurn s = (.engine, s')

/-- The reset input is asserted next, from `s'`. -/
abbrev ResetMoves (s s' : State) : Prop := nextTurn s = (.reset, s')

/-! ### Reference forms of the arithmetic

Claims compare the model's functions with these. They are written over the field `ZMod fieldPrime` and
in plain arithmetic, where the model follows the spec's pseudocode on reduced integers. -/

/-- (x, y) lies on −x² + y² = 1 + d·x²·y² (42_edwards_point.md R200). -/
abbrev OnCurve (x y : ZMod fieldPrime) : Prop :=
  y ^ 2 - x ^ 2 = 1 + (edwardsD : ZMod fieldPrime) * x ^ 2 * y ^ 2

/-- A valid extended point: on the curve, T·Z = X·Y, Z not 0 (00_scope.md R18, 42_edwards_point.md R212). -/
structure ValidPoint (P : Point) : Prop where
  nonzero : (P.Z : ZMod fieldPrime) ≠ 0
  product : (P.T : ZMod fieldPrime) * P.Z = (P.X : ZMod fieldPrime) * P.Y
  curve : (P.Y : ZMod fieldPrime) ^ 2 - (P.X : ZMod fieldPrime) ^ 2 =
    (P.Z : ZMod fieldPrime) ^ 2 + (edwardsD : ZMod fieldPrime) * (P.T : ZMod fieldPrime) ^ 2

/-- Clamping in arithmetic: keep bits [253:3], set bit 254 (41_montgomery_ladder.md R171, R187). -/
def clampValue (v : Nat) : Nat := 2 ^ 254 + 8 * (v % 2 ^ 254 / 8)

/-- The x-only step of 41_montgomery_ladder.md R176 in the field: doubles (x2 : z2) and adds it to
(x3 : z3), their difference being (x1 : 1). -/
def fieldLadderStep (x1 : ZMod fieldPrime) (x2 z2 x3 z3 : ZMod fieldPrime) :
    ZMod fieldPrime × ZMod fieldPrime × ZMod fieldPrime × ZMod fieldPrime :=
  let aa := (x2 + z2) ^ 2
  let bb := (x2 - z2) ^ 2
  let da := (x3 - z3) * (x2 + z2)
  let cb := (x3 + z3) * (x2 - z2)
  (aa * bb, (aa - bb) * (aa + 121665 * (aa - bb)), (da + cb) ^ 2, x1 * (da - cb) ^ 2)

/-- The other reading of the ladder (41_montgomery_ladder.md R178): for each bit, from 254 down, the pairs
are swapped on the bit before the step and swapped back after it. -/
def fieldLadder (k : Nat) (u : ZMod fieldPrime) : ZMod fieldPrime :=
  let r := (List.range 255).foldr (fun t (x2, z2, x3, z3) =>
      if k.testBit t then
        let (y3, w3, y2, w2) := fieldLadderStep u x3 z3 x2 z2
        (y2, w2, y3, w3)
      else fieldLadderStep u x2 z2 x3 z3) (1, 0, u, 1)
  r.1 * r.2.1 ^ (fieldPrime - 2)

/-- Double-and-add over the bits 0 to 254 as a fold (43_edwards_scalar_mult.md R250). -/
def scalarFold (P : Point) (k : Nat) : Point :=
  ((List.range 255).foldl (fun (Q, Pc) i => (if k.testBit i then edwAdd Q Pc else Q, edwDbl Pc))
    (neutralPoint, P)).1

/-! ### The invariant -/

/-- The flags and the error record are ones the core can show: while BUSY they are all cleared (R317);
ERRCODE is a code of R310 and is nonzero exactly when ERR is set (R44); an error has RESULT 0 (R41) and
leaves OUT_LEN 0 (R319), no error leaves no record (R319); DONE excludes BUSY (R39). -/
structure StatusInv (s : State) : Prop where
  busyDone : s.status.busy = true → s.status.done = false
  busyErr : s.status.busy = true → s.status.err = false
  busyResult : s.status.busy = true → s.status.result = false
  errResult : s.status.err = true → s.status.result = false
  errCode : s.status.err = true ↔ s.status.errcode ≠ 0#8
  codeRange : s.status.errcode.toNat ≤ 6
  errOut : s.status.err = true → s.outLen = 0#32
  okRecord : s.status.err = false →
    s.errSlot = 0#8 ∧ s.errExpected = 0#32 ∧ s.errGot = 0#32 ∧ s.errInfo = 0#8
  slotRange : s.errSlot.toNat ≤ 3
  infoRange : s.errInfo.toNat ≤ 4

/-- OUT_LEN is a length of the table's OUT column or 0, and OUT is zero from there on (R55, R56). -/
structure OutInv (s : State) : Prop where
  length : s.outLen.toNat ∈ [0, 1, 32, 64, 128]
  tail : ∀ a, outBase + s.outLen.toNat ≤ a → a < outBase + bufBytes → s.mem.read a = some 0#8

/-- The invariant of the machine: canonical memory that lists buffer bytes only, and registers that a
run can show. -/
structure State.Inv (s : State) : Prop where
  canonical : s.mem.wf
  inBuffers : s.mem.inBuffers
  status : StatusInv s
  out : OutInv s

end Sys2Proof.Machine
end

