-- ==== Sys2Proof/Certificates/Slice0/Obligations.lean ====
section
/-! DEFINITION. The statements for the provers, from the numbered rules of spec/. The terms they use are
in Safety.lean. An error code is written as its number (60_exceptions.md R310). A statement about a command says
where it completes and with what, and where it ends in which error; each completion carries its frame
(`CompletionFrame`). -/

open Sys2Proof Sys2Proof.Machine

/-! ### Command words -/

/-- 30_encoding.md R101 and R103: a word is a command exactly when its opcode is one of the nineteen and no
bit outside the opcode's ALLOWED mask is set. -/
def Obligations.DecodesExactlyLegalWords : Prop :=
  ∀ w : Word, (∃ i, decodeWord w = .ok i) ↔
    (w.extractLsb' 0 8).toNat ∈ [0x01, 0x02, 0x03, 0x04, 0x10, 0x11, 0x12, 0x20, 0x21, 0x22, 0x23, 0x24,
      0x25, 0x26, 0x27, 0x30, 0x31, 0x32, 0x33] ∧
    w &&& ~~~(if w.extractLsb' 0 8 = 0x11#8 then 0x000001FF#32 else 0x000000FF#32) = 0#32

/-- 30_encoding.md section 1 and 2: decoding and encoding are inverse in both directions, so that no bit of
a command word is dropped and no two commands share a word. -/
def Obligations.DecodeEncodeAgree : Prop :=
  ∀ (w : Word) (i : Instr), decodeWord w = .ok i ↔ encode i = w

/-- 30_encoding.md R103, 95_test_vectors.md V-60-1 to V-60-8: some words of each group, and words that are
illegal for each reason. -/
def Obligations.TableWordsDecode : Prop :=
  decodeWord 0x00000001#32 = .ok .fadd ∧ decodeWord 0x00000004#32 = .ok .finv ∧
  decodeWord 0x00000010#32 = .ok .x25519Ladder ∧ decodeWord 0x00000011#32 = .ok (.x25519Shared false) ∧
  decodeWord 0x00000111#32 = .ok (.x25519Shared true) ∧ decodeWord 0x00000022#32 = .ok .edwSmul ∧
  decodeWord 0x00000025#32 = .ok .edwDecompress ∧ decodeWord 0x00000033#32 = .ok .edVerify ∧
  decodeWord 0x00000000#32 = .error .reservedOpcode ∧ decodeWord 0x00000034#32 = .error .reservedOpcode ∧
  decodeWord 0x00000110#32 = .error .strictNotAllowed ∧ decodeWord 0x00000211#32 = .error .reservedBits ∧
  decodeWord 0x80000001#32 = .error .reservedBits

/-! ### The step and the command it runs -/

/-- 60_exceptions.md R318, R319: when the ENGINE moves and CMD holds a legal word, the step is `exec` of the
decoded command. The second clause is the model's choice (log entry 3): a word put in place by `withFetchWord`,
which stands for an accepted CMD write, is run by the very next step. -/
def Obligations.StepRunsDecodedCommand : Prop :=
  (∀ s s' i, EngineMoves s s' → s'.status.busy = true → decodeWord s'.cmd = .ok i →
    step s = exec i s') ∧
  (∀ s i, step (s.withFetchWord 32 (encode i).toNat) = exec i (startCommand (encode i) s))

/-- 60_exceptions.md R311: an illegal word reads nothing and completes with ILLEGAL_CMD and the word in
ERR_GOT, whatever the length registers and the buffers hold. -/
def Obligations.IllegalWordCompletesWithItsWord : Prop :=
  ∀ s s', EngineMoves s s' → s'.status.busy = true → legalWord s'.cmd = false →
    ∃ t, step s = .next t ∧ CompletedErr s' t 0x01#8 0#8 0#32 s'.cmd 0#8

/-- 60_exceptions.md R319: whenever an instruction answers a next state, that state is an `Ok` completion
with an OUT of the table's length, or an `Err` completion with a code of R310; nothing else changes. -/
def Obligations.CommandsCompleteAtomically : Prop :=
  ∀ i s t, exec i s = .next t →
    (∃ out result, out.length = outLength i ∧ (result = true → mayResult i = true) ∧
      CompletedOk s t out result) ∨
    (∃ code slot expected got info, 2 ≤ code.toNat ∧ code.toNat ≤ 6 ∧
      CompletedErr s t code slot expected got info)

/-- 60_exceptions.md R318: the outcome is a function of the length registers and the operand buffers. Two
states that agree on them end alike, be it in a result, an error or the model's fault. -/
def Obligations.OutcomeDependsOnlyOnInputs : Prop :=
  ∀ i s s', SameInputs s s' →
    (∀ t, exec i s = .next t → ∃ t', exec i s' = .next t' ∧ SameResults t t') ∧
    (∀ f, exec i s = .fault f → exec i s' = .fault f)

/-- 60_exceptions.md R324 (no refusal, no other fault): a command whose operands are all written completes,
whatever its length registers hold, and so does one whose length checks fail. -/
def Obligations.CommandsCompleteOnWrittenOperands : Prop :=
  (∀ i s, OperandsWritten i s → ∃ t, exec i s = .next t ∧ t.status.busy = false ∧ t.status.done = true) ∧
  (∀ i s, ¬ LengthsPass i s → ∃ t, exec i s = .next t ∧ t.status.err = true)

/-- 60_exceptions.md R319, R324: a command whose length checks pass and which reads an unwritten byte is the
model fault UNWRITTEN_OPERAND. Which bytes a command reads is the model's inference: all n bytes its length check
names, a point's T too where the formula does not use it (log entry 6), and all of ED_VERIFY's operands before it
decides (log entry 9). EDW_SMUL reads its scalar before its point (log entry 8), so it is stated apart. -/
def Obligations.UnwrittenOperandStopsTheCommand : Prop :=
  (∀ i s, i ≠ .edwSmul → LengthsPass i s → ¬ OperandsWritten i s →
    exec i s = .fault .unwrittenOperand) ∧
  (∀ s, LengthsPass .edwSmul s → s.mem.readBytes in1Base 32 = none →
    exec .edwSmul s = .fault .unwrittenOperand) ∧
  (∀ s B, LengthsPass .edwSmul s → In1Holds s 32 B → leNat B < 2 ^ 255 →
    s.mem.readBytes in0Base 128 = none → exec .edwSmul s = .fault .unwrittenOperand)

/-- 60_exceptions.md R325: every completion sets DONE, so `irq` is DONE_IE after it, whatever the outcome. -/
def Obligations.CompletionRaisesEnabledInterrupt : Prop :=
  ∀ i s t, exec i s = .next t → t.irq = s.doneIe

/-! ### Field commands -/

/-- 40_field_arithmetic.md R140. -/
def Obligations.FaddAddsModP : Prop := decodeWord 0x00000001#32 = .ok .fadd ∧ ∀ s : State,
  (s.len0.toNat ≠ 32 → ∃ t, exec .fadd s = .next t ∧ CompletedErr s t 0x02#8 1#8 32#32 s.len0 0#8) ∧
  (s.len0.toNat = 32 → s.len1.toNat ≠ 32 →
    ∃ t, exec .fadd s = .next t ∧ CompletedErr s t 0x02#8 2#8 32#32 s.len1 0#8) ∧
  (∀ A B, s.len0.toNat = 32 → s.len1.toNat = 32 → In0Holds s 32 A → In1Holds s 32 B →
    ∃ t out, exec .fadd s = .next t ∧ CompletedOk s t out false ∧ out.length = 32 ∧
      leNat out = (leNat A + leNat B) % (2 ^ 255 - 19))

/-- 40_field_arithmetic.md R141: OUT is the canonical value whose sum with b is a. -/
def Obligations.FsubSubtractsModP : Prop := decodeWord 0x00000002#32 = .ok .fsub ∧ ∀ s : State,
  (s.len0.toNat ≠ 32 → ∃ t, exec .fsub s = .next t ∧ CompletedErr s t 0x02#8 1#8 32#32 s.len0 0#8) ∧
  (s.len0.toNat = 32 → s.len1.toNat ≠ 32 →
    ∃ t, exec .fsub s = .next t ∧ CompletedErr s t 0x02#8 2#8 32#32 s.len1 0#8) ∧
  (∀ A B, s.len0.toNat = 32 → s.len1.toNat = 32 → In0Holds s 32 A → In1Holds s 32 B →
    ∃ t out, exec .fsub s = .next t ∧ CompletedOk s t out false ∧ out.length = 32 ∧
      leNat out < 2 ^ 255 - 19 ∧
      (leNat out + leNat B) % (2 ^ 255 - 19) = leNat A % (2 ^ 255 - 19))

/-- 40_field_arithmetic.md R142. -/
def Obligations.FmulMultipliesModP : Prop := decodeWord 0x00000003#32 = .ok .fmul ∧ ∀ s : State,
  (s.len0.toNat ≠ 32 → ∃ t, exec .fmul s = .next t ∧ CompletedErr s t 0x02#8 1#8 32#32 s.len0 0#8) ∧
  (s.len0.toNat = 32 → s.len1.toNat ≠ 32 →
    ∃ t, exec .fmul s = .next t ∧ CompletedErr s t 0x02#8 2#8 32#32 s.len1 0#8) ∧
  (∀ A B, s.len0.toNat = 32 → s.len1.toNat = 32 → In0Holds s 32 A → In1Holds s 32 B →
    ∃ t out, exec .fmul s = .next t ∧ CompletedOk s t out false ∧ out.length = 32 ∧
      leNat out = leNat A * leNat B % (2 ^ 255 - 19))

/-- 40_field_arithmetic.md R143 and R137: OUT is the canonical inverse, and 0 for an operand that is 0 mod p.
LEN1 and IN1 play no part. -/
def Obligations.FinvInvertsModP : Prop := decodeWord 0x00000004#32 = .ok .finv ∧ ∀ s : State,
  (s.len0.toNat ≠ 32 → ∃ t, exec .finv s = .next t ∧ CompletedErr s t 0x02#8 1#8 32#32 s.len0 0#8) ∧
  (∀ A, s.len0.toNat = 32 → In0Holds s 32 A →
    ∃ t out, exec .finv s = .next t ∧ CompletedOk s t out false ∧ out.length = 32 ∧
      leNat out < 2 ^ 255 - 19 ∧
      (if leNat A % (2 ^ 255 - 19) = 0 then leNat out = 0
       else leNat A * leNat out % (2 ^ 255 - 19) = 1))

/-- 40_field_arithmetic.md R145 (derived there from R133 to R137 with p prime): the laws of inversion and
distribution. -/
def Obligations.FieldInverseLaws : Prop :=
  (∀ a, fmul a (finv a) = 1 ↔ red a ≠ 0) ∧ (∀ a, finv (finv a) = red a) ∧
  (∀ a b c, fmul a (fadd b c) = fadd (fmul a b) (fmul a c)) ∧
  (∀ a b k, b ≤ fieldPrime * k → fsub a b = fadd a (fieldPrime * k - b))

/-! ### X25519 -/

/-- 41_montgomery_ladder.md R180 with R171, R172, R178: X25519_LADDER computes, for the clamped scalar and
the masked u, what the other reading of the ladder computes in the field; and so does the function `x25519` that
the statements about X25519_SHARED and X25519_PUBLIC name. -/
def Obligations.LadderComputesX25519 : Prop :=
  (∀ A B : List Byte, A.length = 32 → B.length = 32 → (x25519 A B).length = 32 ∧
    leNat (x25519 A B) =
      (fieldLadder (clampValue (leNat A)) ((leNat B % 2 ^ 255 : Nat) : ZMod fieldPrime)).val) ∧
  ∀ s : State,
  (s.len0.toNat ≠ 32 →
    ∃ t, exec .x25519Ladder s = .next t ∧ CompletedErr s t 0x02#8 1#8 32#32 s.len0 0#8) ∧
  (s.len0.toNat = 32 → s.len1.toNat ≠ 32 →
    ∃ t, exec .x25519Ladder s = .next t ∧ CompletedErr s t 0x02#8 2#8 32#32 s.len1 0#8) ∧
  (∀ A B, s.len0.toNat = 32 → s.len1.toNat = 32 → In0Holds s 32 A → In1Holds s 32 B →
    ∃ t out, exec .x25519Ladder s = .next t ∧ CompletedOk s t out false ∧ out.length = 32 ∧
      leNat out = (fieldLadder (clampValue (leNat A)) ((leNat B % 2 ^ 255 : Nat) : ZMod fieldPrime)).val)

/-- 41_montgomery_ladder.md R182, R183: X25519_SHARED gives what x25519 gives, but with STRICT an all-zero
result is ZERO_SHARED_SECRET; without STRICT it is X25519_LADDER from any state. -/
def Obligations.SharedRejectsZeroOnlyWhenStrict : Prop :=
  decodeWord 0x00000011#32 = .ok (.x25519Shared false) ∧ decodeWord 0x00000111#32 = .ok (.x25519Shared true) ∧
  (∀ s : State, exec (.x25519Shared false) s = exec .x25519Ladder s) ∧
  ∀ (s : State) (strict : Bool),
  (s.len0.toNat ≠ 32 →
    ∃ t, exec (.x25519Shared strict) s = .next t ∧ CompletedErr s t 0x02#8 1#8 32#32 s.len0 0#8) ∧
  (s.len0.toNat = 32 → s.len1.toNat ≠ 32 →
    ∃ t, exec (.x25519Shared strict) s = .next t ∧ CompletedErr s t 0x02#8 2#8 32#32 s.len1 0#8) ∧
  (∀ A B, s.len0.toNat = 32 → s.len1.toNat = 32 → In0Holds s 32 A → In1Holds s 32 B →
    ∃ t, exec (.x25519Shared strict) s = .next t ∧
      (if strict = true ∧ x25519 A B = List.replicate 32 0#8
       then CompletedErr s t 0x06#8 0#8 0#32 0#32 0#8
       else CompletedOk s t (x25519 A B) false))

/-- 41_montgomery_ladder.md R184: X25519_PUBLIC is x25519 with u = 9; IN1 and LEN1 play no part. -/
def Obligations.PublicUsesBaseNine : Prop := ∀ s : State,
  (s.len0.toNat ≠ 32 →
    ∃ t, exec .x25519Public s = .next t ∧ CompletedErr s t 0x02#8 1#8 32#32 s.len0 0#8) ∧
  (∀ A, s.len0.toNat = 32 → In0Holds s 32 A →
    ∃ t, exec .x25519Public s = .next t ∧
      CompletedOk s t (x25519 A (9#8 :: List.replicate 31 0#8)) false)

/-- 41_montgomery_ladder.md R180, R182 corner cases: a u that is 0 mod p after masking gives 32 zero bytes
for every scalar, and ZERO_SHARED_SECRET with STRICT. -/
def Obligations.ZeroUGivesZeroSecret : Prop := ∀ (s : State) (A B : List Byte),
  s.len0.toNat = 32 → s.len1.toNat = 32 → In0Holds s 32 A → In1Holds s 32 B →
  leNat B % 2 ^ 255 % (2 ^ 255 - 19) = 0 →
  (∃ t, exec .x25519Ladder s = .next t ∧ CompletedOk s t (List.replicate 32 0#8) false) ∧
  (∃ t, exec (.x25519Shared true) s = .next t ∧ CompletedErr s t 0x06#8 0#8 0#32 0#32 0#8)

/-- 41_montgomery_ladder.md R187 (derived there from R171): clamping is bitwise, so a non-canonical scalar and
its reduction mod p clamp to different integers. -/
def Obligations.ClampingIsNotModular : Prop := ∀ b : List Byte,
  b.length = 32 → 2 ^ 255 - 19 ≤ leNat b →
  decodeScalar b ≠ decodeScalar (le32 (leNat b % (2 ^ 255 - 19)))

/-- 41_montgomery_ladder.md R185 (derived there from R172, R173): the u-coordinate codec round trips. -/
def Obligations.UCoordinateRoundTrip : Prop :=
  (∀ b : List Byte, b.length = 32 → leNat b < 2 ^ 255 - 19 → encodeU (decodeU b) = b) ∧
  (∀ x, x < 2 ^ 255 - 19 → decodeU (encodeU x) = x)

/-- 41_montgomery_ladder.md R175: the branchless masked swap of 256-bit values gives the value of cswap. -/
def Obligations.MaskedSwapIsCswap : Prop := ∀ (bit : Bool) (a b : BitVec 256),
  let mask : BitVec 256 := if bit then BitVec.allOnes 256 else 0#256
  let t := mask &&& (a ^^^ b)
  cswap bit a.toNat b.toNat = ((a ^^^ t).toNat, (b ^^^ t).toNat) ∧
    cswap bit a.toNat b.toNat = (if bit then (b.toNat, a.toNat) else (a.toNat, b.toNat))

/-! ### Edwards points -/

/-- 42_edwards_point.md R220 and R205: EDW_ADD gives the four canonical coordinates of the unified formula,
for any operands. -/
def Obligations.EdwAddGivesUnifiedSum : Prop := decodeWord 0x00000020#32 = .ok .edwAdd ∧ ∀ s : State,
  (s.len0.toNat ≠ 128 → ∃ t, exec .edwAdd s = .next t ∧ CompletedErr s t 0x02#8 1#8 128#32 s.len0 0#8) ∧
  (s.len0.toNat = 128 → s.len1.toNat ≠ 128 →
    ∃ t, exec .edwAdd s = .next t ∧ CompletedErr s t 0x02#8 2#8 128#32 s.len1 0#8) ∧
  (∀ x1 y1 z1 t1 x2 y2 z2 t2 : Nat,
    x1 < 2 ^ 256 → y1 < 2 ^ 256 → z1 < 2 ^ 256 → t1 < 2 ^ 256 →
    x2 < 2 ^ 256 → y2 < 2 ^ 256 → z2 < 2 ^ 256 → t2 < 2 ^ 256 →
    s.len0.toNat = 128 → s.len1.toNat = 128 →
    In0Holds s 128 (le32 x1 ++ le32 y1 ++ le32 z1 ++ le32 t1) →
    In1Holds s 128 (le32 x2 ++ le32 y2 ++ le32 z2 ++ le32 t2) →
    ∃ t X Y Z T, exec .edwAdd s = .next t ∧
      CompletedOk s t (le32 X ++ le32 Y ++ le32 Z ++ le32 T) false ∧
      X < fieldPrime ∧ Y < fieldPrime ∧ Z < fieldPrime ∧ T < fieldPrime ∧
      (let a : ZMod fieldPrime := ((y1 : ZMod fieldPrime) - x1) * (y2 - x2)
       let b : ZMod fieldPrime := ((y1 : ZMod fieldPrime) + x1) * (y2 + x2)
       let c : ZMod fieldPrime := (t1 : ZMod fieldPrime) * (2 * edwardsD) * t2
       let d : ZMod fieldPrime := (z1 : ZMod fieldPrime) * 2 * z2
       (X : ZMod fieldPrime) = (b - a) * (d - c) ∧ (Y : ZMod fieldPrime) = (d + c) * (b + a) ∧
       (Z : ZMod fieldPrime) = (d - c) * (d + c) ∧ (T : ZMod fieldPrime) = (b - a) * (b + a)))

/-- 42_edwards_point.md R221 and R206: EDW_DBL gives the four canonical coordinates of the doubling formula;
T of the operand plays no part in their values. -/
def Obligations.EdwDblGivesDouble : Prop := decodeWord 0x00000021#32 = .ok .edwDbl ∧ ∀ s : State,
  (s.len0.toNat ≠ 128 → ∃ t, exec .edwDbl s = .next t ∧ CompletedErr s t 0x02#8 1#8 128#32 s.len0 0#8) ∧
  (∀ x1 y1 z1 t1 : Nat, x1 < 2 ^ 256 → y1 < 2 ^ 256 → z1 < 2 ^ 256 → t1 < 2 ^ 256 →
    s.len0.toNat = 128 → In0Holds s 128 (le32 x1 ++ le32 y1 ++ le32 z1 ++ le32 t1) →
    ∃ t X Y Z T, exec .edwDbl s = .next t ∧
      CompletedOk s t (le32 X ++ le32 Y ++ le32 Z ++ le32 T) false ∧
      X < fieldPrime ∧ Y < fieldPrime ∧ Z < fieldPrime ∧ T < fieldPrime ∧
      (let a : ZMod fieldPrime := (x1 : ZMod fieldPrime) ^ 2
       let b : ZMod fieldPrime := (y1 : ZMod fieldPrime) ^ 2
       let e : ZMod fieldPrime := a + b - ((x1 : ZMod fieldPrime) + y1) ^ 2
       let f : ZMod fieldPrime := 2 * (z1 : ZMod fieldPrime) ^ 2 + (a - b)
       (X : ZMod fieldPrime) = e * f ∧ (Y : ZMod fieldPrime) = (a - b) * (a + b) ∧
       (Z : ZMod fieldPrime) = f * (a - b) ∧ (T : ZMod fieldPrime) = e * (a + b)))

/-- 42_edwards_point.md R222 and R210: EDW_EQ answers in OUT and in RESULT whether the cross products agree. -/
def Obligations.EdwEqComparesAffinePoints : Prop := decodeWord 0x00000023#32 = .ok .edwEq ∧ ∀ s : State,
  (s.len0.toNat ≠ 128 → ∃ t, exec .edwEq s = .next t ∧ CompletedErr s t 0x02#8 1#8 128#32 s.len0 0#8) ∧
  (s.len0.toNat = 128 → s.len1.toNat ≠ 128 →
    ∃ t, exec .edwEq s = .next t ∧ CompletedErr s t 0x02#8 2#8 128#32 s.len1 0#8) ∧
  (∀ x1 y1 z1 t1 x2 y2 z2 t2 : Nat,
    x1 < 2 ^ 256 → y1 < 2 ^ 256 → z1 < 2 ^ 256 → t1 < 2 ^ 256 →
    x2 < 2 ^ 256 → y2 < 2 ^ 256 → z2 < 2 ^ 256 → t2 < 2 ^ 256 →
    s.len0.toNat = 128 → s.len1.toNat = 128 →
    In0Holds s 128 (le32 x1 ++ le32 y1 ++ le32 z1 ++ le32 t1) →
    In1Holds s 128 (le32 x2 ++ le32 y2 ++ le32 z2 ++ le32 t2) →
    ∃ t, exec .edwEq s = .next t ∧
      (if x1 * z2 % (2 ^ 255 - 19) = x2 * z1 % (2 ^ 255 - 19) ∧
          y1 * z2 % (2 ^ 255 - 19) = y2 * z1 % (2 ^ 255 - 19)
       then CompletedOk s t [0x01#8] true else CompletedOk s t [0x00#8] false))

/-- 42_edwards_point.md R223 and R209: EDW_COMPRESS gives the affine y with the low bit of the affine x in bit
255, and zeros for Z ≡ 0; T of the operand plays no part in the value. -/
def Obligations.EdwCompressPacksAffinePoint : Prop := decodeWord 0x00000024#32 = .ok .edwCompress ∧ ∀ s : State,
  (s.len0.toNat ≠ 128 →
    ∃ t, exec .edwCompress s = .next t ∧ CompletedErr s t 0x02#8 1#8 128#32 s.len0 0#8) ∧
  (∀ x1 y1 z1 t1 : Nat, x1 < 2 ^ 256 → y1 < 2 ^ 256 → z1 < 2 ^ 256 → t1 < 2 ^ 256 →
    s.len0.toNat = 128 → In0Holds s 128 (le32 x1 ++ le32 y1 ++ le32 z1 ++ le32 t1) →
    ∃ t out, exec .edwCompress s = .next t ∧ CompletedOk s t out false ∧ out.length = 32 ∧
      (if z1 % (2 ^ 255 - 19) = 0 then leNat out = 0
       else ∃ x y, x < 2 ^ 255 - 19 ∧ y < 2 ^ 255 - 19 ∧
        x * z1 % (2 ^ 255 - 19) = x1 % (2 ^ 255 - 19) ∧ y * z1 % (2 ^ 255 - 19) = y1 % (2 ^ 255 - 19) ∧
        leNat out = y + 2 ^ 255 * (x % 2)))

/-- 42_edwards_point.md R207, R208, R224 and 60_exceptions.md R313 read over the curve (that the candidate root is
a root whenever there is one is an inference, R207 gives the steps): EDW_DECOMPRESS finds the point of the curve with
that y and that sign exactly when there is one, and otherwise reports the reason. -/
def Obligations.DecompressFindsTheCurvePoint : Prop := ∀ s : State,
  (s.len0.toNat ≠ 32 →
    ∃ t, exec .edwDecompress s = .next t ∧ CompletedErr s t 0x05#8 1#8 32#32 s.len0 1#8) ∧
  (∀ A, s.len0.toNat = 32 → In0Holds s 32 A →
    let y : Nat := leNat A % 2 ^ 255
    let sign : Nat := leNat A / 2 ^ 255
    (2 ^ 255 - 19 ≤ y →
      ∃ t, exec .edwDecompress s = .next t ∧ CompletedErr s t 0x05#8 1#8 0#32 0#32 2#8) ∧
    (y < 2 ^ 255 - 19 →
      (∀ x : Nat, x < 2 ^ 255 - 19 → x % 2 = sign → OnCurve (x : ZMod fieldPrime) (y : ZMod fieldPrime) →
        ∃ t, exec .edwDecompress s = .next t ∧
          CompletedOk s t (le32 x ++ le32 y ++ le32 1 ++ le32 (x * y % (2 ^ 255 - 19))) false) ∧
      ((∀ x : ZMod fieldPrime, ¬ OnCurve x (y : ZMod fieldPrime)) →
        ∃ t, exec .edwDecompress s = .next t ∧ CompletedErr s t 0x05#8 1#8 0#32 0#32 3#8) ∧
      (OnCurve 0 (y : ZMod fieldPrime) → sign = 1 →
        ∃ t, exec .edwDecompress s = .next t ∧ CompletedErr s t 0x05#8 1#8 0#32 0#32 4#8)))

/-- 42_edwards_point.md R225 and R204: EDW_BASE gives the one point of the curve with y = 4/5 and x even, with
Z = 1, from any state. -/
def Obligations.EdwBaseGivesTheGenerator : Prop := decodeWord 0x00000026#32 = .ok .edwBase ∧ ∀ s : State,
  ∃ t x y, exec .edwBase s = .next t ∧
    CompletedOk s t (le32 x ++ le32 y ++ le32 1 ++ le32 (x * y % (2 ^ 255 - 19))) false ∧
    x < 2 ^ 255 - 19 ∧ y < 2 ^ 255 - 19 ∧ 5 * y % (2 ^ 255 - 19) = 4 ∧ x % 2 = 0 ∧
    OnCurve (x : ZMod fieldPrime) (y : ZMod fieldPrime)

/-- 42_edwards_point.md R226: EDW_NEUTRAL gives (0, 1, 1, 0) from any state. -/
def Obligations.EdwNeutralGivesNeutral : Prop := decodeWord 0x00000027#32 = .ok .edwNeutral ∧ ∀ s : State,
  ∃ t, exec .edwNeutral s = .next t ∧
    CompletedOk s t (le32 0 ++ le32 1 ++ le32 1 ++ le32 0) false

/-- 42_edwards_point.md R205, R206, R212 (derived there): on valid points the doubling formula and the unified
addition give valid points, and the same one. -/
def Obligations.DoublingAgreesWithAddition : Prop := ∀ P : Point, ValidPoint P →
  ValidPoint (edwDbl P) ∧ ValidPoint (edwAdd P P) ∧
  edwEq (edwDbl P) (edwAdd P P) = true ∧ edwEq (edwAdd P P) (edwDbl P) = true

/-- 42_edwards_point.md R205, R212 (derived there): addition is symmetric coordinate for coordinate, and
adding the neutral point scales the coordinates by 4Z, for any tuples. -/
def Obligations.AdditionSymmetricWithNeutral : Prop :=
  (∀ P Q : Point, edwAdd P Q = edwAdd Q P) ∧
  (∀ P : Point, edwAdd P neutralPoint =
    ⟨4 * P.X * P.Z % fieldPrime, 4 * P.Y * P.Z % fieldPrime, 4 * P.Z * P.Z % fieldPrime,
      4 * P.X * P.Y % fieldPrime⟩)

/-- 42_edwards_point.md R212 (derived there): every 32-byte string that decompresses is the compression of
what it decompresses to, and equal points with Z not 0 compress alike. -/
def Obligations.CompressInvertsDecompress : Prop :=
  (∀ (b : List Byte) (P : Point), b.length = 32 → decompress b = .ok P → compress P = b) ∧
  (∀ P Q : Point, P.Z % fieldPrime ≠ 0 → Q.Z % fieldPrime ≠ 0 → edwEq P Q = true →
    compress P = compress Q)

/-! ### Scalar multiplication -/

/-- 43_edwards_scalar_mult.md R252 and R250: a scalar with bit 255 set is SCALAR_RANGE whatever IN0 holds;
every other scalar gives the coordinates of the fixed 255-step loop. -/
def Obligations.EdwSmulRunsTheFixedLoop : Prop := ∀ s : State,
  (s.len0.toNat ≠ 128 → ∃ t, exec .edwSmul s = .next t ∧ CompletedErr s t 0x02#8 1#8 128#32 s.len0 0#8) ∧
  (s.len0.toNat = 128 → s.len1.toNat ≠ 32 →
    ∃ t, exec .edwSmul s = .next t ∧ CompletedErr s t 0x02#8 2#8 32#32 s.len1 0#8) ∧
  (∀ B, s.len0.toNat = 128 → s.len1.toNat = 32 → In1Holds s 32 B →
    (2 ^ 255 ≤ leNat B →
      ∃ t, exec .edwSmul s = .next t ∧ CompletedErr s t 0x04#8 2#8 0#32 0#32 0#8) ∧
    (leNat B < 2 ^ 255 → ∀ A, In0Holds s 128 A →
      ∃ t, exec .edwSmul s = .next t ∧
        CompletedOk s t (ptBytes (scalarFold (ptRead A) (leNat B))) false))

/-- 43_edwards_scalar_mult.md R252 corner cases: s = 0 gives exactly N, s = 1 gives (4XZ, 4YZ, 4Z², 4XY), for any
tuple P. -/
def Obligations.SmallScalarsGiveKnownTuples : Prop := ∀ P : Point,
  edwSmul P 0 = neutralPoint ∧
  edwSmul P 1 = ⟨4 * P.X * P.Z % fieldPrime, 4 * P.Y * P.Z % fieldPrime, 4 * P.Z * P.Z % fieldPrime,
    4 * P.X * P.Y % fieldPrime⟩

/-! ### Ed25519 -/

/-- 44_ed25519_protocol.md R280 and R272: ED_EXPAND gives the clamped first half of the digest and its second
half as it is. -/
def Obligations.EdExpandClampsTheDigest : Prop := ∀ s : State,
  (s.len0.toNat ≠ 32 → ∃ t, exec .edExpand s = .next t ∧ CompletedErr s t 0x02#8 1#8 32#32 s.len0 0#8) ∧
  (∀ A, s.len0.toNat = 32 → In0Holds s 32 A →
    ∃ t, exec .edExpand s = .next t ∧
      CompletedOk s t (le32 (clampValue (leNat ((Config.hash512 A).toList.take 32))) ++
        (Config.hash512 A).toList.drop 32) false)

/-- 44_ed25519_protocol.md R281 and R273: ED_PUBKEY compresses a · G for the clamped first half of the digest. -/
def Obligations.EdPubkeyCompressesScalarTimesBase : Prop := ∀ s : State,
  (s.len0.toNat ≠ 32 → ∃ t, exec .edPubkey s = .next t ∧ CompletedErr s t 0x02#8 1#8 32#32 s.len0 0#8) ∧
  (∀ A, s.len0.toNat = 32 → In0Holds s 32 A →
    ∃ t, exec .edPubkey s = .next t ∧
      CompletedOk s t (compress (scalarFold basePoint
        (clampValue (leNat ((Config.hash512 A).toList.take 32))))) false)

/-- 44_ed25519_protocol.md R282 and R274: ED_SIGN gives R ‖ t with t = (r + k · s) mod q, the key's length being
checked before the message's. -/
def Obligations.EdSignFollowsTheScheme : Prop := ∀ s : State,
  (s.len0.toNat ≠ 32 → ∃ t, exec .edSign s = .next t ∧ CompletedErr s t 0x02#8 1#8 32#32 s.len0 0#8) ∧
  (s.len0.toNat = 32 → 4096 < s.msgLen.toNat →
    ∃ t, exec .edSign s = .next t ∧ CompletedErr s t 0x03#8 3#8 4096#32 s.msgLen 0#8) ∧
  (∀ A M, s.len0.toNat = 32 → s.msgLen.toNat ≤ 4096 → In0Holds s 32 A → MsgHolds s M →
    let digest := (Config.hash512 A).toList
    let a := clampValue (leNat (digest.take 32))
    let r := leNat (Config.hash512 (digest.drop 32 ++ M)).toList % (2 ^ 252 + 27742317777372353535851937790883648493)
    let R := compress (scalarFold basePoint r)
    let k := leNat (Config.hash512 (R ++ compress (scalarFold basePoint a) ++ M)).toList % (2 ^ 252 + 27742317777372353535851937790883648493)
    ∃ t out, exec .edSign s = .next t ∧ CompletedOk s t out false ∧ out.length = 64 ∧
      out.take 32 = R ∧ leNat (out.drop 32) = (r + k * a) % (2 ^ 252 + 27742317777372353535851937790883648493) ∧ leNat (out.drop 32) < (2 ^ 252 + 27742317777372353535851937790883648493))

/-- 44_ed25519_protocol.md R283 and R275: ED_VERIFY checks lengths, then answers 1 exactly when key and R
decompress, t < q and t·G = R + k·A; a signature that does not verify is no error. -/
def Obligations.EdVerifyNeverErrsOnWellFormedInput : Prop := ∀ s : State,
  (s.len0.toNat ≠ 32 → ∃ t, exec .edVerify s = .next t ∧ CompletedErr s t 0x02#8 1#8 32#32 s.len0 0#8) ∧
  (s.len0.toNat = 32 → s.len1.toNat ≠ 64 →
    ∃ t, exec .edVerify s = .next t ∧ CompletedErr s t 0x02#8 2#8 64#32 s.len1 0#8) ∧
  (s.len0.toNat = 32 → s.len1.toNat = 64 → 4096 < s.msgLen.toNat →
    ∃ t, exec .edVerify s = .next t ∧ CompletedErr s t 0x03#8 3#8 4096#32 s.msgLen 0#8) ∧
  (∀ A B M, s.len0.toNat = 32 → s.len1.toNat = 64 → s.msgLen.toNat ≤ 4096 →
    In0Holds s 32 A → In1Holds s 64 B → MsgHolds s M →
    ∃ t v, exec .edVerify s = .next t ∧
      CompletedOk s t [if v then 0x01#8 else 0x00#8] v ∧
      (v = true ↔ ∃ Ap Rp, decompress A = .ok Ap ∧ decompress (B.take 32) = .ok Rp ∧
        leNat (B.drop 32) < (2 ^ 252 + 27742317777372353535851937790883648493) ∧
        edwEq (scalarFold basePoint (leNat (B.drop 32)))
          (edwAdd Rp (scalarFold Ap
            (leNat (Config.hash512 (B.take 32 ++ A ++ M)).toList % (2 ^ 252 + 27742317777372353535851937790883648493)))) = true))

/-! ### The host's accesses -/

/-- 60_exceptions.md R317: a write of w to CMD while IDLE starts a command, legal or not, in one step; while BUSY it
starts nothing. -/
def Obligations.CmdWriteStartsCommand : Prop := ∀ s s' w rest,
  HostMoves s s' → s'.host = .write 0x004 .w32 w :: rest →
  (s'.status.busy = false → ∃ t, step s = .next t ∧ t.cmd = w ∧
    t.status = ⟨true, false, false, false, s'.status.cmdOverrun, s'.status.wrBusy, 0x00#8⟩ ∧
    t.errSlot = 0#8 ∧ t.errExpected = 0#32 ∧ t.errGot = 0#32 ∧ t.errInfo = 0#8 ∧
    t.doneIe = s'.doneIe ∧ t.outLen = s'.outLen ∧ t.mem = s'.mem ∧ t.irq = false ∧
    t.len0 = s'.len0 ∧ t.len1 = s'.len1 ∧ t.msgLen = s'.msgLen ∧ t.epoch = s'.epoch ∧
    t.sched = s'.sched ∧ t.host = rest ∧ t.reads = s'.reads) ∧
  (s'.status.busy = true →
    step s = .next { s' with host := rest, status := { s'.status with cmdOverrun := true } })

/-- 70_reset_and_hazards.md R360: while BUSY a write to CMD, to a length register or to any byte of IN0, IN1 or MSG
is dropped, sets its sticky flag and changes nothing else; it is no bus error. -/
def Obligations.WritesWhileBusyAreDropped : Prop := ∀ s s' off n v rest,
  HostMoves s s' → s'.host = .write off n v :: rest → s'.status.busy = true →
  (off = 0x004 → n = .w32 →
    step s = .next { s' with host := rest, status := { s'.status with cmdOverrun := true } }) ∧
  (off ∈ [0x020, 0x024, 0x028] → n = .w32 →
    step s = .next { s' with host := rest, status := { s'.status with wrBusy := true } }) ∧
  (IsOperandByte off → off % n.bytes = 0 →
    step s = .next { s' with host := rest, status := { s'.status with wrBusy := true } })

/-- 10_state.md R37, R34: a write to STATUS clears exactly the W1C bits written as 1, BUSY or not, and
changes nothing else. -/
def Obligations.StatusWriteActsOnW1CBitsOnly : Prop := ∀ s s' v rest,
  HostMoves s s' → s'.host = .write 0x008 .w32 v :: rest →
  ∃ t, step s = .next t ∧
    t = { s' with host := rest, status := t.status } ∧
    t.status.done = (s'.status.done && !v.getLsbD 1) ∧
    t.status.cmdOverrun = (s'.status.cmdOverrun && !v.getLsbD 4) ∧
    t.status.wrBusy = (s'.status.wrBusy && !v.getLsbD 5) ∧
    t.status.busy = s'.status.busy ∧ t.status.err = s'.status.err ∧
    t.status.result = s'.status.result ∧ t.status.errcode = s'.status.errcode

/-- 10_state.md R45, R59: IRQ_EN holds bit 0 alone, is written BUSY or not, reads back with its reserved
bits 0, enables `irq`, and takes 32-bit accesses only. -/
def Obligations.IrqEnHoldsDoneIeAlone : Prop := ∀ s s' rest,
  HostMoves s s' →
  (∀ v, s'.host = .write 0x00C .w32 v :: rest →
    ∃ t, step s = .next t ∧ t = { s' with host := rest, doneIe := v.getLsbD 0 } ∧
      busRead t 0x00C .w32 = some (v &&& 1#32) ∧ t.irq = (s'.status.done && v.getLsbD 0)) ∧
  (∀ off n v, 0x00C ≤ off → off < 0x010 → n ≠ .w32 →
    (s'.host = .write off n v :: rest → step s = .fault (.busError off n.bytes)) ∧
    (s'.host = .read off n :: rest → step s = .fault (.busError off n.bytes)))

/-- 20_memory.md R75: a write to a read-only location changes nothing and is no bus error: the read-only
registers, OUT in every width, the RO and reserved bits of STATUS and the reserved bits of IRQ_EN. -/
def Obligations.ReadOnlyWritesAreIgnored : Prop := ∀ s s' off n v rest,
  HostMoves s s' → s'.host = .write off n v :: rest →
  (off ∈ [0x000, 0x010, 0x014, 0x018, 0x01C, 0x02C, 0x030] → n = .w32 →
    step s = .next { s' with host := rest }) ∧
  (IsOutByte off → off % n.bytes = 0 → step s = .next { s' with host := rest }) ∧
  (off = 0x008 → n = .w32 → ∃ t, step s = .next t ∧ t = { s' with host := rest, status := t.status } ∧
    t.status.busy = s'.status.busy ∧ t.status.err = s'.status.err ∧ t.status.result = s'.status.result ∧
    t.status.errcode = s'.status.errcode) ∧
  (off = 0x00C → n = .w32 → step s = .next { s' with host := rest, doneIe := v.getLsbD 0 })

/-- 10_state.md R51: while IDLE each length register stores any 32-bit value, which is read back unchanged,
and nothing else changes. -/
def Obligations.LengthRegistersReadBack : Prop := ∀ s s' off v rest,
  HostMoves s s' → s'.status.busy = false → s'.host = .write off .w32 v :: rest →
  (off = 0x020 → step s = .next { s' with host := rest, len0 := v }) ∧
  (off = 0x024 → step s = .next { s' with host := rest, len1 := v }) ∧
  (off = 0x028 → step s = .next { s' with host := rest, msgLen := v }) ∧
  (off ∈ [0x020, 0x024, 0x028] → ∃ t, step s = .next t ∧ busRead t off .w32 = some v)

/-- 20_memory.md R72, R77: while IDLE an aligned write of n bytes to IN0, IN1 or MSG stores byte i of the value
at off + i, marks it written, and leaves every other byte and everything else alone. -/
def Obligations.BufferWriteStoresItsBytes : Prop := ∀ s s' off n v rest,
  HostMoves s s' → s'.host = .write off n v :: rest → s'.status.busy = false →
  IsOperandByte off → off % n.bytes = 0 →
  ∃ t, step s = .next t ∧ t = { s' with host := rest, mem := t.mem } ∧
    (∀ i, i < n.bytes → t.mem.read (off + i) = some (v.extractLsb' (8 * i) 8)) ∧
    (∀ a, ¬ (off ≤ a ∧ a < off + n.bytes) → t.mem.read a = s'.mem.read a)

/-- 20_memory.md R71, R77: a host's byte read of a written byte of IN0, IN1 or MSG, or of a byte of OUT, returns
the byte that memory holds and changes no state of the core; a 32-bit or 16-bit read of a buffer is made of its
byte reads (derived there). -/
def Obligations.WideReadsAgreeWithByteReads : Prop :=
  (∀ s s' off rest b, HostMoves s s' → s'.host = .read off .w8 :: rest →
    (IsOperandByte off ∨ IsOutByte off) → s'.mem.read off = some b →
    step s = .next { s' with host := rest, reads := b.setWidth 32 :: s'.reads }) ∧
  ∀ (s : State) (off : Nat), (IsOperandByte off ∨ IsOutByte off) →
  (off % 4 = 0 → ∃ b0 b1 b2 b3, busRead s off .w8 = some b0 ∧ busRead s (off + 1) .w8 = some b1 ∧
    busRead s (off + 2) .w8 = some b2 ∧ busRead s (off + 3) .w8 = some b3 ∧
    busRead s off .w32 = some (b0 ||| b1 <<< 8 ||| b2 <<< 16 ||| b3 <<< 24)) ∧
  (off % 2 = 0 → ∃ b0 b1, busRead s off .w8 = some b0 ∧ busRead s (off + 1) .w8 = some b1 ∧
    busRead s off .w16 = some (b0 ||| b1 <<< 8))

/-- 10_state.md R33 to R37, R45 to R51, R56: what a 32-bit host read of each register returns, with reserved bits
0; the read changes no state of the core (20_memory.md R71). -/
def Obligations.RegisterReadsFollowTheMap : Prop := ∀ s s' off rest,
  HostMoves s s' → s'.host = .read off .w32 :: rest →
  (∀ w, (off, w) ∈ [(0x000, 0x25519001#32), (0x004, s'.cmd), (0x010, s'.errSlot.setWidth 32),
      (0x014, s'.errExpected), (0x018, s'.errGot), (0x01C, s'.errInfo.setWidth 32), (0x020, s'.len0),
      (0x024, s'.len1), (0x028, s'.msgLen), (0x02C, s'.outLen), (0x030, 0x00001000#32)] →
    step s = .next { s' with host := rest, reads := w :: s'.reads }) ∧
  (off = 0x008 → ∃ w : Word, step s = .next { s' with host := rest, reads := w :: s'.reads } ∧
    w.getLsbD 0 = s'.status.busy ∧ w.getLsbD 1 = s'.status.done ∧ w.getLsbD 2 = s'.status.err ∧
    w.getLsbD 3 = s'.status.result ∧ w.getLsbD 4 = s'.status.cmdOverrun ∧
    w.getLsbD 5 = s'.status.wrBusy ∧ w.extractLsb' 6 2 = 0#2 ∧
    w.extractLsb' 8 8 = s'.status.errcode ∧ w.extractLsb' 16 16 = 0#16) ∧
  (off = 0x00C → ∃ w : Word, step s = .next { s' with host := rest, reads := w :: s'.reads } ∧
    w.getLsbD 0 = s'.doneIe ∧ w.extractLsb' 1 31 = 0#31)

/-- 20_memory.md R73, R74, R76: an access, read or write, ends in a bus error exactly when it is misaligned, a
sub-word access to a register, or touches a reserved offset or one outside the window. -/
def Obligations.BusErrorExactlyOffTheMap : Prop := ∀ s s' off n v rest,
  HostMoves s s' →
  (s'.host = .read off n :: rest ∨ s'.host = .write off n v :: rest) →
  (step s = .fault (.busError off n.bytes) ↔
    ¬ (off % n.bytes = 0 ∧
      ((off < 0x034 ∧ n = .w32) ∨ (0x100 ≤ off ∧ off + n.bytes ≤ 0x280) ∨
        (0x1000 ≤ off ∧ off + n.bytes ≤ 0x2000))))

/-- 70_reset_and_hazards.md R352: a host read of a byte of IN0, IN1 or MSG not written since reset is no fault; it
returns the byte's unspecified value (a free value, log entry 5), which holds for every such value. -/
def Obligations.UnwrittenByteReadIsNoFault : Prop := ∀ s s' off rest,
  HostMoves s s' → s'.host = .read off .w8 :: rest → IsOperandByte off → s'.mem.read off = none →
  step s = .next { s' with
    host := rest
    reads := (Config.unspecifiedByte s'.epoch off).setWidth 32 :: s'.reads }

/-- 30_encoding.md R110: POLL reads STATUS and goes on exactly when BUSY was 0 (that a POLL is one operation of
the HOST is the model's choice, log entry 2). -/
def Obligations.PollRepeatsUntilIdle : Prop := ∀ s s' rest,
  HostMoves s s' → s'.host = .poll :: rest →
  ∃ t w, step s = .next t ∧ busRead s' 0x008 .w32 = some w ∧ t.reads = w :: s'.reads ∧
    (w.getLsbD 0 = true → t.host = s'.host) ∧ (w.getLsbD 0 = false → t.host = rest) ∧
    t = { s' with host := t.host, reads := t.reads }

/-! ### The whole machine -/

/-- 10_state.md R38: BUSY is set by an accepted CMD write and by nothing else, and cleared by a completion and by
reset and by nothing else. -/
def Obligations.BusyChangesOnlyByStartCompletionReset : Prop := ∀ s s' t, step s = .next t →
  (HostMoves s s' → (t.status.busy = true ↔
    s.status.busy = true ∨ ∃ w rest, s'.host = .write 0x004 .w32 w :: rest)) ∧
  (EngineMoves s s' → t.status.busy = false) ∧
  (ResetMoves s s' → t.status.busy = false)

/-- 10_state.md R39: DONE is cleared by a command's start, a W1C write of bit 1 and reset, set by a completion, and
changed by nothing else; with the invariant, DONE excludes BUSY. -/
def Obligations.DoneFollowsItsEvents : Prop := ∀ s s' t, step s = .next t →
  (HostMoves s s' → (t.status.done = true ↔ s.status.done = true ∧
    (∀ w rest, s'.host = .write 0x004 .w32 w :: rest → s.status.busy = true) ∧
    (∀ w rest, s'.host = .write 0x008 .w32 w :: rest → w.getLsbD 1 = false))) ∧
  (EngineMoves s s' → t.status.done = (s.status.busy || s.status.done)) ∧
  (ResetMoves s s' → t.status.done = false) ∧
  (s.Inv → t.status.done = true → t.status.busy = false)

/-- 10_state.md R42: CMD_OVERRUN is set by a CMD write dropped while BUSY and cleared only by a W1C write of bit
4 and by reset. -/
def Obligations.OverrunFlagIsSticky : Prop := ∀ s s' t, step s = .next t →
  (HostMoves s s' → (t.status.cmdOverrun = true ↔
    (s.status.busy = true ∧ ∃ w rest, s'.host = .write 0x004 .w32 w :: rest) ∨
    (s.status.cmdOverrun = true ∧
      ∀ w rest, s'.host = .write 0x008 .w32 w :: rest → w.getLsbD 4 = false))) ∧
  (EngineMoves s s' → t.status.cmdOverrun = s.status.cmdOverrun) ∧
  (ResetMoves s s' → t.status.cmdOverrun = false)

/-- 10_state.md R43: WR_BUSY is set by an operand or length write dropped while BUSY and cleared only by a W1C
write of bit 5 and by reset. -/
def Obligations.WriteBusyFlagIsSticky : Prop := ∀ s s' t, step s = .next t →
  (HostMoves s s' → (t.status.wrBusy = true ↔
    (s.status.busy = true ∧ ∃ off n v rest, s'.host = .write off n v :: rest ∧
      (off ∈ [0x020, 0x024, 0x028] ∨ IsOperandByte off)) ∨
    (s.status.wrBusy = true ∧
      ∀ w rest, s'.host = .write 0x008 .w32 w :: rest → w.getLsbD 5 = false))) ∧
  (EngineMoves s s' → t.status.wrBusy = s.status.wrBusy) ∧
  (ResetMoves s s' → t.status.wrBusy = false)

/-- 10_state.md R55, R56: no host access changes OUT or OUT_LEN. -/
def Obligations.HostNeverChangesOut : Prop := ∀ s s' t, HostMoves s s' → step s = .next t →
  t.outLen = s.outLen ∧ ∀ a, IsOutByte a → t.mem.read a = s.mem.read a

/-- 20_memory.md R85, 70_reset_and_hazards.md R360, R364: but for reset, no step from a BUSY state changes the running
command's word, its length registers or its operand bytes, and neither does the step that completes it. -/
def Obligations.OperandsAreFrozenWhileBusy : Prop := ∀ s t, (nextTurn s).1 ≠ .reset →
  s.status.busy = true → step s = .next t →
  t.cmd = s.cmd ∧ t.len0 = s.len0 ∧ t.len1 = s.len1 ∧ t.msgLen = s.msgLen ∧
    ∀ a, IsOperandByte a → t.mem.read a = s.mem.read a

/-- 70_reset_and_hazards.md R366: a started command completes. However many host accesses come first, the ENGINE's
next turn ends with BUSY = 0 and DONE = 1, and with no turn listed it comes at once (log entry 4). -/
def Obligations.StartedCommandsComplete : Prop := ∀ s : State, s.status.busy = true →
  (∀ k rest t, s.sched = List.replicate k Turn.host ++ Turn.engine :: rest →
    Sys2Proof.core.run (k + 1) s = .next t → t.status.busy = false ∧ t.status.done = true) ∧
  (s.sched = [] → (∃ t, step s = .next t ∧ t.status.busy = false ∧ t.status.done = true) ∨
    step s = .fault .unwrittenOperand)

/-- 70_reset_and_hazards.md R350 to R353: the reset input, in one step and from any state, BUSY or not, gives every
register its reset value, zeros OUT and leaves every operand byte unwritten. -/
def Obligations.ResetInputRestoresResetValues : Prop := ∀ s s', ResetMoves s s' →
  ∃ t, step s = .next t ∧ t.status.busy = false ∧ t.irq = false ∧
    (∀ off, off ∈ [0x004, 0x008, 0x00C, 0x010, 0x014, 0x018, 0x01C, 0x020, 0x024, 0x028, 0x02C] →
      busRead t off .w32 = some 0#32) ∧
    busRead t 0x000 .w32 = some 0x25519001#32 ∧ busRead t 0x030 .w32 = some 0x00001000#32 ∧
    (∀ a, IsOutByte a → t.mem.read a = some 0#8) ∧ (∀ a, IsOperandByte a → t.mem.read a = none)

/-- The invariant holds after reset (10_state.md, 70_reset_and_hazards.md R351). -/
def Obligations.ResetStateMeetsInvariant : Prop := State.reset.Inv

/-- Every step keeps the invariant: the memory stays canonical and inside the buffers, ERRCODE stays a code of
R310, the error record and OUT_LEN stay consistent with ERR and BUSY, and OUT stays zero from OUT_LEN on. -/
def Obligations.StepKeepsInvariant : Prop := ∀ s t : State, s.Inv → step s = .next t → t.Inv
end

