-- ==== Sys2Proof/Laws/Codec.lean ====
section
/-! SUPPORT. The little-endian codec is one to one between strings of `n` bytes and integers below
`256^n` (spec/00_scope.md R14). -/

namespace Sys2Proof.Machine

@[simp] theorem leBytes_length (n x : Nat) : (leBytes n x).length = n := by
  induction n generalizing x with
  | zero => rfl
  | succ n ih => simp [leBytes, ih]

@[simp] theorem le32_length (x : Nat) : (le32 x).length = 32 := leBytes_length 32 x

@[simp] theorem zeros_length (n : Nat) : (zeros n).length = n := by simp [zeros]

theorem leNat_leBytes (n x : Nat) : leNat (leBytes n x) = x % 256 ^ n := by
  induction n generalizing x with
  | zero => simp [leBytes, leNat, Nat.mod_one]
  | succ n ih =>
    rw [leBytes, leNat, ih, BitVec.toNat_ofNat, Nat.pow_succ' (n := n)]
    exact (Nat.mod_mul (x := x) (a := 256) (b := 256 ^ n)).symm

theorem leNat_lt (b : List Byte) : leNat b < 256 ^ b.length := by
  induction b with
  | nil => simp [leNat]
  | cons b bs ih =>
    simp only [leNat, List.length_cons, Nat.pow_succ']
    have := b.isLt
    omega

theorem leBytes_leNat (b : List Byte) : leBytes b.length (leNat b) = b := by
  induction b with
  | nil => rfl
  | cons b bs ih =>
    have hb := b.isLt
    have hd : (b.toNat + 256 * leNat bs) / 256 = leNat bs := by omega
    have hm : (BitVec.ofNat 8 (b.toNat + 256 * leNat bs)) = b := by
      apply BitVec.eq_of_toNat_eq
      simp only [BitVec.toNat_ofNat]
      omega
    simp only [List.length_cons, leNat, leBytes, hd, hm, ih]

/-- `LE32` and `LE` invert each other below 2^256. -/
theorem leNat_le32 (x : Nat) (h : x < 2 ^ 256) : leNat (le32 x) = x := by
  rw [le32, leNat_leBytes]
  exact Nat.mod_eq_of_lt (by simpa using h)

/-- A byte string is determined by its length and its value. -/
theorem leNat_inj {a b : List Byte} (hl : a.length = b.length) (h : leNat a = leNat b) : a = b := by
  rw [← leBytes_leNat a, ← leBytes_leNat b, hl, h]

theorem le32_leNat (b : List Byte) (h : b.length = 32) : le32 (leNat b) = b := by
  rw [le32, ← h, leBytes_leNat]

theorem leNat_append (a b : List Byte) : leNat (a ++ b) = leNat a + 256 ^ a.length * leNat b := by
  induction a with
  | nil => simp [leNat]
  | cons x xs ih => simp only [List.cons_append, leNat, ih, List.length_cons, Nat.pow_succ']; ring

theorem leNat_zeros (n : Nat) : leNat (zeros n) = 0 := by
  induction n with
  | zero => rfl
  | succ n ih => simpa [zeros, List.replicate_succ, leNat] using ih

@[simp] theorem ptBytes_length (P : Point) : (ptBytes P).length = 128 := by simp [ptBytes]

/-- Reading back the bytes of a point whose coordinates are below 2^256. -/
theorem ptRead_ptBytes (P : Point) (hX : P.X < 2 ^ 256) (hY : P.Y < 2 ^ 256) (hZ : P.Z < 2 ^ 256)
    (hT : P.T < 2 ^ 256) : ptRead (ptBytes P) = P := by
  obtain ⟨X, Y, Z, T⟩ := P
  simp only at hX hY hZ hT
  have cut (x : Nat) (r : List Byte) : (le32 x ++ r).take 32 = le32 x := by
    rw [List.take_append_of_le_length (by simp)]
    exact List.take_of_length_le (by simp)
  have skip (x n : Nat) (r : List Byte) : (le32 x ++ r).drop (32 + n) = r.drop n := by
    rw [List.drop_append]; simp
  have last (x : Nat) : (le32 x).take 32 = le32 x := List.take_of_length_le (by simp)
  simp only [ptRead, ptBytes, List.append_assoc, Point.mk.injEq]
  refine ⟨?_, ?_, ?_, ?_⟩
  · rw [cut, leNat_le32 X hX]
  · rw [show 32 = 32 + 0 from rfl, skip, List.drop_zero, cut, leNat_le32 Y hY]
  · rw [show 64 = 32 + (32 + 0) from rfl, skip, skip, List.drop_zero, cut, leNat_le32 Z hZ]
  · rw [show 96 = 32 + (32 + (32 + 0)) from rfl, skip, skip, skip, List.drop_zero, last,
      leNat_le32 T hT]

end Sys2Proof.Machine
end

