-- ==== Sys2Proof/Laws/Field.lean ====
section
/-! SUPPORT. What the field functions compute (spec/40_field_arithmetic.md R130 to R139), and what they
are in `ZMod fieldPrime`. -/

namespace Sys2Proof.Machine

/-- p = 2^255 − 19 (R130). -/
theorem fieldPrime_eq : fieldPrime = 2 ^ 255 - 19 := by decide

theorem fieldPrime_pos : 0 < fieldPrime := by decide

theorem fieldPrime_lt : fieldPrime < 2 ^ 255 := by decide

theorem red_lt (x : Nat) : red x < fieldPrime := Nat.mod_lt _ fieldPrime_pos

theorem fadd_lt (a b : Nat) : fadd a b < fieldPrime := red_lt _

theorem fmul_lt (a b : Nat) : fmul a b < fieldPrime := red_lt _

theorem fsub_lt (a b : Nat) : fsub a b < fieldPrime := by
  have hp : (0 : Int) < (fieldPrime : Int) := by exact_mod_cast fieldPrime_pos
  have h0 := Int.emod_nonneg ((a : Int) - b) (Int.ne_of_gt hp)
  have h1 := Int.emod_lt_of_pos ((a : Int) - b) hp
  unfold fsub
  omega

theorem red_of_lt {x : Nat} (h : x < fieldPrime) : red x = x := Nat.mod_eq_of_lt h

/-- Squaring computes the power (R138). -/
theorem powMod_eq (m fuel b e : Nat) (h : e < 2 ^ fuel) : powMod m fuel b e = b ^ e % m := by
  induction fuel generalizing b e with
  | zero =>
    obtain rfl : e = 0 := by simpa using h
    simp [powMod]
  | succ n ih =>
    have hlt : e / 2 < 2 ^ n := by rw [Nat.pow_succ] at h; omega
    rw [powMod]
    split
    · subst_vars; simp
    · rw [ih _ _ hlt, ← Nat.pow_mod]
      have he : e = 2 * (e / 2) + e % 2 := by omega
      split
      · rename_i h1
        rw [Nat.mul_mod, Nat.mod_mod, ← Nat.mul_mod]
        congr 1
        conv_rhs => rw [he, h1, Nat.pow_succ, Nat.pow_mul, Nat.pow_two, Nat.mul_comm]
      · have h1 : e % 2 = 0 := by omega
        congr 1
        conv_rhs => rw [he, h1, Nat.add_zero, Nat.pow_mul, Nat.pow_two]

/-- `fpow(a, e) = red(a)^e mod p` (R138). -/
theorem fpow_eq (a e : Nat) (h : e < 2 ^ 256) : fpow a e = red a ^ e % fieldPrime :=
  powMod_eq _ _ _ _ h

theorem fpow_lt (a e : Nat) (h : e < 2 ^ 256) : fpow a e < fieldPrime := by
  rw [fpow_eq a e h]; exact Nat.mod_lt _ fieldPrime_pos

/-- `finv(a) = red(a)^(p−2) mod p` (R137). -/
theorem finv_eq (a : Nat) : finv a = red a ^ (fieldPrime - 2) % fieldPrime :=
  fpow_eq a _ (by decide)

theorem finv_lt (a : Nat) : finv a < fieldPrime := fpow_lt a _ (by decide)

/-! ### In `ZMod fieldPrime` -/

@[simp] theorem cast_red (x : Nat) : ((red x : Nat) : ZMod fieldPrime) = x := by
  simp [red, ZMod.natCast_mod]

@[simp] theorem cast_fadd (a b : Nat) : ((fadd a b : Nat) : ZMod fieldPrime) = a + b := by
  simp [fadd]

@[simp] theorem cast_fmul (a b : Nat) : ((fmul a b : Nat) : ZMod fieldPrime) = a * b := by
  simp [fmul]

@[simp] theorem cast_fsub (a b : Nat) : ((fsub a b : Nat) : ZMod fieldPrime) = a - b := by
  have hp : (fieldPrime : Int) ≠ 0 := by exact_mod_cast Nat.ne_of_gt fieldPrime_pos
  have h : ((fsub a b : Nat) : Int) = ((a : Int) - b) % fieldPrime :=
    Int.toNat_of_nonneg (Int.emod_nonneg _ hp)
  have h2 : (((fsub a b : Nat) : Int) : ZMod fieldPrime) = (((a : Int) - b : Int) : ZMod fieldPrime) := by
    rw [h, ZMod.intCast_mod]
  simpa using h2

theorem cast_fpow (a e : Nat) (h : e < 2 ^ 256) : ((fpow a e : Nat) : ZMod fieldPrime) = a ^ e := by
  rw [fpow_eq a e h, ZMod.natCast_mod, Nat.cast_pow, cast_red]

theorem cast_finv (a : Nat) :
    ((finv a : Nat) : ZMod fieldPrime) = (a : ZMod fieldPrime) ^ (fieldPrime - 2) :=
  cast_fpow a _ (by decide)

/-- Two reduced values are equal when they are equal in the field. -/
theorem eq_of_cast_eq {a b : Nat} (ha : a < fieldPrime) (hb : b < fieldPrime)
    (h : (a : ZMod fieldPrime) = b) : a = b := by
  have := (ZMod.natCast_eq_natCast_iff' a b fieldPrime).mp h
  rwa [Nat.mod_eq_of_lt ha, Nat.mod_eq_of_lt hb] at this

/-- The zero tests of the rules are tests in the field. -/
theorem fsub_eq_zero (a b : Nat) : fsub a b = 0 ↔ (a : ZMod fieldPrime) = b := by
  rw [← sub_eq_zero (a := (a : ZMod fieldPrime)), ← cast_fsub]
  constructor
  · intro h; simp [h]
  · intro h; exact eq_of_cast_eq (fsub_lt a b) fieldPrime_pos (by simpa using h)

/-! ### The output encoding (R139) -/

@[simp] theorem feOut_length (x : Nat) : (feOut x).length = 32 := le32_length _

theorem leNat_feOut (x : Nat) : leNat (feOut x) = x % fieldPrime :=
  leNat_le32 _ (Nat.lt_trans (red_lt x) (by decide))

end Sys2Proof.Machine
end

