-- ==== Sys2Proof/Laws/Prime.lean ====
section
/-! SUPPORT. p = 2^255 − 19 is prime, by Lucas certificates, and what follows for inversion
(spec/40_field_arithmetic.md R137, R145). -/

namespace Sys2Proof.Machine

/-- A Lucas certificate: `a` has order `n − 1` modulo `n`, and `fs` are the prime factors of `n − 1`. -/
theorem prime_of_certificate (n a : Nat) (fs : List Nat) (hn : n < 2 ^ 256)
    (hprod : fs.prod = n - 1) (hfs : ∀ f ∈ fs, f.Prime) (h1 : powMod n 256 a (n - 1) % n = 1 % n)
    (hf : ∀ f ∈ fs, powMod n 256 a ((n - 1) / f) % n ≠ 1 % n) : n.Prime := by
  have cast (e : Nat) (he : e ≤ n - 1) : ((a ^ e : Nat) : ZMod n) = 1 ↔ powMod n 256 a e % n = 1 % n := by
    rw [powMod_eq _ _ _ _ (by omega), Nat.mod_mod, ← Nat.cast_one, ZMod.natCast_eq_natCast_iff']
  refine lucas_primality n (a : ZMod n) ?_ fun q hq hd => ?_
  · rw [← Nat.cast_pow]; exact (cast _ le_rfl).mpr h1
  · obtain ⟨f, hfm, hqf⟩ := (Prime.dvd_prod_iff hq.prime).mp (hprod ▸ hd)
    obtain rfl := (Nat.prime_dvd_prime_iff_eq hq (hfs f hfm)).mp hqf
    rw [← Nat.cast_pow]
    exact fun h => hf q hfm ((cast _ (Nat.div_le_self _ _)).mp h)

theorem prime_1923133 : Nat.Prime 1923133 := by
  refine prime_of_certificate _ 2 [2, 2, 3, 43, 3727] (by decide) (by decide +kernel) ?_ (by decide +kernel)
    (by decide +kernel)
  intro f hf
  simp only [List.mem_cons, List.not_mem_nil, or_false] at hf
  rcases hf with rfl | rfl | rfl | rfl | rfl
  all_goals first | norm_num

theorem prime_8574133 : Nat.Prime 8574133 := by
  refine prime_of_certificate _ 2 [2, 2, 3, 7, 103, 991] (by decide) (by decide +kernel) ?_ (by decide +kernel)
    (by decide +kernel)
  intro f hf
  simp only [List.mem_cons, List.not_mem_nil, or_false] at hf
  rcases hf with rfl | rfl | rfl | rfl | rfl | rfl
  all_goals first | norm_num

theorem prime_2773320623 : Nat.Prime 2773320623 := by
  refine prime_of_certificate _ 5 [2, 2437, 569003] (by decide) (by decide +kernel) ?_ (by decide +kernel)
    (by decide +kernel)
  intro f hf
  simp only [List.mem_cons, List.not_mem_nil, or_false] at hf
  rcases hf with rfl | rfl | rfl
  all_goals first | norm_num

theorem prime_72106336199 : Nat.Prime 72106336199 := by
  refine prime_of_certificate _ 7 [2, 13, 2773320623] (by decide) (by decide +kernel) ?_ (by decide +kernel)
    (by decide +kernel)
  intro f hf
  simp only [List.mem_cons, List.not_mem_nil, or_false] at hf
  rcases hf with rfl | rfl | rfl
  all_goals first | exact prime_2773320623 | norm_num

theorem prime_1919519569386763 : Nat.Prime 1919519569386763 := by
  refine prime_of_certificate _ 2 [2, 3, 7, 19, 47, 47, 127, 8574133] (by decide) (by decide +kernel) ?_ (by decide +kernel)
    (by decide +kernel)
  intro f hf
  simp only [List.mem_cons, List.not_mem_nil, or_false] at hf
  rcases hf with rfl | rfl | rfl | rfl | rfl | rfl | rfl | rfl
  all_goals first | exact prime_1923133 | exact prime_8574133 | norm_num

theorem prime_31757755568855353 : Nat.Prime 31757755568855353 := by
  refine prime_of_certificate _ 10 [2, 2, 2, 3, 31, 107, 223, 4153, 430751] (by decide) (by decide +kernel) ?_ (by decide +kernel)
    (by decide +kernel)
  intro f hf
  simp only [List.mem_cons, List.not_mem_nil, or_false] at hf
  rcases hf with rfl | rfl | rfl | rfl | rfl | rfl | rfl | rfl | rfl
  all_goals first | norm_num

theorem prime_35_digits : Nat.Prime 75445702479781427272750846543864801 := by
  refine prime_of_certificate _ 7 [2, 2, 2, 2, 2, 3, 3, 5, 5, 75707, 72106336199, 1919519569386763] (by decide) (by decide +kernel) ?_ (by decide +kernel)
    (by decide +kernel)
  intro f hf
  simp only [List.mem_cons, List.not_mem_nil, or_false] at hf
  rcases hf with rfl | rfl | rfl | rfl | rfl | rfl | rfl | rfl | rfl | rfl | rfl | rfl
  all_goals first | exact prime_72106336199 | exact prime_1919519569386763 | norm_num

theorem prime_71_digits : Nat.Prime 74058212732561358302231226437062788676166966415465897661863160754340907 := by
  refine prime_of_certificate _ 2 [2, 3, 353, 57467, 132049, 1923133, 31757755568855353, 75445702479781427272750846543864801] (by decide) (by decide +kernel) ?_ (by decide +kernel)
    (by decide +kernel)
  intro f hf
  simp only [List.mem_cons, List.not_mem_nil, or_false] at hf
  rcases hf with rfl | rfl | rfl | rfl | rfl | rfl | rfl | rfl
  all_goals first | exact prime_1923133 | exact prime_8574133 | exact prime_31757755568855353 | exact prime_35_digits | norm_num

/-- p is prime. -/
theorem fieldPrime_prime : Nat.Prime fieldPrime := by
  refine prime_of_certificate _ 2
    [2, 2, 3, 65147, 74058212732561358302231226437062788676166966415465897661863160754340907]
    (by decide) (by decide +kernel) ?_ (by decide +kernel) (by decide +kernel)
  intro f hf
  simp only [List.mem_cons, List.not_mem_nil, or_false] at hf
  rcases hf with rfl | rfl | rfl | rfl | rfl
  all_goals first | exact prime_71_digits | norm_num

/-- p is prime, as the facts about `ZMod fieldPrime` take it (give it by `haveI`). -/
theorem fieldPrime_fact : Fact (Nat.Prime fieldPrime) := ⟨fieldPrime_prime⟩

/-- `finv` is inversion in the field, with 0 to 0 (R137). -/
theorem cast_finv_eq_inv (a : Nat) :
    haveI := fieldPrime_fact
    ((finv a : Nat) : ZMod fieldPrime) = (a : ZMod fieldPrime)⁻¹ := by
  have := fieldPrime_fact
  rw [cast_finv]
  by_cases h : (a : ZMod fieldPrime) = 0
  · rw [h, inv_zero, zero_pow (by decide)]
  · refine eq_inv_of_mul_eq_one_left ?_
    rw [← pow_succ, show fieldPrime - 2 + 1 = fieldPrime - 1 by decide]
    exact ZMod.pow_card_sub_one_eq_one h

/-- Euler's criterion in one direction: an integer whose (p − 1)/2-th power is −1 is no square mod p. -/
theorem not_square_of_fpow {c : Nat} (h : fpow c ((fieldPrime - 1) / 2) = fieldPrime - 1)
    (x : ZMod fieldPrime) : x ^ 2 ≠ c := by
  have := fieldPrime_fact
  intro hx
  have hc := cast_fpow c ((fieldPrime - 1) / 2) (by decide +kernel)
  rw [h, eq_comm] at hc
  rw [← hx, ← pow_mul, show 2 * ((fieldPrime - 1) / 2) = fieldPrime - 1 by decide] at hc
  by_cases h0 : x = 0
  · rw [h0, zero_pow (by decide), eq_comm, ZMod.natCast_eq_zero_iff] at hc
    exact absurd hc (by decide +kernel)
  · rw [ZMod.pow_card_sub_one_eq_one h0] at hc
    have h2 : ((2 : Nat) : ZMod fieldPrime) = 0 := by
      have := congrArg (· + 1) hc
      simp only [← Nat.cast_succ] at this
      rw [show (fieldPrime - 1).succ = fieldPrime by decide, ZMod.natCast_self] at this
      rw [← this]; norm_num
    rw [ZMod.natCast_eq_zero_iff] at h2
    exact absurd h2 (by decide +kernel)

end Sys2Proof.Machine
end

