-- ==== Sys2Proof/Laws/Curve.lean ====
section
/-! SUPPORT. The constants of the curve are what spec/42_edwards_point.md says they are (R201, R202,
R204), and bounds of the point functions. -/

namespace Sys2Proof.Machine

/-- d = fmul(p − 121665, finv(121666)) (R201). -/
theorem edwardsD_eq : edwardsD = fmul (fieldPrime - 121665) (finv 121666) := by decide +kernel

/-- 2d = fadd(d, d) (R201). -/
theorem edwards2D_eq : edwards2D = fadd edwardsD edwardsD := by decide +kernel

/-- SQRT_M1 = fpow(2, (p − 1)/4) (R202). -/
theorem sqrtM1_eq : sqrtM1 = fpow 2 ((fieldPrime - 1) / 4) := by decide +kernel

/-- SQRT_M1 is a square root of −1 (R202). -/
theorem sqrtM1_square : fmul sqrtM1 sqrtM1 = fieldPrime - 1 := by decide +kernel

/-- G = (Gx, Gy, 1, Gt) with Gy = 4/5, Gx = recover_x(Gy, 0), Gt = Gx · Gy (R204). -/
theorem basePoint_eq :
    basePoint.Y = fmul 4 (finv 5) ∧ recoverX basePoint.Y 0 = .ok basePoint.X ∧
      basePoint.Z = 1 ∧ basePoint.T = fmul basePoint.X basePoint.Y := by decide +kernel

/-- d is a non-square: its (p − 1)/2-th power is −1 (R200). -/
theorem edwardsD_nonsquare : fpow edwardsD ((fieldPrime - 1) / 2) = fieldPrime - 1 := by decide +kernel

/-- No element of the field squares to d, which is what makes the addition formula complete (R200, R212). -/
theorem sq_ne_edwardsD (x : ZMod fieldPrime) : x ^ 2 ≠ (edwardsD : ZMod fieldPrime) :=
  not_square_of_fpow edwardsD_nonsquare x

/-- q is below 2^253 (43_edwards_scalar_mult.md R251). -/
theorem groupOrder_lt : groupOrder < 2 ^ 253 := by decide

@[simp] theorem cast_edwards2D : (edwards2D : ZMod fieldPrime) = 2 * (edwardsD : ZMod fieldPrime) := by
  rw [edwards2D_eq, cast_fadd, two_mul]

/-- Every coordinate of a sum is reduced (R205). -/
theorem edwAdd_lt (P Q : Point) :
    (edwAdd P Q).X < fieldPrime ∧ (edwAdd P Q).Y < fieldPrime ∧ (edwAdd P Q).Z < fieldPrime ∧
      (edwAdd P Q).T < fieldPrime := ⟨fmul_lt _ _, fmul_lt _ _, fmul_lt _ _, fmul_lt _ _⟩

/-- Every coordinate of a double is reduced (R206). -/
theorem edwDbl_lt (P : Point) :
    (edwDbl P).X < fieldPrime ∧ (edwDbl P).Y < fieldPrime ∧ (edwDbl P).Z < fieldPrime ∧
      (edwDbl P).T < fieldPrime := ⟨fmul_lt _ _, fmul_lt _ _, fmul_lt _ _, fmul_lt _ _⟩

@[simp] theorem compress_length (P : Point) : (compress P).length = 32 := le32_length _

@[simp] theorem hashBytes_length (m : List Byte) : (hashBytes m).length = 64 := by simp [hashBytes]

@[simp] theorem expandPrefix_length (sk : List Byte) : (expandPrefix sk).length = 32 := by
  simp [expandPrefix]

@[simp] theorem sign_length (sk msg : List Byte) : (sign sk msg).length = 64 := by simp [sign]

end Sys2Proof.Machine
end

