-- ==== Sys2Proof/Laws/Memory.lean ====
section
/-! SUPPORT. The laws of the buffers' bytes: a read after a write, that every operation keeps the
canonical form, and the same for strings of bytes. -/

namespace Sys2Proof.Machine

/-! ### One byte -/

theorem find_insert (m : Memory) (a x : Nat) (b : Byte) :
    Memory.find (Memory.insert m a b) x = if a = x then some b else Memory.find m x := by
  induction m with
  | nil => simp [Memory.insert, Memory.find]
  | cons c m ih =>
    obtain ⟨k, c⟩ := c
    simp only [Memory.insert]
    split
    · simp [Memory.find]
    · split
      · subst_vars
        by_cases h : k = x <;> simp [Memory.find, h]
      · by_cases h : k = x
        · have : a ≠ x := by omega
          simp [Memory.find, h, this]
        · simp [Memory.find, h, ih]

theorem erase_cons (k : Nat) (c : Byte) (m : Memory) (a : Nat) :
    Memory.erase ((k, c) :: m) a = if k = a then Memory.erase m a else (k, c) :: Memory.erase m a := by
  by_cases h : k = a <;> simp [Memory.erase, h]

theorem find_erase (m : Memory) (a x : Nat) :
    Memory.find (Memory.erase m a) x = if a = x then none else Memory.find m x := by
  induction m with
  | nil => simp [Memory.erase, Memory.find]
  | cons c m ih =>
    obtain ⟨k, c⟩ := c
    rw [erase_cons]
    by_cases hk : k = a
    · subst hk
      rw [if_pos rfl, ih]
      by_cases h : k = x <;> simp [Memory.find, h]
    · by_cases h : k = x
      · have : a ≠ x := by omega
        rw [if_neg hk]; simp [Memory.find, h, this]
      · rw [if_neg hk]; simp [Memory.find, h, ih]

/-- The one law of a byte write: the byte written, and every other byte as before. -/
theorem read_write (m : Memory) (a x : Nat) (b : Byte) :
    (m.write a b).read x = if a = x then some b else m.read x := by
  by_cases hu : unlisted a = some b
  · by_cases h : a = x
    · subst h; simp [Memory.write, Memory.read, hu, find_erase]
    · simp [Memory.write, Memory.read, hu, find_erase, h]
  · unfold Memory.write Memory.read
    rw [if_neg hu, find_insert]
    by_cases h : a = x <;> simp [h]

/-! ### The canonical form -/

theorem mem_insert {m : Memory} {a : Nat} {b : Byte} {c : Host.Cell}
    (h : c ∈ Memory.insert m a b) : c = (a, b) ∨ c ∈ m := by
  induction m with
  | nil => simpa [Memory.insert] using h
  | cons d m ih =>
    obtain ⟨k, d⟩ := d
    simp only [Memory.insert] at h
    split at h
    · simpa using h
    · split at h
      · rcases List.mem_cons.mp h with h | h
        · exact .inl h
        · exact .inr (List.mem_cons_of_mem _ h)
      · rcases List.mem_cons.mp h with h | h
        · exact .inr (h ▸ List.mem_cons_self)
        · exact (ih h).imp id (List.mem_cons_of_mem _)

theorem insert_sorted {m : Memory} (h : m.Pairwise (fun c d => c.1 < d.1)) (a : Nat) (b : Byte) :
    (Memory.insert m a b).Pairwise (fun c d => c.1 < d.1) := by
  induction m with
  | nil => simp [Memory.insert]
  | cons c m ih =>
    obtain ⟨k, c⟩ := c
    have hc := List.pairwise_cons.mp h
    simp only [Memory.insert]
    split
    · rename_i hak
      refine List.pairwise_cons.mpr ⟨fun d hd => ?_, h⟩
      rcases List.mem_cons.mp hd with rfl | hd
      · exact hak
      · exact Nat.lt_trans hak (hc.1 d hd)
    · split
      · subst_vars
        exact List.pairwise_cons.mpr ⟨hc.1, hc.2⟩
      · refine List.pairwise_cons.mpr ⟨fun d hd => ?_, ih hc.2⟩
        rcases mem_insert hd with rfl | hd
        · show k < a; omega
        · exact hc.1 d hd

/-- A byte write keeps the canonical form. -/
theorem write_wf {m : Memory} (h : m.wf) (a : Nat) (b : Byte) : (m.write a b).wf := by
  unfold Memory.write
  split
  · exact ⟨h.1.filter _, fun c hc => h.2 c (List.mem_filter.mp hc).1⟩
  · refine ⟨insert_sorted h.1 a b, fun c hc => ?_⟩
    rcases mem_insert hc with rfl | hc
    · assumption
    · exact h.2 c hc

/-- A byte write to a buffer keeps the memory inside the buffers. -/
theorem write_inBuffers {m : Memory} (h : m.inBuffers) {a : Nat}
    (ha : regionOf a ≠ .register ∧ regionOf a ≠ .reserved) (b : Byte) : (m.write a b).inBuffers := by
  unfold Memory.write
  split
  · exact fun c hc => h c (List.mem_filter.mp hc).1
  · intro c hc
    rcases mem_insert hc with rfl | hc
    · exact ha
    · exact h c hc

/-! ### Strings of bytes -/

/-- The one law of a string write: the string where it was stored, and every other byte as before. -/
theorem read_writeBytes (bs : List Byte) (m : Memory) (a x : Nat) :
    (m.writeBytes a bs).read x =
      if a ≤ x ∧ x < a + bs.length then bs[x - a]? else m.read x := by
  induction bs generalizing m a with
  | nil =>
    have : ¬(a ≤ x ∧ x < a + 0) := by omega
    simp [Memory.writeBytes]
  | cons b bs ih =>
    rw [Memory.writeBytes, ih, read_write]
    by_cases h1 : a = x
    · subst h1
      have : ¬(a + 1 ≤ a ∧ a < a + 1 + bs.length) := by omega
      simp
    · by_cases h2 : a + 1 ≤ x ∧ x < a + 1 + bs.length
      · have h3 : a ≤ x ∧ x < a + (b :: bs).length := by simp; omega
        obtain ⟨k, hk⟩ : ∃ k, x - a = k + 1 := ⟨x - a - 1, by omega⟩
        rw [if_pos h2, if_pos h3, hk, List.getElem?_cons_succ]
        congr 1; omega
      · have h3 : ¬(a ≤ x ∧ x < a + (b :: bs).length) := by simp; omega
        rw [if_neg h2, if_neg h3, if_neg h1]

/-- A string write leaves every byte outside it alone. -/
theorem read_writeBytes_other {bs : List Byte} {m : Memory} {a x : Nat}
    (h : ¬(a ≤ x ∧ x < a + bs.length)) : (m.writeBytes a bs).read x = m.read x := by
  rw [read_writeBytes, if_neg h]

theorem writeBytes_wf {m : Memory} (h : m.wf) (a : Nat) (bs : List Byte) : (m.writeBytes a bs).wf := by
  induction bs generalizing m a with
  | nil => exact h
  | cons b bs ih => exact ih (write_wf h a b) (a + 1)

theorem writeBytes_inBuffers {m : Memory} (h : m.inBuffers) {a : Nat} {bs : List Byte}
    (ha : ∀ x, a ≤ x → x < a + bs.length → regionOf x ≠ .register ∧ regionOf x ≠ .reserved) :
    (m.writeBytes a bs).inBuffers := by
  induction bs generalizing m a with
  | nil => exact h
  | cons b bs ih =>
    refine ih (write_inBuffers h (ha a (by omega) (by simp)) b) (fun x h1 h2 => ha x (by omega) ?_)
    simp only [List.length_cons]; omega

/-- A string read is the bytes one by one. -/
theorem readBytes_eq_some {m : Memory} {a n : Nat} {bs : List Byte} :
    m.readBytes a n = some bs ↔ bs.length = n ∧ ∀ i, i < n → m.read (a + i) = bs[i]? := by
  induction n generalizing a bs with
  | zero =>
    cases bs <;> simp [Memory.readBytes]
  | succ n ih =>
    rw [Memory.readBytes]
    constructor
    · intro h
      split at h
      · rename_i b bs' hb hbs
        obtain rfl : b :: bs' = bs := by simpa using h
        obtain ⟨hl, hr⟩ := ih.mp hbs
        refine ⟨by simp [hl], fun i hi => ?_⟩
        cases i with
        | zero => simpa using hb
        | succ i =>
          rw [List.getElem?_cons_succ, ← hr i (by omega)]
          congr 1; omega
      · cases h
    · rintro ⟨hl, hr⟩
      cases bs with
      | nil => simp at hl
      | cons b bs =>
        have h0 : m.read a = some b := by simpa using hr 0 (by omega)
        have h1 : m.readBytes (a + 1) n = some bs := by
          refine ih.mpr ⟨by simpa using hl, fun i hi => ?_⟩
          have := hr (i + 1) (by omega)
          rw [List.getElem?_cons_succ] at this
          rw [← this]; congr 1; omega
        simp [h0, h1]

theorem readBytes_length {m : Memory} {a n : Nat} {bs : List Byte}
    (h : m.readBytes a n = some bs) : bs.length = n := (readBytes_eq_some.mp h).1

/-- A string read exists exactly when every byte is there. -/
theorem readBytes_isSome {m : Memory} {a n : Nat} :
    (m.readBytes a n).isSome ↔ ∀ i, i < n → (m.read (a + i)).isSome := by
  induction n generalizing a with
  | zero => simp [Memory.readBytes]
  | succ n ih =>
    have hs : (m.readBytes a (n + 1)).isSome ↔
        (m.read a).isSome ∧ (m.readBytes (a + 1) n).isSome := by
      rw [Memory.readBytes]
      cases m.read a <;> cases m.readBytes (a + 1) n <;> simp
    rw [hs, ih]
    constructor
    · rintro ⟨h0, h1⟩ i hi
      cases i with
      | zero => exact h0
      | succ i => have := h1 i (by omega); rwa [show a + 1 + i = a + (i + 1) by omega] at this
    · intro h
      refine ⟨h 0 (by omega), fun i hi => ?_⟩
      have := h (i + 1) (by omega); rwa [show a + (i + 1) = a + 1 + i by omega] at this

/-- A string read depends on its bytes alone. -/
theorem readBytes_congr {m m' : Memory} {a n : Nat}
    (h : ∀ x, a ≤ x → x < a + n → m.read x = m'.read x) : m.readBytes a n = m'.readBytes a n := by
  induction n generalizing a with
  | zero => rfl
  | succ n ih =>
    rw [Memory.readBytes, Memory.readBytes, h a (by omega) (by omega),
      ih (fun x h1 h2 => h x (by omega) (by omega))]

/-- A string read after a write of the same string at the same place gives the string. -/
theorem readBytes_writeBytes (m : Memory) (a : Nat) (bs : List Byte) :
    (m.writeBytes a bs).readBytes a bs.length = some bs := by
  refine readBytes_eq_some.mpr ⟨rfl, fun i hi => ?_⟩
  rw [read_writeBytes, if_pos (by omega)]
  congr 1; omega

/-! ### Reset's memory -/

theorem reset_mem_wf : State.reset.mem.wf := by decide

/-- After reset no byte of IN0, IN1 or MSG is written, and OUT is zero. -/
theorem reset_mem_read (a : Nat) : State.reset.mem.read a = unlisted a := rfl

end Sys2Proof.Machine
end

