-- ==== Sys2Proof/Laws/State.lean ====
section
/-! SUPPORT. One lemma per field per update of the state and of STATUS, so that no proof unfolds a record
update. -/

namespace Sys2Proof.Machine

/-! `startCommand` -/

@[simp] theorem startCommand_cmd (w : Word) (s : State) : (startCommand w s).cmd = w := rfl
@[simp] theorem startCommand_status (w : Word) (s : State) :
    (startCommand w s).status = s.status.started := rfl
@[simp] theorem startCommand_doneIe (w : Word) (s : State) :
    (startCommand w s).doneIe = s.doneIe := rfl
@[simp] theorem startCommand_errSlot (w : Word) (s : State) :
    (startCommand w s).errSlot = 0#8 := rfl
@[simp] theorem startCommand_errExpected (w : Word) (s : State) :
    (startCommand w s).errExpected = 0#32 := rfl
@[simp] theorem startCommand_errGot (w : Word) (s : State) : (startCommand w s).errGot = 0#32 := rfl
@[simp] theorem startCommand_errInfo (w : Word) (s : State) :
    (startCommand w s).errInfo = 0#8 := rfl
@[simp] theorem startCommand_len0 (w : Word) (s : State) : (startCommand w s).len0 = s.len0 := rfl
@[simp] theorem startCommand_len1 (w : Word) (s : State) : (startCommand w s).len1 = s.len1 := rfl
@[simp] theorem startCommand_msgLen (w : Word) (s : State) :
    (startCommand w s).msgLen = s.msgLen := rfl
@[simp] theorem startCommand_outLen (w : Word) (s : State) :
    (startCommand w s).outLen = s.outLen := rfl
@[simp] theorem startCommand_mem (w : Word) (s : State) : (startCommand w s).mem = s.mem := rfl
@[simp] theorem startCommand_epoch (w : Word) (s : State) :
    (startCommand w s).epoch = s.epoch := rfl
@[simp] theorem startCommand_sched (w : Word) (s : State) :
    (startCommand w s).sched = s.sched := rfl
@[simp] theorem startCommand_host (w : Word) (s : State) : (startCommand w s).host = s.host := rfl
@[simp] theorem startCommand_reads (w : Word) (s : State) :
    (startCommand w s).reads = s.reads := rfl

/-! `completeOk` -/

@[simp] theorem completeOk_cmd (r : CmdResult) (s : State) : (completeOk r s).cmd = s.cmd := rfl
@[simp] theorem completeOk_status (r : CmdResult) (s : State) :
    (completeOk r s).status = s.status.completedOk r.result := rfl
@[simp] theorem completeOk_doneIe (r : CmdResult) (s : State) :
    (completeOk r s).doneIe = s.doneIe := rfl
@[simp] theorem completeOk_errSlot (r : CmdResult) (s : State) :
    (completeOk r s).errSlot = 0#8 := rfl
@[simp] theorem completeOk_errExpected (r : CmdResult) (s : State) :
    (completeOk r s).errExpected = 0#32 := rfl
@[simp] theorem completeOk_errGot (r : CmdResult) (s : State) :
    (completeOk r s).errGot = 0#32 := rfl
@[simp] theorem completeOk_errInfo (r : CmdResult) (s : State) :
    (completeOk r s).errInfo = 0#8 := rfl
@[simp] theorem completeOk_len0 (r : CmdResult) (s : State) : (completeOk r s).len0 = s.len0 := rfl
@[simp] theorem completeOk_len1 (r : CmdResult) (s : State) : (completeOk r s).len1 = s.len1 := rfl
@[simp] theorem completeOk_msgLen (r : CmdResult) (s : State) :
    (completeOk r s).msgLen = s.msgLen := rfl
@[simp] theorem completeOk_outLen (r : CmdResult) (s : State) :
    (completeOk r s).outLen = BitVec.ofNat 32 r.out.length := rfl
@[simp] theorem completeOk_mem (r : CmdResult) (s : State) :
    (completeOk r s).mem = s.mem.writeBytes outBase (r.out ++ zeros (bufBytes - r.out.length)) := by
  rw [completeOk]
@[simp] theorem completeOk_epoch (r : CmdResult) (s : State) :
    (completeOk r s).epoch = s.epoch := rfl
@[simp] theorem completeOk_sched (r : CmdResult) (s : State) :
    (completeOk r s).sched = s.sched := rfl
@[simp] theorem completeOk_host (r : CmdResult) (s : State) : (completeOk r s).host = s.host := rfl
@[simp] theorem completeOk_reads (r : CmdResult) (s : State) :
    (completeOk r s).reads = s.reads := rfl

/-! `completeErr` -/

@[simp] theorem completeErr_cmd (e : CmdError) (s : State) : (completeErr e s).cmd = s.cmd := rfl
@[simp] theorem completeErr_status (e : CmdError) (s : State) :
    (completeErr e s).status = s.status.completedErr e.code := rfl
@[simp] theorem completeErr_doneIe (e : CmdError) (s : State) :
    (completeErr e s).doneIe = s.doneIe := rfl
@[simp] theorem completeErr_errSlot (e : CmdError) (s : State) :
    (completeErr e s).errSlot = e.slot := rfl
@[simp] theorem completeErr_errExpected (e : CmdError) (s : State) :
    (completeErr e s).errExpected = e.expected := rfl
@[simp] theorem completeErr_errGot (e : CmdError) (s : State) :
    (completeErr e s).errGot = e.got := rfl
@[simp] theorem completeErr_errInfo (e : CmdError) (s : State) :
    (completeErr e s).errInfo = e.info := rfl
@[simp] theorem completeErr_len0 (e : CmdError) (s : State) : (completeErr e s).len0 = s.len0 := rfl
@[simp] theorem completeErr_len1 (e : CmdError) (s : State) : (completeErr e s).len1 = s.len1 := rfl
@[simp] theorem completeErr_msgLen (e : CmdError) (s : State) :
    (completeErr e s).msgLen = s.msgLen := rfl
@[simp] theorem completeErr_outLen (e : CmdError) (s : State) :
    (completeErr e s).outLen = 0#32 := rfl
@[simp] theorem completeErr_mem (e : CmdError) (s : State) :
    (completeErr e s).mem = s.mem.writeBytes outBase (zeros bufBytes) := by
  rw [completeErr]
@[simp] theorem completeErr_epoch (e : CmdError) (s : State) :
    (completeErr e s).epoch = s.epoch := rfl
@[simp] theorem completeErr_sched (e : CmdError) (s : State) :
    (completeErr e s).sched = s.sched := rfl
@[simp] theorem completeErr_host (e : CmdError) (s : State) : (completeErr e s).host = s.host := rfl
@[simp] theorem completeErr_reads (e : CmdError) (s : State) :
    (completeErr e s).reads = s.reads := rfl

/-! `dropWrite` -/

@[simp] theorem dropWrite_cmd (s : State) : (dropWrite s).cmd = s.cmd := rfl
@[simp] theorem dropWrite_status (s : State) :
    (dropWrite s).status = { s.status with wrBusy := true } := rfl
@[simp] theorem dropWrite_doneIe (s : State) : (dropWrite s).doneIe = s.doneIe := rfl
@[simp] theorem dropWrite_errSlot (s : State) : (dropWrite s).errSlot = s.errSlot := rfl
@[simp] theorem dropWrite_errExpected (s : State) : (dropWrite s).errExpected = s.errExpected := rfl
@[simp] theorem dropWrite_errGot (s : State) : (dropWrite s).errGot = s.errGot := rfl
@[simp] theorem dropWrite_errInfo (s : State) : (dropWrite s).errInfo = s.errInfo := rfl
@[simp] theorem dropWrite_len0 (s : State) : (dropWrite s).len0 = s.len0 := rfl
@[simp] theorem dropWrite_len1 (s : State) : (dropWrite s).len1 = s.len1 := rfl
@[simp] theorem dropWrite_msgLen (s : State) : (dropWrite s).msgLen = s.msgLen := rfl
@[simp] theorem dropWrite_outLen (s : State) : (dropWrite s).outLen = s.outLen := rfl
@[simp] theorem dropWrite_mem (s : State) : (dropWrite s).mem = s.mem := rfl
@[simp] theorem dropWrite_epoch (s : State) : (dropWrite s).epoch = s.epoch := rfl
@[simp] theorem dropWrite_sched (s : State) : (dropWrite s).sched = s.sched := rfl
@[simp] theorem dropWrite_host (s : State) : (dropWrite s).host = s.host := rfl
@[simp] theorem dropWrite_reads (s : State) : (dropWrite s).reads = s.reads := rfl

/-! `dropCommand` -/

@[simp] theorem dropCommand_cmd (s : State) : (dropCommand s).cmd = s.cmd := rfl
@[simp] theorem dropCommand_status (s : State) :
    (dropCommand s).status = { s.status with cmdOverrun := true } := rfl
@[simp] theorem dropCommand_doneIe (s : State) : (dropCommand s).doneIe = s.doneIe := rfl
@[simp] theorem dropCommand_errSlot (s : State) : (dropCommand s).errSlot = s.errSlot := rfl
@[simp] theorem dropCommand_errExpected (s : State) :
    (dropCommand s).errExpected = s.errExpected := rfl
@[simp] theorem dropCommand_errGot (s : State) : (dropCommand s).errGot = s.errGot := rfl
@[simp] theorem dropCommand_errInfo (s : State) : (dropCommand s).errInfo = s.errInfo := rfl
@[simp] theorem dropCommand_len0 (s : State) : (dropCommand s).len0 = s.len0 := rfl
@[simp] theorem dropCommand_len1 (s : State) : (dropCommand s).len1 = s.len1 := rfl
@[simp] theorem dropCommand_msgLen (s : State) : (dropCommand s).msgLen = s.msgLen := rfl
@[simp] theorem dropCommand_outLen (s : State) : (dropCommand s).outLen = s.outLen := rfl
@[simp] theorem dropCommand_mem (s : State) : (dropCommand s).mem = s.mem := rfl
@[simp] theorem dropCommand_epoch (s : State) : (dropCommand s).epoch = s.epoch := rfl
@[simp] theorem dropCommand_sched (s : State) : (dropCommand s).sched = s.sched := rfl
@[simp] theorem dropCommand_host (s : State) : (dropCommand s).host = s.host := rfl
@[simp] theorem dropCommand_reads (s : State) : (dropCommand s).reads = s.reads := rfl

/-! `resetCore` -/

@[simp] theorem resetCore_cmd (s : State) : (resetCore s).cmd = 0#32 := rfl
@[simp] theorem resetCore_status (s : State) : (resetCore s).status = Status.reset := rfl
@[simp] theorem resetCore_doneIe (s : State) : (resetCore s).doneIe = false := rfl
@[simp] theorem resetCore_errSlot (s : State) : (resetCore s).errSlot = 0#8 := rfl
@[simp] theorem resetCore_errExpected (s : State) : (resetCore s).errExpected = 0#32 := rfl
@[simp] theorem resetCore_errGot (s : State) : (resetCore s).errGot = 0#32 := rfl
@[simp] theorem resetCore_errInfo (s : State) : (resetCore s).errInfo = 0#8 := rfl
@[simp] theorem resetCore_len0 (s : State) : (resetCore s).len0 = 0#32 := rfl
@[simp] theorem resetCore_len1 (s : State) : (resetCore s).len1 = 0#32 := rfl
@[simp] theorem resetCore_msgLen (s : State) : (resetCore s).msgLen = 0#32 := rfl
@[simp] theorem resetCore_outLen (s : State) : (resetCore s).outLen = 0#32 := rfl
@[simp] theorem resetCore_mem (s : State) : (resetCore s).mem = [] := rfl
@[simp] theorem resetCore_epoch (s : State) : (resetCore s).epoch = s.epoch + 1 := rfl
@[simp] theorem resetCore_sched (s : State) : (resetCore s).sched = s.sched := rfl
@[simp] theorem resetCore_host (s : State) : (resetCore s).host = s.host := rfl
@[simp] theorem resetCore_reads (s : State) : (resetCore s).reads = s.reads := rfl

/-! `placeCommand` -/

@[simp] theorem placeCommand_cmd (w : Word) (s : State) : (placeCommand w s).cmd = w := rfl
@[simp] theorem placeCommand_status (w : Word) (s : State) :
    (placeCommand w s).status = s.status.started := rfl
@[simp] theorem placeCommand_doneIe (w : Word) (s : State) :
    (placeCommand w s).doneIe = s.doneIe := rfl
@[simp] theorem placeCommand_errSlot (w : Word) (s : State) :
    (placeCommand w s).errSlot = 0#8 := rfl
@[simp] theorem placeCommand_errExpected (w : Word) (s : State) :
    (placeCommand w s).errExpected = 0#32 := rfl
@[simp] theorem placeCommand_errGot (w : Word) (s : State) : (placeCommand w s).errGot = 0#32 := rfl
@[simp] theorem placeCommand_errInfo (w : Word) (s : State) :
    (placeCommand w s).errInfo = 0#8 := rfl
@[simp] theorem placeCommand_len0 (w : Word) (s : State) : (placeCommand w s).len0 = s.len0 := rfl
@[simp] theorem placeCommand_len1 (w : Word) (s : State) : (placeCommand w s).len1 = s.len1 := rfl
@[simp] theorem placeCommand_msgLen (w : Word) (s : State) :
    (placeCommand w s).msgLen = s.msgLen := rfl
@[simp] theorem placeCommand_outLen (w : Word) (s : State) :
    (placeCommand w s).outLen = s.outLen := rfl
@[simp] theorem placeCommand_mem (w : Word) (s : State) : (placeCommand w s).mem = s.mem := rfl
@[simp] theorem placeCommand_epoch (w : Word) (s : State) :
    (placeCommand w s).epoch = s.epoch := rfl
@[simp] theorem placeCommand_sched (w : Word) (s : State) :
    (placeCommand w s).sched = .engine :: s.sched := rfl
@[simp] theorem placeCommand_host (w : Word) (s : State) : (placeCommand w s).host = s.host := rfl
@[simp] theorem placeCommand_reads (w : Word) (s : State) :
    (placeCommand w s).reads = s.reads := rfl

/-! `Status.started` -/

@[simp] theorem Status.started_busy (st : Status) : (st.started).busy = true := rfl
@[simp] theorem Status.started_done (st : Status) : (st.started).done = false := rfl
@[simp] theorem Status.started_err (st : Status) : (st.started).err = false := rfl
@[simp] theorem Status.started_result (st : Status) : (st.started).result = false := rfl
@[simp] theorem Status.started_cmdOverrun (st : Status) :
    (st.started).cmdOverrun = st.cmdOverrun := rfl
@[simp] theorem Status.started_wrBusy (st : Status) : (st.started).wrBusy = st.wrBusy := rfl
@[simp] theorem Status.started_errcode (st : Status) : (st.started).errcode = 0#8 := rfl

/-! `Status.completedOk` -/

@[simp] theorem Status.completedOk_busy (st : Status) (r : Bool) :
    (st.completedOk r).busy = false := rfl
@[simp] theorem Status.completedOk_done (st : Status) (r : Bool) :
    (st.completedOk r).done = true := rfl
@[simp] theorem Status.completedOk_err (st : Status) (r : Bool) :
    (st.completedOk r).err = false := rfl
@[simp] theorem Status.completedOk_result (st : Status) (r : Bool) :
    (st.completedOk r).result = r := rfl
@[simp] theorem Status.completedOk_cmdOverrun (st : Status) (r : Bool) :
    (st.completedOk r).cmdOverrun = st.cmdOverrun := rfl
@[simp] theorem Status.completedOk_wrBusy (st : Status) (r : Bool) :
    (st.completedOk r).wrBusy = st.wrBusy := rfl
@[simp] theorem Status.completedOk_errcode (st : Status) (r : Bool) :
    (st.completedOk r).errcode = 0#8 := rfl

/-! `Status.completedErr` -/

@[simp] theorem Status.completedErr_busy (st : Status) (c : ErrCode) :
    (st.completedErr c).busy = false := rfl
@[simp] theorem Status.completedErr_done (st : Status) (c : ErrCode) :
    (st.completedErr c).done = true := rfl
@[simp] theorem Status.completedErr_err (st : Status) (c : ErrCode) :
    (st.completedErr c).err = true := rfl
@[simp] theorem Status.completedErr_result (st : Status) (c : ErrCode) :
    (st.completedErr c).result = false := rfl
@[simp] theorem Status.completedErr_cmdOverrun (st : Status) (c : ErrCode) :
    (st.completedErr c).cmdOverrun = st.cmdOverrun := rfl
@[simp] theorem Status.completedErr_wrBusy (st : Status) (c : ErrCode) :
    (st.completedErr c).wrBusy = st.wrBusy := rfl
@[simp] theorem Status.completedErr_errcode (st : Status) (c : ErrCode) :
    (st.completedErr c).errcode = c.number := rfl

/-! `Status.clearW1C` -/

@[simp] theorem Status.clearW1C_busy (st : Status) (v : Word) :
    (st.clearW1C v).busy = st.busy := rfl
@[simp] theorem Status.clearW1C_done (st : Status) (v : Word) :
    (st.clearW1C v).done = (st.done && !v.getLsbD 1) := rfl
@[simp] theorem Status.clearW1C_err (st : Status) (v : Word) : (st.clearW1C v).err = st.err := rfl
@[simp] theorem Status.clearW1C_result (st : Status) (v : Word) :
    (st.clearW1C v).result = st.result := rfl
@[simp] theorem Status.clearW1C_cmdOverrun (st : Status) (v : Word) :
    (st.clearW1C v).cmdOverrun = (st.cmdOverrun && !v.getLsbD 4) := rfl
@[simp] theorem Status.clearW1C_wrBusy (st : Status) (v : Word) :
    (st.clearW1C v).wrBusy = (st.wrBusy && !v.getLsbD 5) := rfl
@[simp] theorem Status.clearW1C_errcode (st : Status) (v : Word) :
    (st.clearW1C v).errcode = st.errcode := rfl

end Sys2Proof.Machine
end

