-- ==== Sys2Proof/Laws/Commands.lean ====
section
/-! SUPPORT. Everything a command can do: it is a completion (`exec_eq_complete`), a completion has one of
three ends (`complete_cases`), and each end leaves what spec/60_exceptions.md R319 says
(`completeOk_spec`, `completeErr_spec`). Then the checks and the operand reads, one lemma per case. -/

namespace Sys2Proof.Machine

/-! ### Completion -/

/-- The three ends of a completion step. -/
theorem complete_cases (o : Except Stop CmdResult) (s : State) :
    (∃ r, o = .ok r ∧ complete o s = .next (completeOk r s)) ∨
    (∃ e, o = .error (.raised e) ∧ complete o s = .next (completeErr e s)) ∨
    (o = .error .unwritten ∧ complete o s = .fault .unwrittenOperand) := by
  match o with
  | .ok r => exact .inl ⟨r, rfl, rfl⟩
  | .error (.raised e) => exact .inr (.inl ⟨e, rfl, rfl⟩)
  | .error .unwritten => exact .inr (.inr ⟨rfl, rfl⟩)

@[simp] theorem complete_ok (r : CmdResult) (s : State) :
    complete (.ok r) s = .next (completeOk r s) := rfl

@[simp] theorem complete_raised (e : CmdError) (s : State) :
    complete (.error (.raised e)) s = .next (completeErr e s) := rfl

@[simp] theorem complete_unwritten (s : State) :
    complete (.error .unwritten) s = .fault .unwrittenOperand := rfl

/-- Whatever ends in a next state ended in one of the two outcomes. -/
theorem complete_next {o : Except Stop CmdResult} {s t : State} (h : complete o s = .next t) :
    (∃ r, o = .ok r ∧ t = completeOk r s) ∨ (∃ e, o = .error (.raised e) ∧ t = completeErr e s) := by
  rcases complete_cases o s with ⟨r, ho, hc⟩ | ⟨e, ho, hc⟩ | ⟨_, hc⟩ <;> rw [hc] at h
  · exact .inl ⟨r, ho, by injection h with h; exact h.symm⟩
  · exact .inr ⟨e, ho, by injection h with h; exact h.symm⟩
  · cases h

/-- Bytes stored from OUT's first byte on, at most 128 of them, leave every byte outside OUT alone. -/
theorem out_write_other (m : Memory) {bs : List Byte} (hl : bs.length ≤ bufBytes) {a : Nat}
    (ha : ¬ IsOutByte a) : (m.writeBytes outBase bs).read a = m.read a :=
  read_writeBytes_other fun ⟨h1, h2⟩ => ha ⟨h1, by omega⟩

/-- An `Ok` completion (R319). -/
theorem completeOk_spec (r : CmdResult) (s : State) (h : r.out.length ≤ bufBytes) :
    CompletedOk s (completeOk r s) r.out r.result := by
  have hl : (r.out ++ zeros (bufBytes - r.out.length)).length = bufBytes := by simp; omega
  refine ⟨rfl, rfl, rfl, rfl, rfl, rfl, rfl, rfl, rfl, ⟨h, ?_, ?_⟩,
    ⟨rfl, rfl, rfl, rfl, rfl, rfl, rfl, fun a ha => ?_, rfl, rfl, rfl, rfl⟩⟩
  · rw [completeOk_mem]
    have := readBytes_writeBytes s.mem outBase (r.out ++ zeros (bufBytes - r.out.length))
    rwa [hl] at this
  · rw [completeOk_outLen, BitVec.toNat_ofNat, Nat.mod_eq_of_lt]
    simp only [bufBytes] at h; omega
  · rw [completeOk_mem]
    exact out_write_other _ (Nat.le_of_eq hl) ha

/-- An `Err` completion (R319, R320). -/
theorem completeErr_spec (e : CmdError) (s : State) :
    CompletedErr s (completeErr e s) e.code.number e.slot e.expected e.got e.info := by
  refine ⟨rfl, rfl, rfl, rfl, rfl, rfl, rfl, rfl, rfl, ⟨Nat.zero_le _, ?_, rfl⟩,
    ⟨rfl, rfl, rfl, rfl, rfl, rfl, rfl, fun a ha => ?_, rfl, rfl, rfl, rfl⟩⟩
  · rw [completeErr_mem]
    have := readBytes_writeBytes s.mem outBase (zeros bufBytes)
    rw [zeros_length] at this
    rw [this, List.nil_append, List.length_nil, Nat.sub_zero]
  · rw [completeErr_mem]
    exact out_write_other _ (by simp) ha

/-! ### The checks (R314, R315) -/

theorem checkLen_ok {slot : Byte} {len : Word} {n : Nat} (h : len.toNat = n) :
    checkLen slot len n = .ok () := by simp [checkLen, h]

theorem checkLen_bad {slot : Byte} {len : Word} {n : Nat} (h : len.toNat ≠ n) :
    checkLen slot len n =
      .error (.raised ⟨.badLength, slot, BitVec.ofNat 32 n, len, 0#8⟩) := by
  simp [checkLen, raise, h]

theorem checkMsg_ok {s : State} (h : s.msgLen.toNat ≤ Config.msgCap) : checkMsg s = .ok () := by
  simp [checkMsg, Nat.not_lt.mpr h]

theorem checkMsg_bad {s : State} (h : Config.msgCap < s.msgLen.toNat) :
    checkMsg s = .error (.raised ⟨.msgLength, 3#8, BitVec.ofNat 32 Config.msgCap, s.msgLen, 0#8⟩) := by
  simp [checkMsg, raise, h]

/-! ### The operand reads (R60) -/

theorem operandBytes_ok {s : State} {a n : Nat} {bs : List Byte} (h : s.mem.readBytes a n = some bs) :
    operandBytes s a n = .ok bs := by simp [operandBytes, h]

theorem operandBytes_unwritten {s : State} {a n : Nat} (h : s.mem.readBytes a n = none) :
    operandBytes s a n = .error .unwritten := by simp [operandBytes, h]

theorem readIn0_ok {s : State} {n : Nat} {bs : List Byte} (h : In0Holds s n bs) :
    readIn0 s n = .ok bs := operandBytes_ok h

theorem readIn1_ok {s : State} {n : Nat} {bs : List Byte} (h : In1Holds s n bs) :
    readIn1 s n = .ok bs := operandBytes_ok h

theorem readMsg_ok {s : State} {bs : List Byte} (h : MsgHolds s bs) : readMsg s = .ok bs :=
  operandBytes_ok h

theorem fieldA_ok {s : State} {bs : List Byte} (h : In0Holds s 32 bs) : fieldA s = .ok (leNat bs) := by
  rw [fieldA, readIn0_ok h]; rfl

theorem fieldB_ok {s : State} {bs : List Byte} (h : In1Holds s 32 bs) : fieldB s = .ok (leNat bs) := by
  rw [fieldB, readIn1_ok h]; rfl

theorem pointP_ok {s : State} {bs : List Byte} (h : In0Holds s 128 bs) :
    pointP s = .ok (ptRead bs) := by rw [pointP, readIn0_ok h]; rfl

theorem pointQ_ok {s : State} {bs : List Byte} (h : In1Holds s 128 bs) :
    pointQ s = .ok (ptRead bs) := by rw [pointQ, readIn1_ok h]; rfl

theorem scalarS_ok {s : State} {bs : List Byte} (h : In1Holds s 32 bs) :
    scalarS s = .ok (leNat bs) := by rw [scalarS, readIn1_ok h]; rfl

/-- A sequence of the `do` blocks, step by step. -/
@[simp] theorem except_ok_bind {α β : Type} (a : α) (f : α → Except Stop β) :
    (Except.ok a >>= f) = f a := rfl

@[simp] theorem except_error_bind {α β : Type} (e : Stop) (f : α → Except Stop β) :
    ((Except.error e : Except Stop α) >>= f) = .error e := rfl

/-! ### The commands -/

/-- The rule of each command, before its completion (R318). -/
def commandOf : Instr → State → Except Stop CmdResult
  | .fadd => faddCommand
  | .fsub => fsubCommand
  | .fmul => fmulCommand
  | .finv => finvCommand
  | .x25519Ladder => x25519LadderCommand
  | .x25519Shared strict => x25519SharedCommand strict
  | .x25519Public => x25519PublicCommand
  | .edwAdd => edwAddCommand
  | .edwDbl => edwDblCommand
  | .edwSmul => edwSmulCommand
  | .edwEq => edwEqCommand
  | .edwCompress => edwCompressCommand
  | .edwDecompress => edwDecompressCommand
  | .edwBase => fun _ => edwBaseCommand
  | .edwNeutral => fun _ => edwNeutralCommand
  | .edExpand => edExpandCommand
  | .edPubkey => edPubkeyCommand
  | .edSign => edSignCommand
  | .edVerify => edVerifyCommand

/-- Every instruction is the completion of its command. -/
theorem exec_eq_complete (i : Instr) (s : State) : exec i s = complete (commandOf i s) s := by
  cases i <;> rfl

/-- The inversion of `do` blocks: a sequence answers `ok` only through an answer of its first part. -/
theorem bind_eq_ok {α β : Type} {x : Except Stop α} {f : α → Except Stop β} {b : β} :
    (x >>= f) = .ok b ↔ ∃ a, x = .ok a ∧ f a = .ok b := by
  cases x <;> simp

/-- An answered command's OUT has the length of the table's OUT column, and only EDW_EQ and ED_VERIFY
can set RESULT (30_encoding.md R104, 10_state.md R41). -/
theorem commandOf_ok {i : Instr} {s : State} {r : CmdResult} (h : commandOf i s = .ok r) :
    r.out.length = outLength i ∧ (r.result = true → mayResult i = true) := by
  cases i <;> simp only [commandOf] at h
  case fadd => simp only [faddCommand, bind_eq_ok] at h; obtain ⟨_, _, _, _, _, _, _, _, h⟩ := h; cases h; simp [outLength]
  case fsub => simp only [fsubCommand, bind_eq_ok] at h; obtain ⟨_, _, _, _, _, _, _, _, h⟩ := h; cases h; simp [outLength]
  case fmul => simp only [fmulCommand, bind_eq_ok] at h; obtain ⟨_, _, _, _, _, _, _, _, h⟩ := h; cases h; simp [outLength]
  case finv => simp only [finvCommand, bind_eq_ok] at h; obtain ⟨_, _, _, _, h⟩ := h; cases h; simp [outLength]
  case x25519Ladder =>
    simp only [x25519LadderCommand, bind_eq_ok] at h
    obtain ⟨_, _, _, _, _, _, _, _, h⟩ := h; cases h; simp [outLength, x25519, encodeU]
  case x25519Shared =>
    simp only [x25519SharedCommand, bind_eq_ok] at h
    obtain ⟨_, _, _, _, _, _, _, _, h⟩ := h
    split at h
    · cases h
    · cases h; simp [outLength, x25519, encodeU]
  case x25519Public =>
    simp only [x25519PublicCommand, bind_eq_ok] at h
    obtain ⟨_, _, _, _, h⟩ := h; cases h; simp [outLength, x25519, encodeU]
  case edwAdd => simp only [edwAddCommand, bind_eq_ok] at h; obtain ⟨_, _, _, _, _, _, _, _, h⟩ := h; cases h; simp [outLength]
  case edwDbl => simp only [edwDblCommand, bind_eq_ok] at h; obtain ⟨_, _, _, _, h⟩ := h; cases h; simp [outLength]
  case edwSmul =>
    simp only [edwSmulCommand, bind_eq_ok] at h
    obtain ⟨_, _, _, _, _, _, h⟩ := h
    split at h
    · cases h
    · simp only [bind_eq_ok] at h
      obtain ⟨_, _, h⟩ := h; cases h; simp [outLength]
  case edwEq =>
    simp only [edwEqCommand, bind_eq_ok] at h
    obtain ⟨_, _, _, _, _, _, _, _, h⟩ := h; cases h; simp [outLength, boolResult, mayResult]
  case edwCompress => simp only [edwCompressCommand, bind_eq_ok] at h; obtain ⟨_, _, _, _, h⟩ := h; cases h; simp [outLength]
  case edwDecompress =>
    simp only [edwDecompressCommand] at h
    split at h
    · cases h
    · simp only [bind_eq_ok] at h
      obtain ⟨_, _, h⟩ := h
      split at h
      · cases h
      · cases h; simp [outLength]
  case edwBase => cases h; simp [outLength]
  case edwNeutral => cases h; simp [outLength]
  case edExpand => simp only [edExpandCommand, bind_eq_ok] at h; obtain ⟨_, _, _, _, h⟩ := h; cases h; simp [outLength]
  case edPubkey =>
    simp only [edPubkeyCommand, bind_eq_ok] at h
    obtain ⟨_, _, _, _, h⟩ := h; cases h; simp [outLength, secretToPublic]
  case edSign =>
    simp only [edSignCommand, bind_eq_ok] at h
    obtain ⟨_, _, _, _, _, _, _, _, h⟩ := h; cases h; simp [outLength]
  case edVerify =>
    simp only [edVerifyCommand, bind_eq_ok] at h
    obtain ⟨_, _, _, _, _, _, _, _, _, _, _, _, h⟩ := h; cases h; simp [outLength, boolResult, mayResult]

/-- The longest OUT is 128 bytes. -/
theorem outLength_le (i : Instr) : outLength i ≤ bufBytes := by
  cases i <;> simp [outLength, bufBytes]

/-- Everything an instruction can do when it answers a next state. -/
theorem exec_next {i : Instr} {s t : State} (h : exec i s = .next t) :
    (∃ r, commandOf i s = .ok r ∧ t = completeOk r s ∧ r.out.length = outLength i ∧
      CompletedOk s t r.out r.result) ∨
    (∃ e, commandOf i s = .error (.raised e) ∧ t = completeErr e s ∧
      CompletedErr s t e.code.number e.slot e.expected e.got e.info) := by
  rw [exec_eq_complete] at h
  rcases complete_next h with ⟨r, hr, rfl⟩ | ⟨e, he, rfl⟩
  · have hl := (commandOf_ok hr).1
    exact .inl ⟨r, hr, rfl, hl, completeOk_spec r s (hl ▸ outLength_le i)⟩
  · exact .inr ⟨e, he, rfl, completeErr_spec e s⟩

/-- An instruction's only fault is UNWRITTEN_OPERAND, and no instruction is refused. -/
theorem exec_stops {i : Instr} {s : State} :
    (∃ t, exec i s = .next t) ∨ exec i s = .fault .unwrittenOperand := by
  rw [exec_eq_complete]
  rcases complete_cases (commandOf i s) s with ⟨r, _, h⟩ | ⟨e, _, h⟩ | ⟨_, h⟩
  · exact .inl ⟨_, h⟩
  · exact .inl ⟨_, h⟩
  · exact .inr h

end Sys2Proof.Machine
end

