-- ==== Sys2Proof/Laws/Bus.lean ====
section
/-! SUPPORT. Everything a step can do: whose turn it is, and where a bus access goes
(spec/20_memory.md R71 to R76). -/

namespace Sys2Proof.Machine

/-! ### Turns -/

theorem step_host {s s' : State} (h : HostMoves s s') : step s = hostTurn s' := by
  rw [step, h]; rfl

theorem step_engine {s s' : State} (h : EngineMoves s s') : step s = engineTurn s' := by
  rw [step, h]; rfl

theorem step_reset {s s' : State} (h : ResetMoves s s') : step s = .next (resetCore s') := by
  rw [step, h]; rfl

/-- One of the three agents moves. -/
theorem turn_cases (s : State) :
    ∃ s', HostMoves s s' ∨ EngineMoves s s' ∨ ResetMoves s s' := by
  refine ⟨(nextTurn s).2, ?_⟩
  rcases h : (nextTurn s).1 with _ | _ | _
  · exact .inl (Prod.ext h rfl)
  · exact .inr (.inl (Prod.ext h rfl))
  · exact .inr (.inr (Prod.ext h rfl))

/-- Taking a turn off the order changes nothing but the order. -/
theorem nextTurn_state {s s' : State} {t : Turn} (h : nextTurn s = (t, s')) :
    s' = { s with sched := s.sched.tail } := by
  rw [nextTurn] at h
  split at h
  · rename_i hs
    cases h; rw [hs]; rfl
  · rename_i hs
    cases h; simp only [hs, List.tail_nil]; rw [← hs]

/-! ### The ENGINE's turn -/

theorem engineTurn_busy {s : State} (h : s.status.busy = true) : engineTurn s = runCommand s := by
  simp [engineTurn, h]

theorem engineTurn_idle {s : State} (h : s.status.busy = false) : engineTurn s = .next s := by
  simp [engineTurn, h]

theorem runCommand_legal {s : State} {i : Instr} (h : decodeWord s.cmd = .ok i) :
    runCommand s = exec i s := by simp [runCommand, h]

theorem runCommand_illegal {s : State} {e : DecodeError} (h : decodeWord s.cmd = .error e) :
    runCommand s = .next (completeErr ⟨.illegalCmd, 0#8, 0#32, s.cmd, 0#8⟩ s) := by
  simp [runCommand, h, execIllegal, raise]

/-! ### Where an access goes -/

/-- An access to a register is a 32-bit access to one of the offsets of the map. -/
theorem accessTarget_reg {a : Nat} {n : Width} {r : Reg} (h : accessTarget a n = some (.reg r)) :
    n = .w32 ∧ regAt a = some r := by
  unfold accessTarget at h
  split at h
  · cases h
  · split at h
    · split at h
      · cases h; exact ⟨rfl, by assumption⟩
      · cases h
    · cases h
    · cases h
    · cases h
    · split at h <;> cases h
    · cases h

theorem bytes_cases (n : Width) : n.bytes = 1 ∨ n.bytes = 2 ∨ n.bytes = 4 := by
  cases n <;> simp [Width.bytes]

/-- The map in numbers (10_state.md R33). -/
theorem regionOf_eq (a : Nat) : regionOf a =
    if a < 0x34 then .register else if a < 0x100 then .reserved else if a < 0x180 then .in0
    else if a < 0x200 then .in1 else if a < 0x280 then .out else if a < 0x1000 then .reserved
    else if a < 0x2000 then .msg else .reserved := rfl

theorem regionOf_in0 {a : Nat} : regionOf a = .in0 ↔ 0x100 ≤ a ∧ a < 0x180 := by
  rw [regionOf_eq]
  repeat' split
  all_goals simp
  all_goals omega

theorem regionOf_in1 {a : Nat} : regionOf a = .in1 ↔ 0x180 ≤ a ∧ a < 0x200 := by
  rw [regionOf_eq]
  repeat' split
  all_goals simp
  all_goals omega

theorem regionOf_out {a : Nat} : regionOf a = .out ↔ 0x200 ≤ a ∧ a < 0x280 := by
  rw [regionOf_eq]
  repeat' split
  all_goals simp
  all_goals omega

theorem regionOf_msg {a : Nat} : regionOf a = .msg ↔ 0x1000 ≤ a ∧ a < 0x2000 := by
  rw [regionOf_eq]
  repeat' split
  all_goals simp
  all_goals omega

theorem regionOf_register {a : Nat} : regionOf a = .register ↔ a < 0x34 := by
  rw [regionOf_eq]
  repeat' split
  all_goals simp
  all_goals omega

/-- OUT's offsets are the region `out`. -/
theorem isOutByte_iff {a : Nat} : IsOutByte a ↔ regionOf a = .out := by
  rw [regionOf_out]; simp [IsOutByte, outBase, bufBytes]

/-- An access to an operand buffer touches operand bytes alone. -/
theorem accessTarget_operand {a : Nat} {n : Width} (h : accessTarget a n = some .operand) :
    ∀ x, a ≤ x → x < a + n.bytes → IsOperandByte x := by
  unfold accessTarget at h
  have hn := bytes_cases n
  intro x h1 h2
  simp only [IsOperandByte, regionOf_in0, regionOf_in1, regionOf_msg]
  split at h
  · cases h
  · rename_i hal
    split at h
    · split at h <;> cases h
    · rename_i hr; rw [regionOf_in0] at hr; rcases hn with e | e | e <;> rw [e] at h2 hal <;> omega
    · rename_i hr; rw [regionOf_in1] at hr; rcases hn with e | e | e <;> rw [e] at h2 hal <;> omega
    · cases h
    · rename_i hr; rw [regionOf_msg] at hr; rcases hn with e | e | e <;> rw [e] at h2 hal <;> omega
    · cases h

/-- An access to OUT touches OUT's bytes alone. -/
theorem accessTarget_out {a : Nat} {n : Width} (h : accessTarget a n = some .out) :
    ∀ x, a ≤ x → x < a + n.bytes → IsOutByte x := by
  unfold accessTarget at h
  have hn := bytes_cases n
  intro x h1 h2
  rw [isOutByte_iff, regionOf_out]
  split at h
  · cases h
  · rename_i hal
    split at h
    · split at h <;> cases h
    · cases h
    · cases h
    · rename_i hr; rw [regionOf_out] at hr; rcases hn with e | e | e <;> rw [e] at h2 hal <;> omega
    · split at h <;> cases h
    · cases h

/-- Everything an admitted write can do. -/
theorem busWrite_cases {s t : State} {a : Nat} {n : Width} {v : Word} (h : busWrite s a n v = some t) :
    (∃ r, n = .w32 ∧ regAt a = some r ∧ t = writeReg s r v) ∨
    (accessTarget a n = some .operand ∧ s.status.busy = true ∧ t = dropWrite s) ∨
    (accessTarget a n = some .operand ∧ s.status.busy = false ∧
      t = { s with mem := s.mem.writeBytes a (leBytes n.bytes v.toNat) }) ∨
    (accessTarget a n = some .out ∧ t = s) := by
  unfold busWrite at h
  split at h
  · cases h
  · rename_i r hr
    cases h
    exact .inl ⟨r, (accessTarget_reg hr).1, (accessTarget_reg hr).2, rfl⟩
  · rename_i ht
    split at h
    · rename_i hb; cases h; exact .inr (.inl ⟨ht, hb, rfl⟩)
    · rename_i hb; cases h; exact .inr (.inr (.inl ⟨ht, by simpa using hb, rfl⟩))
  · rename_i ht; cases h; exact .inr (.inr (.inr ⟨ht, rfl⟩))

/-- Everything the HOST's turn can do when it answers a next state. -/
theorem hostTurn_cases {s t : State} (h : hostTurn s = .next t) :
    (s.host = [] ∧ t = s) ∨
    (∃ off n rest v, s.host = .read off n :: rest ∧ busRead s off n = some v ∧
      t = { s with host := rest, reads := v :: s.reads }) ∨
    (∃ off n v rest, s.host = .write off n v :: rest ∧
      busWrite { s with host := rest } off n v = some t) ∨
    (∃ rest, s.host = .poll :: rest ∧
      t = { s with host := if s.status.busy then s.host else rest,
                   reads := s.status.word :: s.reads }) := by
  unfold hostTurn at h
  split at h
  · rename_i hh; cases h; exact .inl ⟨hh, rfl⟩
  · rename_i off n rest hh
    split at h
    · rename_i v hv; cases h; exact .inr (.inl ⟨off, n, rest, v, hh, hv, rfl⟩)
    · cases h
  · rename_i off n v rest hh
    split at h
    · rename_i u hu; cases h; exact .inr (.inr (.inl ⟨off, n, v, rest, hh, hu⟩))
    · cases h
  · rename_i rest hh; cases h; exact .inr (.inr (.inr ⟨rest, hh, rfl⟩))

end Sys2Proof.Machine
end

