-- ==== Sys2Proof/Laws/PerInstr.lean ====
section
/-! SUPPORT. Per-instruction laws: the family `EncodedWord` says of every instruction that its word is
legal (spec/30_encoding.md R101) and that the decoder reads the instruction back from its byte lanes. -/

namespace Sys2Proof.Laws.EncodedWord

/-- The instruction is well formed, its word is legal, and the table's word decodes to it. -/
def Statement (i : Instr) : Prop :=
  i.wellFormed = true ∧ legalWord (encode i) = true ∧ decodeTableWord 32 (encode i).toNat = some i

theorem fadd : Statement .fadd := ⟨rfl, by decide, by decide⟩
theorem fsub : Statement .fsub := ⟨rfl, by decide, by decide⟩
theorem fmul : Statement .fmul := ⟨rfl, by decide, by decide⟩
theorem finv : Statement .finv := ⟨rfl, by decide, by decide⟩
theorem x25519Ladder : Statement .x25519Ladder := ⟨rfl, by decide, by decide⟩
theorem x25519Shared (strict : Bool) : Statement (.x25519Shared strict) := by
  cases strict
  · exact ⟨rfl, by decide, by decide⟩
  · exact ⟨rfl, by decide, by decide⟩
theorem x25519Public : Statement .x25519Public := ⟨rfl, by decide, by decide⟩
theorem edwAdd : Statement .edwAdd := ⟨rfl, by decide, by decide⟩
theorem edwDbl : Statement .edwDbl := ⟨rfl, by decide, by decide⟩
theorem edwSmul : Statement .edwSmul := ⟨rfl, by decide, by decide⟩
theorem edwEq : Statement .edwEq := ⟨rfl, by decide, by decide⟩
theorem edwCompress : Statement .edwCompress := ⟨rfl, by decide, by decide⟩
theorem edwDecompress : Statement .edwDecompress := ⟨rfl, by decide, by decide⟩
theorem edwBase : Statement .edwBase := ⟨rfl, by decide, by decide⟩
theorem edwNeutral : Statement .edwNeutral := ⟨rfl, by decide, by decide⟩
theorem edExpand : Statement .edExpand := ⟨rfl, by decide, by decide⟩
theorem edPubkey : Statement .edPubkey := ⟨rfl, by decide, by decide⟩
theorem edSign : Statement .edSign := ⟨rfl, by decide, by decide⟩
theorem edVerify : Statement .edVerify := ⟨rfl, by decide, by decide⟩

end Sys2Proof.Laws.EncodedWord
end

