-- ==== Sys2Proof/Laws/Window.lean ====
section
/-! SUPPORT. The window at BASE: an offset and its bus address are the same place, with the same
alignment (spec/00_scope.md R7). -/

namespace Sys2Proof.Machine

/-- The bus address BASE + a is offset a of the window, for every BASE. -/
theorem windowOffset_base {a : Nat} (h : a < 0x2000) : windowOffset (Config.base + a) = some a := by
  simp [windowOffset, h]

/-- Natural alignment at the bus is natural alignment in the window (R74), since BASE is a multiple of
0x2000. -/
theorem base_aligned (n : Width) (a : Nat) : (Config.base + a) % n.bytes = a % n.bytes := by
  have : Config.base = 0x2000 * Config.baseIndex := rfl
  cases n <;> simp only [Width.bytes] <;> omega

end Sys2Proof.Machine
end

