-- ==== Sys2Proof/Tests/Slice0.lean ====
section
/-! SUPPORT. The model's own tests. Expected results are the spec's: the words of 30_encoding.md R104, the
vectors V-… of 95_test_vectors.md. Then, for every statement with hypotheses, a state and operands that meet
them (`witness_…`). -/

namespace Sys2Proof.Tests

open Sys2Proof Sys2Proof.Machine

set_option Elab.async false

/-! ### WellFormed: one illegal word per check, and a legal neighbour (95_test_vectors.md section 7) -/

/-- V-60-2: an undefined opcode fails the first check. -/
theorem test_legal_refuses_opcode : legalWord 0x00000005#32 = false := by decide
/-- V-60-5: STRICT on X25519_LADDER fails the second check. -/
theorem test_legal_refuses_strict : legalWord 0x00000110#32 = false := by decide
/-- V-60-6, V-60-8: a reserved bit fails the second check. -/
theorem test_legal_refuses_reserved :
    legalWord 0x00000211#32 = false ∧ legalWord 0x80000001#32 = false := by decide
/-- V-41-5: STRICT on X25519_SHARED passes both. -/
theorem test_legal_accepts_strict_shared : legalWord 0x00000111#32 = true := by decide

/-! ### Decoding words written out from R104 -/

theorem test_decode_field : decodeWord 0x00000001#32 = .ok .fadd ∧ decodeWord 0x00000002#32 = .ok .fsub ∧
    decodeWord 0x00000003#32 = .ok .fmul ∧ decodeWord 0x00000004#32 = .ok .finv := by decide
theorem test_decode_x25519 : decodeWord 0x00000010#32 = .ok .x25519Ladder ∧
    decodeWord 0x00000011#32 = .ok (.x25519Shared false) ∧
    decodeWord 0x00000111#32 = .ok (.x25519Shared true) ∧
    decodeWord 0x00000012#32 = .ok .x25519Public := by decide
theorem test_decode_edwards : decodeWord 0x00000020#32 = .ok .edwAdd ∧
    decodeWord 0x00000021#32 = .ok .edwDbl ∧ decodeWord 0x00000022#32 = .ok .edwSmul ∧
    decodeWord 0x00000023#32 = .ok .edwEq ∧ decodeWord 0x00000024#32 = .ok .edwCompress ∧
    decodeWord 0x00000025#32 = .ok .edwDecompress ∧ decodeWord 0x00000026#32 = .ok .edwBase ∧
    decodeWord 0x00000027#32 = .ok .edwNeutral := by decide
theorem test_decode_ed25519 : decodeWord 0x00000030#32 = .ok .edExpand ∧
    decodeWord 0x00000031#32 = .ok .edPubkey ∧ decodeWord 0x00000032#32 = .ok .edSign ∧
    decodeWord 0x00000033#32 = .ok .edVerify := by decide
/-- V-60-1 to V-60-7. -/
theorem test_decode_illegal : decodeWord 0x00000000#32 = .error .reservedOpcode ∧
    decodeWord 0x000000FF#32 = .error .reservedOpcode ∧
    decodeWord 0x00000110#32 = .error .strictNotAllowed ∧
    decodeWord 0x10000011#32 = .error .reservedBits := by decide
/-- A command word is four byte lanes, least significant first (20_memory.md R77). -/
theorem test_decode_bytes : decodeBytes [0x11#8, 0x01#8, 0x00#8, 0x00#8, 0xAB#8] =
    .ok (.x25519Shared true, [0xAB#8]) ∧
    decodeBytes [0x11#8, 0x01#8, 0x00#8] = .error .truncated := by decide

/-! ### A small machine -/

/-- `bytes` in memory from `base` on. -/
def cells (base : Nat) : List Byte → Memory
  | [] => []
  | b :: bytes => (base, b) :: cells (base + 1) bytes

/-- IDLE, with IN0, IN1 and MSG holding what is given. -/
def load (len0 len1 msgLen : Nat) (in0 in1 msg : List Byte) : State :=
  { State.reset with
    len0 := BitVec.ofNat 32 len0
    len1 := BitVec.ofNat 32 len1
    msgLen := BitVec.ofNat 32 msgLen
    mem := cells in0Base in0 ++ (cells in1Base in1 ++ cells msgBase msg) }

/-- The next step's state is one of which `p` holds. -/
def next (o : Host.Outcome State Fault Refusal) (p : State → Bool) : Bool :=
  match o with
  | .next t => p t
  | .fault _ => false
  | .refused _ => false

/-- STATUS, OUT_LEN and OUT[0 +: OUT_LEN] are as given. -/
def shows (status : Word) (out : List Byte) (t : State) : Bool :=
  t.status.word == status && t.outLen.toNat == out.length &&
    t.mem.readBytes outBase out.length == some out

/-- STATUS and the error record are as given, and OUT_LEN is 0. -/
def errs (status : Word) (slot : Byte) (expected got : Word) (info : Byte) (t : State) : Bool :=
  t.status.word == status && t.outLen == 0#32 && t.errSlot == slot && t.errExpected == expected &&
    t.errGot == got && t.errInfo == info && t.mem.readBytes outBase 128 == some (zeros 128)

/-- The step of the state in which `i` was just started from `s`. -/
def run (i : Instr) (s : State) : Host.Outcome State Fault Refusal :=
  step (s.withFetchWord 32 (encode i).toNat)

/-! ### One step per instruction (95_test_vectors.md) -/

/-- V-40-2: (2^256 − 1) + (2^256 − 1) = 74. -/
theorem test_fadd_noncanonical : next (run .fadd (load 32 32 0 (le32 (2 ^ 256 - 1)) (le32 (2 ^ 256 - 1)) []))
    (shows 0x2#32 (le32 74)) = true := by decide +kernel
/-- V-40-7: 0 − (2^256 − 1) = p − 37. -/
theorem test_fsub_borrow : next (run .fsub (load 32 32 0 (le32 0) (le32 (2 ^ 256 - 1)) []))
    (shows 0x2#32 (0xc8#8 :: (List.replicate 30 0xff#8 ++ [0x7f#8]))) = true := by decide +kernel
/-- V-40-9: 37² = 0x559. -/
theorem test_fmul_full_product : next (run .fmul (load 32 32 0 (le32 (2 ^ 256 - 1)) (le32 (2 ^ 256 - 1)) []))
    (shows 0x2#32 (0x59#8 :: 0x05#8 :: List.replicate 30 0#8)) = true := by decide +kernel
/-- V-40-19: LEN1 = 31. -/
theorem test_fmul_bad_length : next (run .fmul (load 32 31 0 (le32 3) (le32 5) []))
    (errs 0x206#32 2#8 32#32 31#32 0#8) = true := by decide +kernel
/-- V-40-23: IN1 never written. -/
theorem test_fmul_unwritten : run .fmul (load 32 32 0 (le32 3) [] []) matches .fault .unwrittenOperand := by
  decide +kernel
/-- V-40-17: the inverse of 15. -/
theorem test_finv_15 : next (run .finv (load 32 0 0 (le32 15) [] []))
    (shows 0x2#32 (0xd0#8 :: (List.replicate 30 0xdd#8 ++ [0x5d#8]))) = true := by decide +kernel
/-- V-40-16: p ≡ 0 inverts to 0 with no error. -/
theorem test_finv_zero : next (run .finv (load 32 0 0 (le32 fieldPrime) [] []))
    (shows 0x2#32 (zeros 32)) = true := by decide +kernel

/-- V-L1-3: RFC 7748 5.2 vector 1. -/
theorem test_ladder_vector : next (run .x25519Ladder (load 32 32 0
      (le32 0xc49a44ba44226a50185afcc10a4c1462dd5e46824b15163b9d7c52f06be346a5)
      (le32 0x4c1cabd0a603a9103b35b326ec2466727c5fb124a4c19435db3030586768dbe6) []))
    (shows 0x2#32 (le32 0x5285a2775507b454f7711c4903cfec324f088df24dea948e90c6e99d3755dac3)) = true := by
  decide +kernel
/-- V-41-8b: a non-canonical u, p + 9, is accepted (vector 1's k). -/
theorem test_ladder_noncanonical_u : next (run .x25519Ladder (load 32 32 0
      (le32 0xc49a44ba44226a50185afcc10a4c1462dd5e46824b15163b9d7c52f06be346a5)
      (le32 (fieldPrime + 9)) []))
    (shows 0x2#32 (le32 0x1970ae4f612e8500e0e838de773ed7151d15ae2418c7802a936d60458fd89f1c)) = true := by
  decide +kernel
/-- V-41-4: u = 0 without STRICT is ordinary data. -/
theorem test_shared_zero : next (run (.x25519Shared false) (load 32 32 0 (le32 9) (le32 0) []))
    (shows 0x2#32 (zeros 32)) = true := by decide +kernel
/-- V-41-5: with STRICT it is ZERO_SHARED_SECRET. -/
theorem test_shared_zero_strict : next (run (.x25519Shared true) (load 32 32 0 (le32 9) (le32 0) []))
    (errs 0x606#32 0#8 0#32 0#32 0#8) = true := by decide +kernel
/-- V-41-9: Alice's public key; IN1 is not read. -/
theorem test_public_alice : next (run .x25519Public (load 32 0 0
      (le32 0x2a2cb91da5fb77b12a99c0eb872f4cdf4566b25172c1163c7da518730a6d0777) [] []))
    (shows 0x2#32 (le32 0x6a4e9baa8ea9a4ebf41a38260d3abf0d5af73eb4dc7d8b7454a7308909f02085)) = true := by
  decide +kernel

/-- V-42-3: edw_add(G, N) = (4Gx, 4Gy, 4, 4Gt), its Z and, little-endian, its Y. -/
theorem test_add_neutral : (edwAdd basePoint neutralPoint).Z = 4 ∧
    le32 (edwAdd basePoint neutralPoint).Y = List.replicate 31 0x99#8 ++ [0x19#8] := by decide +kernel
/-- V-42-1: edw_add(G, G) and edw_dbl(G) have different X. -/
theorem test_add_dbl_base :
    (edwAdd basePoint basePoint).X = 0x3b6f8891960f6ad45776d1e1213c1bd9de44f888163a76921515e6cf9f3fd67e ∧
    (edwDbl basePoint).X = 0x31241ddb9a7c254aea224b87b7b0f909886ec1ddfa71625b7aba864c18300a57 := by
  decide +kernel
/-- V-42-2, V-42-18: but they are the same point, and G is not N. -/
theorem test_eq : edwEq (edwDbl basePoint) (edwAdd basePoint basePoint) = true ∧
    edwEq basePoint neutralPoint = false := by decide +kernel
/-- V-42-4: EDW_ADD(N, N) has Y = 4. -/
theorem test_add_step : next (run .edwAdd (load 128 128 0 (ptBytes neutralPoint) (ptBytes neutralPoint) []))
    (fun t => t.outLen == 128#32 && t.mem.readBytes (outBase + 32) 32 == some (le32 4)) = true := by
  decide +kernel
/-- EDW_EQ(N, N): STATUS = DONE | RESULT, OUT = 01. -/
theorem test_eq_step : next (run .edwEq (load 128 128 0 (ptBytes neutralPoint) (ptBytes neutralPoint) []))
    (shows 0xA#32 [1#8]) = true := by decide +kernel
/-- V-42-6e: −G compresses with the sign bit set. -/
theorem test_compress_negative : next (run .edwCompress (load 128 0 0
      (ptBytes ⟨fieldPrime - basePoint.X, basePoint.Y, 1, fieldPrime - basePoint.T⟩) [] []))
    (shows 0x2#32 (0x58#8 :: (List.replicate 30 0x66#8 ++ [0xe6#8]))) = true := by decide +kernel
/-- V-42-9: the encoding of G gives back G. -/
theorem test_decompress_base : next (run .edwDecompress (load 32 0 0
      (0x58#8 :: List.replicate 31 0x66#8) [] []))
    (shows 0x2#32 (ptBytes basePoint)) = true := by decide +kernel
/-- V-42-12, V-42-15: y = 2 has no root (reason 3); 50 bytes is reason 1. -/
theorem test_decompress_failures :
    next (run .edwDecompress (load 32 0 0 (le32 2) [] [])) (errs 0x506#32 1#8 0#32 0#32 3#8) = true ∧
    next (run .edwDecompress (load 50 0 0 (le32 2) [] [])) (errs 0x506#32 1#8 32#32 50#32 1#8) = true := by
  decide +kernel
/-- V-42-7: the first command after reset may be EDW_BASE. -/
theorem test_base_from_reset : next (run .edwBase State.reset)
    (fun t => t.mem.readBytes outBase 32 ==
      some (le32 0x216936d3cd6e53fec0a4e231fdd6dc5c692cc7609525a7b2c9562d608f25d51a)) = true := by decide +kernel
/-- V-42-8. -/
theorem test_neutral : next (run .edwNeutral State.reset)
    (shows 0x2#32 (zeros 32 ++ 1#8 :: (zeros 31 ++ 1#8 :: (zeros 31 ++ zeros 32)))) = true := by
  decide +kernel
/-- V-43-1: s = 0 gives exactly N. -/
theorem test_smul_zero : next (run .edwSmul (load 128 32 0 (ptBytes basePoint) (le32 0) []))
    (shows 0x2#32 (ptBytes ⟨0, 1, 1, 0⟩)) = true := by decide +kernel
/-- V-43-9: bit 255 of the scalar. -/
theorem test_smul_range : next (run .edwSmul (load 128 32 0 (ptBytes basePoint) (le32 (2 ^ 255)) []))
    (errs 0x406#32 2#8 0#32 0#32 0#8) = true := by decide +kernel
/-- V-43-4: 3G, compressed. -/
theorem test_smul_three : compress (edwSmul basePoint 3) =
    le32 0x1267b1d177ee69aba126a18e60269ef79f16ec176724030402c3684878f5b4d4 := by decide +kernel
/-- V-43-5: qG is the neutral point. -/
theorem test_smul_order : compress (edwSmul basePoint groupOrder) = le32 1 := by decide +kernel
/-- ED_EXPAND with LEN0 = 33. -/
theorem test_expand_bad_length : next (run .edExpand (load 33 0 0 (le32 0) [] []))
    (errs 0x206#32 1#8 32#32 33#32 0#8) = true := by decide +kernel
/-- V-L1-5: ED_PUBKEY with LEN0 = 44. -/
theorem test_pubkey_bad_length : next (run .edPubkey (load 44 0 0 (le32 0) [] []))
    (errs 0x206#32 1#8 32#32 44#32 0#8) = true := by decide +kernel
/-- V-44-12, V-44-15: MSG_LEN = 4097; the key's length is checked first. -/
theorem test_sign_lengths :
    next (run .edSign (load 32 0 4097 [] [] [])) (errs 0x306#32 3#8 4096#32 4097#32 0#8) = true ∧
    next (run .edSign (load 33 0 5000 [] [] [])) (errs 0x206#32 1#8 32#32 33#32 0#8) = true := by decide +kernel
/-- V-44-13, V-44-14: the first failing check only. -/
theorem test_verify_lengths :
    next (run .edVerify (load 31 63 5000 [] [] [])) (errs 0x206#32 1#8 32#32 31#32 0#8) = true ∧
    next (run .edVerify (load 32 64 5000 [] [] [])) (errs 0x306#32 3#8 4096#32 5000#32 0#8) = true := by
  decide +kernel
/-- V-44-9: a public key that does not decompress gives RESULT = 0, no error. -/
theorem test_verify_bad_key : next (run .edVerify (load 32 64 0 (le32 2) (zeros 64) []))
    (shows 0x2#32 [0#8]) = true := by decide +kernel

/-! ### The bus (95_test_vectors.md sections 7 and 8) -/

/-- The HOST about to issue `ops`. -/
def issuing (ops : List BusOp) (s : State) : State := { s with host := ops }

/-- V-60-2: an illegal word completes with itself in ERR_GOT. -/
theorem test_illegal_word : next (step (State.reset.withFetchWord 32 0x5))
    (errs 0x106#32 0#8 0#32 5#32 0#8) = true := by decide +kernel
/-- P4 line 5: the start clears the record and lowers `irq`. -/
theorem test_cmd_write_starts : next (step (issuing [.write 4 .w32 0x26#32]
      { State.reset with doneIe := true, errGot := 5#32,
                         status := { Status.reset with done := true, err := true, errcode := 1#8 } }))
    (fun t => t.status.word == 1#32 && t.cmd == 0x26#32 && t.errGot == 0#32 && !t.irq) = true := by decide
/-- P4 lines 6 to 9: dropped writes, STATUS = 0x31. -/
theorem test_busy_drops : next (turnStep .host (issuing [.write 4 .w32 0x27#32] (startCommand 0x26#32 State.reset)))
      (fun t => t.status.word == 0x11#32 && t.cmd == 0x26#32) = true ∧
    next (turnStep .host (issuing [.write 0x100 .w32 0xDEADBEEF#32] (startCommand 0x26#32 State.reset)))
      (fun t => t.status.word == 0x21#32 && t.mem == []) = true := by decide
/-- P4 line 13: the sticky flags clear. -/
theorem test_status_w1c : (Status.clearW1C ⟨true, false, false, false, true, true, 0#8⟩ 0x30#32).word = 1#32 := by
  decide
/-- V-60-11 to V-60-13: reserved offset, sub-word register access, misaligned access. -/
theorem test_bus_errors : busRead State.reset 0x034 .w32 = none ∧ busRead State.reset 0x008 .w8 = none ∧
    busRead State.reset 0x101 .w32 = none := by decide
/-- V-60-14: ID still reads 0x25519001 after a write. -/
theorem test_id_read_only : (busWrite State.reset 0x000 .w32 0#32).bind (busRead · 0x000 .w32) =
    some 0x25519001#32 := by decide
/-- V-60-15: IRQ_EN's reserved bits. -/
theorem test_irq_en : (busWrite State.reset 0x00C .w32 0xFFFFFFFF#32).bind (busRead · 0x00C .w32) =
    some 1#32 := by decide
/-- P1: R32 of OUT after the inverse of 15. -/
theorem test_read_out_words : next (run .finv (load 32 0 0 (le32 15) [] [])) (fun t =>
    busRead t 0x200 .w32 == some 0xDDDDDDD0#32 && busRead t 0x21C .w32 == some 0x5DDDDDDD#32) = true := by
  decide +kernel
/-- R110: WB stores the bytes in order; RUN, STRICT writes bit 8. -/
theorem test_pseudo : progWB 0x100 [1#8, 2#8, 3#8, 4#8, 5#8] =
      [.write 0x100 .w32 0x04030201#32, .write 0x104 .w8 5#32] ∧
    progRun (.x25519Shared false) true = [.write 4 .w32 0x111#32, .poll] ∧
    progRun .x25519Ladder true = [.write 4 .w32 0x110#32, .poll] ∧
    progRun .edSign false = [.write 4 .w32 0x032#32, .poll] := by decide

/-! ### Witnesses: a state and operands that meet each statement's hypotheses -/

/-- IN0 and IN1 full, MSG with four bytes, the lengths as given. -/
def full (len0 len1 msgLen : Nat) : State := load len0 len1 msgLen (List.replicate 128 1#8) (List.replicate 128 1#8)
  (List.replicate 4 1#8)

/-- A state in which the HOST moves, with `ops` to issue, BUSY as given. -/
def hostState (busy : Bool) (ops : List BusOp) : State :=
  { full 32 32 0 with host := ops, sched := [.host], status := { Status.reset with busy := busy } }

/-- The same after its turn is taken off the order. -/
def hostState' (busy : Bool) (ops : List BusOp) : State := { hostState busy ops with sched := [] }

theorem host_moves (busy : Bool) (ops : List BusOp) : HostMoves (hostState busy ops) (hostState' busy ops) := rfl

theorem witness_StepRunsDecodedCommand :
    EngineMoves (State.reset.withFetchWord 32 0x26) (startCommand 0x26#32 State.reset) ∧
    (startCommand 0x26#32 State.reset).status.busy = true ∧
    decodeWord (startCommand 0x26#32 State.reset).cmd = .ok .edwBase := by decide
theorem witness_IllegalWordCompletesWithItsWord :
    EngineMoves (State.reset.withFetchWord 32 0x110) (startCommand 0x110#32 State.reset) ∧
    (startCommand 0x110#32 State.reset).status.busy = true ∧
    legalWord (startCommand 0x110#32 State.reset).cmd = false := by decide
theorem witness_CommandsCompleteAtomically :
    next (exec .edwNeutral State.reset) (fun _ => true) = true ∧
    next (exec .fadd State.reset) (fun _ => true) = true := by decide +kernel
/-- For CompletionRaisesEnabledInterrupt too. -/
theorem witness_exec_next : next (exec .edwBase { State.reset with doneIe := true }) (·.irq) = true := by
  decide +kernel
theorem witness_OutcomeDependsOnlyOnInputs :
    SameInputs State.reset { State.reset with doneIe := true, cmd := 7#32 } :=
  ⟨rfl, rfl, rfl, fun _ _ => rfl⟩
/-- Clause 1, at the boundary MSG_LEN = 0, and with a fault for clause 2 of OutcomeDependsOnlyOnInputs. -/
theorem witness_CommandsCompleteOnWrittenOperands : OperandsWritten .edVerify (full 32 64 0) ∧
    exec .fadd (load 32 32 0 (le32 3) [] []) matches .fault .unwrittenOperand := by
  refine ⟨⟨?_, ?_, ?_⟩, by decide +kernel⟩
  · rintro n hn; obtain rfl : 32 = n := by simpa [requiredLen0] using hn
    decide +kernel
  · rintro n hn; obtain rfl : 64 = n := by simpa [requiredLen1] using hn
    decide +kernel
  · intro _; decide +kernel
/-- Clause 2, one above the boundary of MSG_LEN. -/
theorem witness_LengthsFail : ¬ LengthsPass .edSign (full 32 0 4097) :=
  fun h => absurd (h.msgLen rfl) (by decide)
theorem witness_UnwrittenOperandStopsTheCommand :
    (Instr.fadd ≠ .edwSmul ∧ LengthsPass .fadd (load 32 32 0 (le32 3) [] []) ∧
      ¬ OperandsWritten .fadd (load 32 32 0 (le32 3) [] [])) ∧
    (LengthsPass .edwSmul (load 128 32 0 [] [] []) ∧
      (load 128 32 0 [] [] []).mem.readBytes in1Base 32 = none) ∧
    (LengthsPass .edwSmul (load 128 32 0 [] (le32 (2 ^ 255 - 1)) []) ∧
      In1Holds (load 128 32 0 [] (le32 (2 ^ 255 - 1)) []) 32 (le32 (2 ^ 255 - 1)) ∧
      leNat (le32 (2 ^ 255 - 1)) < 2 ^ 255 ∧
      (load 128 32 0 [] (le32 (2 ^ 255 - 1)) []).mem.readBytes in0Base 128 = none) := by
  have pass128 (b : List Byte) (s : State) (hs : s = load 128 32 0 [] b []) : LengthsPass .edwSmul s := by
    subst hs
    refine ⟨?_, ?_, nofun⟩
    · rintro n hn; obtain rfl : 128 = n := by simpa [requiredLen0] using hn
      rfl
    · rintro n hn; obtain rfl : 32 = n := by simpa [requiredLen1] using hn
      rfl
  refine ⟨⟨by decide, ⟨?_, ?_, nofun⟩, ?_⟩, ⟨pass128 _ _ rfl, by decide +kernel⟩,
    pass128 _ _ rfl, by decide +kernel, by decide +kernel, by decide +kernel⟩
  · rintro n hn; obtain rfl : 32 = n := by simpa [requiredLen0] using hn
    rfl
  · rintro n hn; obtain rfl : 32 = n := by simpa [requiredLen1] using hn
    rfl
  · intro h
    have := h.in1 32 rfl
    exact absurd this (by decide +kernel)

/-- The length clauses of every command statement: one below, one above, and the exact length. -/
theorem witness_length_clauses :
    (full 31 32 0).len0.toNat ≠ 32 ∧ (full 33 32 0).len0.toNat ≠ 32 ∧
    ((full 32 31 0).len0.toNat = 32 ∧ (full 32 31 0).len1.toNat ≠ 32) ∧
    ((full 32 33 0).len0.toNat = 32 ∧ (full 32 33 0).len1.toNat ≠ 32) ∧
    (full 127 128 0).len0.toNat ≠ 128 ∧
    ((full 128 129 0).len0.toNat = 128 ∧ (full 128 129 0).len1.toNat ≠ 128) ∧
    ((full 128 33 0).len0.toNat = 128 ∧ (full 128 33 0).len1.toNat ≠ 32) ∧
    ((full 32 63 0).len0.toNat = 32 ∧ (full 32 63 0).len1.toNat ≠ 64) ∧
    ((full 32 64 4097).len0.toNat = 32 ∧ (full 32 64 4097).len1.toNat = 64 ∧
      4096 < (full 32 64 4097).msgLen.toNat) := by decide
/-- FADD, FSUB, FMUL, X25519_LADDER and X25519_SHARED (two operands of 32 bytes); FINV, X25519_PUBLIC, ED_EXPAND and
ED_PUBKEY (the first alone); ED_SIGN with MSG_LEN = 0 and with the longest message of this state. -/
theorem witness_operands_32 :
    (full 32 32 4).len0.toNat = 32 ∧ (full 32 32 4).len1.toNat = 32 ∧ (full 32 32 4).msgLen.toNat ≤ 4096 ∧
    In0Holds (full 32 32 4) 32 (List.replicate 32 1#8) ∧ In1Holds (full 32 32 4) 32 (List.replicate 32 1#8) ∧
    MsgHolds (full 32 32 4) (List.replicate 4 1#8) ∧ MsgHolds (full 32 32 0) [] := by decide +kernel
/-- ED_VERIFY. -/
theorem witness_operands_verify :
    (full 32 64 4).len0.toNat = 32 ∧ (full 32 64 4).len1.toNat = 64 ∧ (full 32 64 4).msgLen.toNat ≤ 4096 ∧
    In0Holds (full 32 64 4) 32 (List.replicate 32 1#8) ∧ In1Holds (full 32 64 4) 64 (List.replicate 64 1#8) ∧
    MsgHolds (full 32 64 4) (List.replicate 4 1#8) := by decide +kernel
/-- `full 32 64 4096` with `msg` written to MSG. -/
def withMsg (msg : List Byte) : State :=
  { full 32 64 4096 with mem := Memory.writeBytes (full 32 64 0).mem msgBase msg }

/-- A string below MSG is what it was before the message was written. -/
theorem withMsg_below (msg : List Byte) {a n : Nat} (h : a + n ≤ msgBase) :
    (withMsg msg).mem.readBytes a n = (full 32 64 0).mem.readBytes a n :=
  readBytes_congr fun _ _ _ => read_writeBytes_other (by omega)

/-- ED_SIGN and ED_VERIFY at the boundary MSG_LEN = MSG_CAP. -/
theorem witness_longest_message (msg : List Byte) (h : msg.length = 4096) :
    (withMsg msg).len0.toNat = 32 ∧ (withMsg msg).len1.toNat = 64 ∧ (withMsg msg).msgLen.toNat = 4096 ∧
    In0Holds (withMsg msg) 32 (List.replicate 32 1#8) ∧ In1Holds (withMsg msg) 64 (List.replicate 64 1#8) ∧
    MsgHolds (withMsg msg) msg := by
  refine ⟨rfl, rfl, rfl, ?_, ?_, ?_⟩
  · rw [In0Holds, withMsg_below msg (by decide)]; decide +kernel
  · rw [In1Holds, withMsg_below msg (by decide)]; decide +kernel
  · have e : (withMsg msg).msgLen.toNat = msg.length := by rw [h]; rfl
    rw [MsgHolds, e]
    exact readBytes_writeBytes _ msgBase msg
/-- There is such a message. -/
theorem witness_longest_message_exists : ∃ msg : List Byte, msg.length = 4096 :=
  ⟨List.replicate 4096 1#8, List.length_replicate⟩
/-- EDW_ADD, EDW_EQ; EDW_DBL and EDW_COMPRESS (the first operand alone), with Z ≡ 0 and with Z = 1. -/
theorem witness_operands_128 :
    let s := load 128 128 0 (le32 (2 ^ 256 - 1) ++ le32 1 ++ le32 1 ++ le32 0)
      (le32 0 ++ le32 1 ++ le32 fieldPrime ++ le32 0) []
    s.len0.toNat = 128 ∧ s.len1.toNat = 128 ∧
    In0Holds s 128 (le32 (2 ^ 256 - 1) ++ le32 1 ++ le32 1 ++ le32 0) ∧
    In1Holds s 128 (le32 0 ++ le32 1 ++ le32 fieldPrime ++ le32 0) := by decide +kernel
/-- ZeroUGivesZeroSecret: u = p and u = 2^255 (masked to 0). -/
theorem witness_ZeroUGivesZeroSecret :
    let s := load 32 32 0 (le32 9) (le32 fieldPrime) []
    s.len0.toNat = 32 ∧ s.len1.toNat = 32 ∧ In0Holds s 32 (le32 9) ∧ In1Holds s 32 (le32 fieldPrime) ∧
    leNat (le32 fieldPrime) % 2 ^ 255 % (2 ^ 255 - 19) = 0 ∧
    leNat (le32 (2 ^ 255)) % 2 ^ 255 % (2 ^ 255 - 19) = 0 := by decide +kernel
theorem witness_ClampingIsNotModular :
    (le32 fieldPrime).length = 32 ∧ 2 ^ 255 - 19 ≤ leNat (le32 fieldPrime) ∧
    2 ^ 255 - 19 ≤ leNat (le32 (2 ^ 256 - 1)) := by decide +kernel
theorem witness_UCoordinateRoundTrip :
    (le32 (fieldPrime - 1)).length = 32 ∧ leNat (le32 (fieldPrime - 1)) < 2 ^ 255 - 19 ∧
    fieldPrime - 1 < 2 ^ 255 - 19 := by decide +kernel
theorem witness_FieldInverseLaws : (1 : Nat) ≤ fieldPrime * 1 := by decide
/-- EDW_DECOMPRESS: each clause's operand. y = p; y = 1 with x = 0; y = 1 with sign 1. -/
theorem witness_DecompressFindsTheCurvePoint :
    let s := load 32 0 0 (le32 fieldPrime) [] []
    let t := load 32 0 0 (le32 (2 ^ 255 + 1)) [] []
    let v := load 32 0 0 (le32 1) [] []
    (load 33 0 0 [] [] []).len0.toNat ≠ 32 ∧
    (s.len0.toNat = 32 ∧ In0Holds s 32 (le32 fieldPrime) ∧
      2 ^ 255 - 19 ≤ leNat (le32 fieldPrime) % 2 ^ 255) ∧
    (t.len0.toNat = 32 ∧ In0Holds t 32 (le32 (2 ^ 255 + 1)) ∧
      leNat (le32 (2 ^ 255 + 1)) % 2 ^ 255 = 1 ∧ leNat (le32 (2 ^ 255 + 1)) / 2 ^ 255 = 1) ∧
    (v.len0.toNat = 32 ∧ In0Holds v 32 (le32 1) ∧ leNat (le32 1) % 2 ^ 255 = 1 ∧
      leNat (le32 1) / 2 ^ 255 = 0) := by decide +kernel
/-- The points (0, 1) and, for reason 4, y = 1 are on the curve. -/
theorem witness_OnCurve : OnCurve ((0 : Nat) : ZMod fieldPrime) ((1 : Nat) : ZMod fieldPrime) ∧
    OnCurve 0 ((1 : Nat) : ZMod fieldPrime) := by
  constructor <;> simp [OnCurve]
/-- EDW_DECOMPRESS, reason 3 (V-42-12): no x is on the curve with y = 2, since 3 · (1 + 4d) is no square. -/
theorem witness_no_root : ∀ x : ZMod fieldPrime, ¬ OnCurve x ((leNat (le32 2) % 2 ^ 255 : Nat) : ZMod fieldPrime) := by
  intro x h
  rw [show leNat (le32 2) % 2 ^ 255 = 2 by decide +kernel] at h
  refine not_square_of_fpow (c := 3 * (1 + 4 * edwardsD)) (by decide +kernel)
    (x * (1 + 4 * (edwardsD : ZMod fieldPrime))) ?_
  simp only [OnCurve] at h
  push_cast at h ⊢
  linear_combination (-(1 + 4 * (edwardsD : ZMod fieldPrime))) * h
/-- LadderComputesX25519, first clause. -/
theorem witness_x25519_lengths : (le32 (2 ^ 256 - 1)).length = 32 ∧ (le32 0).length = 32 := by decide +kernel
/-- The neutral point is a valid point. -/
theorem witness_DoublingAgreesWithAddition : ValidPoint neutralPoint := by
  refine ⟨?_, by simp [neutralPoint], by simp [neutralPoint]⟩
  rw [Ne, show (neutralPoint.Z : Nat) = 1 from rfl, ZMod.natCast_eq_zero_iff]
  decide +kernel
theorem witness_CompressInvertsDecompress :
    (le32 1).length = 32 ∧ decompress (le32 1) = .ok neutralPoint ∧
    basePoint.Z % fieldPrime ≠ 0 ∧ (edwDbl neutralPoint).Z % fieldPrime ≠ 0 ∧
    edwEq (edwDbl neutralPoint) neutralPoint = true := by decide +kernel
/-- EDW_SMUL: the scalar 2^255 with IN0 unwritten, and the scalar 2^255 − 1. -/
theorem witness_EdwSmulRunsTheFixedLoop :
    let s := load 128 32 0 [] (le32 (2 ^ 255)) []
    let t := load 128 32 0 (ptBytes basePoint) (le32 (2 ^ 255 - 1)) []
    (s.len0.toNat = 128 ∧ s.len1.toNat = 32 ∧ In1Holds s 32 (le32 (2 ^ 255)) ∧
      2 ^ 255 ≤ leNat (le32 (2 ^ 255))) ∧
    (t.len0.toNat = 128 ∧ t.len1.toNat = 32 ∧ In1Holds t 32 (le32 (2 ^ 255 - 1)) ∧
      leNat (le32 (2 ^ 255 - 1)) < 2 ^ 255 ∧ In0Holds t 128 (ptBytes basePoint)) := by decide +kernel

/-- The host-turn statements: CMD, STATUS, IRQ_EN, length-register, read-only, buffer and OUT writes, the reads and
POLL, BUSY and IDLE. The write statements quantify over any such operation. -/
theorem witness_host_writes (busy : Bool) (v : Word) :
    HostMoves (hostState busy [.write 0x004 .w32 v]) (hostState' busy [.write 0x004 .w32 v]) ∧
    (hostState' busy [.write 0x004 .w32 v]).host = .write 0x004 .w32 v :: [] ∧
    (hostState' busy [.write 0x004 .w32 v]).status.busy = busy ∧
    HostMoves (hostState busy [.write 0x008 .w32 v]) (hostState' busy [.write 0x008 .w32 v]) ∧
    HostMoves (hostState busy [.write 0x020 .w32 v]) (hostState' busy [.write 0x020 .w32 v]) ∧
    HostMoves (hostState busy [.read 0x030 .w32]) (hostState' busy [.read 0x030 .w32]) ∧
    HostMoves (hostState busy [.poll]) (hostState' busy [.poll]) :=
  ⟨rfl, rfl, rfl, rfl, rfl, rfl, rfl⟩
/-- Boundary offsets of the clauses of WritesWhileBusyAreDropped, ReadOnlyWritesAreIgnored and
BufferWriteStoresItsBytes. -/
theorem witness_offsets :
    IsOperandByte 0x100 ∧ IsOperandByte 0x1FF ∧ IsOperandByte 0x1000 ∧ IsOperandByte 0x1FFF ∧
    ¬ IsOperandByte 0x200 ∧ IsOutByte 0x200 ∧ IsOutByte 0x27F ∧ ¬ IsOutByte 0x280 ∧
    0x1FFC % Width.w32.bytes = 0 ∧ 0x27E % Width.w16.bytes = 0 := by decide
/-- BusErrorExactlyOffTheMap and IrqEnHoldsDoneIeAlone: accesses on both sides of the border. -/
theorem witness_border : busRead State.reset 0x030 .w32 = some 0x1000#32 ∧
    busRead State.reset 0x034 .w32 = none ∧ busRead State.reset 0x27C .w32 = some 0#32 ∧
    busRead State.reset 0x280 .w8 = none ∧ busRead State.reset 0x0FF .w8 = none ∧
    busRead State.reset 0x2000 .w8 = none ∧ (0x00C ≤ 0x00F ∧ 0x00F < 0x010 ∧ Width.w8 ≠ .w32) := by decide
theorem witness_UnwrittenByteReadIsNoFault :
    let s : State := { State.reset with host := [.read 0x100 .w8] }
    HostMoves s s ∧ s.host = .read 0x100 .w8 :: [] ∧ IsOperandByte 0x100 ∧ s.mem.read 0x100 = none := by decide
/-- WideReadsAgreeWithByteReads: the first clause for the last byte of IN0 and for a byte of OUT. -/
theorem witness_written_byte :
    HostMoves (hostState false [.read 0x17F .w8]) (hostState' false [.read 0x17F .w8]) ∧
    (hostState' false [.read 0x17F .w8]).host = .read 0x17F .w8 :: [] ∧ IsOperandByte 0x17F ∧
    (hostState' false [.read 0x17F .w8]).mem.read 0x17F = some 1#8 ∧ IsOutByte 0x27F ∧
    (hostState' false [.read 0x27F .w8]).mem.read 0x27F = some 0#8 := by
  refine ⟨rfl, rfl, ?_⟩
  decide +kernel
/-- WideReadsAgreeWithByteReads, the clauses on widths. -/
theorem witness_WideReadsAgreeWithByteReads : IsOperandByte 0x100 ∧ 0x100 % 4 = 0 ∧ IsOutByte 0x27E ∧
    0x27E % 2 = 0 := by decide
/-- A step that answers, in each agent's turn (the whole-machine statements, StepKeepsInvariant, HostNeverChangesOut,
OperandsAreFrozenWhileBusy, StartedCommandsComplete). -/
theorem witness_step_answers :
    next (step (hostState true [.write 0x004 .w32 0x26#32])) (fun t => t.status.cmdOverrun) = true ∧
    next (step (State.reset.withFetchWord 32 0x27)) (fun t => t.status.done) = true ∧
    next (step { State.reset with sched := [.reset] }) (fun t => t.epoch == 1) = true ∧
    (nextTurn (hostState true [])).1 ≠ .reset ∧ (hostState true []).status.busy = true := by decide +kernel
theorem witness_StartedCommandsComplete :
    let s := { startCommand 0x26#32 State.reset with sched := [.host, .host, .engine] }
    s.status.busy = true ∧ s.sched = List.replicate 2 Turn.host ++ Turn.engine :: [] ∧
    next (Sys2Proof.core.run 3 s) (fun t => t.status.done) = true := by decide +kernel
theorem witness_ResetInputRestoresResetValues :
    ResetMoves { startCommand 0x26#32 State.reset with sched := [.reset] }
      { startCommand 0x26#32 State.reset with sched := [] } := rfl
/-- The invariant holds of a state (so StepKeepsInvariant and the last clause of DoneFollowsItsEvents are not
empty): one with BUSY set. -/
theorem witness_invariant : (startCommand 0x26#32 State.reset).Inv := by
  refine ⟨by decide, by decide, ⟨by decide, by decide, by decide, by decide, by decide, by decide, by decide,
    by decide, by decide, by decide⟩, ⟨by decide, ?_⟩⟩
  intro a h1 h2
  have h1' : 0x200 ≤ a := h1
  have h2' : a < 0x280 := h2
  have hr : regionOf a = .out := regionOf_out.mpr ⟨h1', h2'⟩
  simp [Memory.read, Memory.find, startCommand, State.reset, unlisted, hr]

end Sys2Proof.Tests
end

section
/-! PROOF SUPPORT. The registers by their offsets and what a HOST access to one does (spec/10_state.md R33 to
R51), and what a HOST write leaves alone. -/

namespace Sys2Proof.Machine

/-! ### The registers by their offsets -/

/-- The offset of a register (10_state.md R33). -/
def Reg.offset : Reg → Nat
  | .id => 0x000
  | .cmd => 0x004
  | .status => 0x008
  | .irqEn => 0x00C
  | .errSlot => 0x010
  | .errExpected => 0x014
  | .errGot => 0x018
  | .errInfo => 0x01C
  | .len0 => 0x020
  | .len1 => 0x024
  | .msgLen => 0x028
  | .outLen => 0x02C
  | .msgCap => 0x030

theorem regAt_eq_some {a : Nat} {r : Reg} : regAt a = some r ↔ a = r.offset := by
  constructor
  · intro h
    unfold regAt at h
    split at h <;> cases h <;> rfl
  · rintro rfl
    cases r <;> rfl

theorem accessTarget_offset (r : Reg) : accessTarget r.offset .w32 = some (.reg r) := by
  cases r <;> rfl

theorem Reg.offset_inj {r r' : Reg} (h : r.offset = r'.offset) : r = r' := by
  have hr : regAt r'.offset = some r := regAt_eq_some.mpr h.symm
  rw [regAt_eq_some.mpr rfl] at hr
  injection hr with hr
  exact hr.symm

/-- A register takes 32-bit accesses only (20_memory.md R73). -/
theorem accessTarget_narrow_register {a : Nat} {n : Width} (ha : a < 0x034) (hn : n ≠ .w32) :
    accessTarget a n = none := by
  cases n with
  | w8 => simp [accessTarget, regionOf_register.mpr ha]
  | w16 => simp [accessTarget, regionOf_register.mpr ha]
  | w32 => exact absurd rfl hn

@[simp] theorem busRead_offset (s : State) (r : Reg) : busRead s r.offset .w32 = some (readReg s r) := by
  simp [busRead, accessTarget_offset]

@[simp] theorem busWrite_offset (s : State) (r : Reg) (v : Word) :
    busWrite s r.offset .w32 v = some (writeReg s r v) := by
  simp [busWrite, accessTarget_offset]

/-! ### One HOST step that accesses a register -/

theorem step_write_offset {s s' : State} {r : Reg} {v : Word} {rest : List BusOp} (hm : HostMoves s s')
    (hh : s'.host = .write r.offset .w32 v :: rest) :
    step s = .next (writeReg { s' with host := rest } r v) := by
  simp [step_host hm, hostTurn, hh]

theorem step_write_fault {s s' : State} {a : Nat} {n : Width} {v : Word} {rest : List BusOp}
    (hm : HostMoves s s') (hh : s'.host = .write a n v :: rest) (ha : accessTarget a n = none) :
    step s = .fault (.busError a n.bytes) := by
  simp [step_host hm, hostTurn, hh, busWrite, ha]

theorem step_read_fault {s s' : State} {a : Nat} {n : Width} {rest : List BusOp}
    (hm : HostMoves s s') (hh : s'.host = .read a n :: rest) (ha : accessTarget a n = none) :
    step s = .fault (.busError a n.bytes) := by
  simp [step_host hm, hostTurn, hh, busRead, ha]

/-! ### What a write to a register does -/

theorem writeReg_cmd_busy {s : State} (hb : s.status.busy = true) (v : Word) :
    writeReg s .cmd v = dropCommand s := by simp [writeReg, hb]

theorem writeReg_cmd_idle {s : State} (hb : s.status.busy = false) (v : Word) :
    writeReg s .cmd v = startCommand v s := by simp [writeReg, hb]

theorem writeReg_len0_idle {s : State} (hb : s.status.busy = false) (v : Word) :
    writeReg s .len0 v = { s with len0 := v } := by simp [writeReg, hb]

theorem writeReg_len1_idle {s : State} (hb : s.status.busy = false) (v : Word) :
    writeReg s .len1 v = { s with len1 := v } := by simp [writeReg, hb]

theorem writeReg_msgLen_idle {s : State} (hb : s.status.busy = false) (v : Word) :
    writeReg s .msgLen v = { s with msgLen := v } := by simp [writeReg, hb]

/-- The length registers (10_state.md R51). -/
def Reg.isLength (r : Reg) : Prop := r = .len0 ∨ r = .len1 ∨ r = .msgLen

theorem Reg.isLength_iff (r : Reg) : r.isLength ↔ r.offset ∈ [0x020, 0x024, 0x028] := by
  cases r <;> simp [isLength, offset]

theorem writeReg_length_busy {s : State} {r : Reg} (hr : r.isLength) (hb : s.status.busy = true) (v : Word) :
    writeReg s r v = dropWrite s := by
  rcases hr with rfl | rfl | rfl <;> simp [writeReg, hb]

/-- STATUS is changed only by a write to CMD, to STATUS, or to a length register while BUSY. -/
theorem writeReg_status_same {s : State} {r : Reg} (hc : r ≠ .cmd) (hs : r ≠ .status)
    (hl : s.status.busy = true → ¬ r.isLength) (v : Word) : (writeReg s r v).status = s.status := by
  have hidle : r.isLength → s.status.busy = false := fun hr => Bool.eq_false_iff.mpr fun hb => hl hb hr
  cases r with
  | cmd => exact absurd rfl hc
  | status => exact absurd rfl hs
  | len0 => rw [writeReg_len0_idle (hidle (.inl rfl))]
  | len1 => rw [writeReg_len1_idle (hidle (.inr (.inl rfl)))]
  | msgLen => rw [writeReg_msgLen_idle (hidle (.inr (.inr rfl)))]
  | _ => rfl

@[simp] theorem writeReg_outLen (s : State) (r : Reg) (v : Word) : (writeReg s r v).outLen = s.outLen := by
  cases r <;> simp only [writeReg] <;> split <;> rfl

@[simp] theorem writeReg_mem (s : State) (r : Reg) (v : Word) : (writeReg s r v).mem = s.mem := by
  cases r <;> simp only [writeReg] <;> split <;> rfl

theorem irqEnWord_eq_and (v : Word) : irqEnWord (v.getLsbD 0) = v &&& 1#32 := by
  rw [BitVec.and_one_eq_setWidth_ofBool_getLsbD]
  cases v.getLsbD 0 <;> rfl

/-! ### What an admitted write leaves alone -/

/-- OUT and OUT_LEN are the same in both states (10_state.md R55, R56). -/
structure SameOut (s t : State) : Prop where
  outLen : t.outLen = s.outLen
  bytes : ∀ a, IsOutByte a → t.mem.read a = s.mem.read a

/-- A write stored in an operand buffer reaches no byte of OUT. -/
theorem operand_write_out {a x : Nat} {n : Width} (ht : accessTarget a n = some .operand) (hx : IsOutByte x)
    (m : Memory) (v : Nat) : (m.writeBytes a (leBytes n.bytes v)).read x = m.read x := by
  refine read_writeBytes_other fun ⟨h1, h2⟩ => ?_
  rw [leBytes_length] at h2
  have ho : IsOperandByte x := accessTarget_operand ht x h1 h2
  simp [IsOperandByte, isOutByte_iff.mp hx] at ho

theorem busWrite_sameOut {s t : State} {a : Nat} {n : Width} {v : Word} (h : busWrite s a n v = some t) :
    SameOut s t := by
  rcases busWrite_cases h with ⟨r, _, _, rfl⟩ | ⟨_, _, rfl⟩ | ⟨ht, _, rfl⟩ | ⟨_, rfl⟩
  · exact ⟨by simp, by simp⟩
  · exact ⟨rfl, fun _ _ => rfl⟩
  · exact ⟨rfl, fun x hx => operand_write_out ht hx s.mem v.toNat⟩
  · exact ⟨rfl, fun _ _ => rfl⟩

theorem hostTurn_sameOut {s t : State} (h : hostTurn s = .next t) : SameOut s t := by
  rcases hostTurn_cases h with ⟨_, rfl⟩ | ⟨_, _, _, _, _, _, rfl⟩ | ⟨_, _, _, _, _, hw⟩ | ⟨_, _, rfl⟩
  · exact ⟨rfl, fun _ _ => rfl⟩
  · exact ⟨rfl, fun _ _ => rfl⟩
  · obtain ⟨hl, hb⟩ := busWrite_sameOut hw
    exact ⟨hl, hb⟩
  · exact ⟨rfl, fun _ _ => rfl⟩

end Sys2Proof.Machine
end

section
/-! PROOF SUPPORT. Everything a step can do to STATUS, once for each agent (spec/10_state.md R38 to R44): the
statements about single flags are read off from these lemmas. -/

namespace Sys2Proof.Machine

/-! ### The HOST -/

/-- A write of a length register or of an operand byte, which a BUSY core drops (70_reset_and_hazards.md R360). -/
def IsOperandWrite (ops : List BusOp) : Prop :=
  ∃ off n v rest, ops = .write off n v :: rest ∧ (off ∈ [0x020, 0x024, 0x028] ∨ IsOperandByte off)

/-- What the HOST's turn with the operations `ops` to issue does to STATUS: `HostStatus ops st st'` says that it
takes STATUS from `st` to `st'`. -/
inductive HostStatus : List BusOp → Status → Status → Prop where
  /-- A CMD write while IDLE starts a command (R38). -/
  | start {w rest st} (idle : st.busy = false) :
      HostStatus (.write 0x004 .w32 w :: rest) st st.started
  /-- A CMD write while BUSY is dropped (R42). -/
  | overrun {w rest st} (busy : st.busy = true) :
      HostStatus (.write 0x004 .w32 w :: rest) st { st with cmdOverrun := true }
  /-- A STATUS write clears the W1C bits (R37). -/
  | acknowledge {w rest st} :
      HostStatus (.write 0x008 .w32 w :: rest) st (st.clearW1C w)
  /-- A length or operand write while BUSY is dropped (R43). -/
  | dropped {ops st} (busy : st.busy = true) (write : IsOperandWrite ops) :
      HostStatus ops st { st with wrBusy := true }
  /-- Nothing else changes STATUS. -/
  | same {ops st} (cmd : ∀ w rest, ops ≠ .write 0x004 .w32 w :: rest)
      (status : ∀ w rest, ops ≠ .write 0x008 .w32 w :: rest)
      (write : st.busy = true → ¬ IsOperandWrite ops) :
      HostStatus ops st st

theorem isOperandWrite_cons {off : Nat} {n : Width} {v : Word} {rest : List BusOp} :
    IsOperandWrite (.write off n v :: rest) ↔ off ∈ [0x020, 0x024, 0x028] ∨ IsOperandByte off := by
  constructor
  · rintro ⟨_, _, _, _, he, ho⟩
    cases he
    exact ho
  · exact fun ho => ⟨off, n, v, rest, rfl, ho⟩

theorem not_isOperandWrite_cmd (n : Width) (w : Word) (rest : List BusOp) :
    ¬ IsOperandWrite (.write 0x004 n w :: rest) := by
  rw [isOperandWrite_cons]; decide

theorem not_isOperandWrite_status (n : Width) (w : Word) (rest : List BusOp) :
    ¬ IsOperandWrite (.write 0x008 n w :: rest) := by
  rw [isOperandWrite_cons]; decide

theorem isOperandWrite_offset {r : Reg} {n : Width} {v : Word} {rest : List BusOp} :
    IsOperandWrite (.write r.offset n v :: rest) ↔ r.isLength := by
  have hreg : ¬ IsOperandByte r.offset := by cases r <;> decide
  rw [isOperandWrite_cons, Reg.isLength_iff, or_iff_left hreg]

theorem not_isOperandWrite_out {off : Nat} {n : Width} {v : Word} {rest : List BusOp} (ho : IsOutByte off) :
    ¬ IsOperandWrite (.write off n v :: rest) := by
  rw [isOperandWrite_cons]
  simp only [IsOperandByte, isOutByte_iff.mp ho]
  have := regionOf_out.mp (isOutByte_iff.mp ho)
  simp; omega

theorem hostStatus_writeReg (s : State) (r : Reg) (v : Word) (rest : List BusOp) :
    HostStatus (.write r.offset .w32 v :: rest) s.status (writeReg s r v).status := by
  by_cases hc : r = .cmd
  · subst hc
    rcases hb : s.status.busy with _ | _
    · rw [writeReg_cmd_idle hb]; exact .start hb
    · rw [writeReg_cmd_busy hb]; exact .overrun hb
  by_cases hs : r = .status
  · subst hs; exact .acknowledge
  by_cases hl : s.status.busy = true ∧ r.isLength
  · obtain ⟨hb, hr⟩ := hl
    rw [writeReg_length_busy hr hb]
    exact .dropped hb (isOperandWrite_offset.mpr hr)
  · have hl' : s.status.busy = true → ¬ r.isLength := fun hb hr => hl ⟨hb, hr⟩
    rw [writeReg_status_same hc hs hl']
    refine .same (fun w rest' he => hc ?_) (fun w rest' he => hs ?_) fun hb hw =>
      hl' hb (isOperandWrite_offset.mp hw)
    · exact Reg.offset_inj (r' := .cmd) (by injection he with he; injection he)
    · exact Reg.offset_inj (r' := .status) (by injection he with he; injection he)

/-- A write that goes to no register, while none is dropped. -/
theorem hostStatus_buffer {off : Nat} {n : Width} {v : Word} {rest : List BusOp} {st : Status}
    (hreg : ∀ r, accessTarget off n ≠ some (.reg r))
    (hw : st.busy = true → ¬ IsOperandWrite (.write off n v :: rest)) :
    HostStatus (.write off n v :: rest) st st := by
  refine .same (fun w rest' he => ?_) (fun w rest' he => ?_) hw
  · cases he; exact hreg .cmd rfl
  · cases he; exact hreg .status rfl

theorem hostStatus_busWrite {s t : State} {off : Nat} {n : Width} {v : Word} (rest : List BusOp)
    (h : busWrite s off n v = some t) : HostStatus (.write off n v :: rest) s.status t.status := by
  rcases busWrite_cases h with ⟨r, rfl, hr, rfl⟩ | ⟨ht, hb, rfl⟩ | ⟨ht, hb, rfl⟩ | ⟨ht, rfl⟩
  · rw [regAt_eq_some.mp hr]
    exact hostStatus_writeReg s r v rest
  · have hoff : IsOperandByte off := accessTarget_operand ht off le_rfl (by have := bytes_cases n; omega)
    exact .dropped hb (isOperandWrite_cons.mpr (.inr hoff))
  · exact hostStatus_buffer (by simp [ht]) (by simp [hb])
  · have hoff : IsOutByte off := accessTarget_out ht off le_rfl (by have := bytes_cases n; omega)
    exact hostStatus_buffer (by simp [ht]) fun _ => not_isOperandWrite_out hoff

/-- A turn that issues no write leaves STATUS alone. -/
theorem hostStatus_of_no_write {ops : List BusOp} {st : Status}
    (h : ∀ off n v rest, ops ≠ .write off n v :: rest) : HostStatus ops st st :=
  .same (h 0x004 .w32) (h 0x008 .w32) fun _ ⟨off, n, v, rest, he, _⟩ => h off n v rest he

theorem hostTurn_status {s t : State} (h : hostTurn s = .next t) : HostStatus s.host s.status t.status := by
  rcases hostTurn_cases h with ⟨hh, rfl⟩ | ⟨_, _, _, _, hh, _, rfl⟩ | ⟨off, n, v, rest, hh, hw⟩ | ⟨_, hh, rfl⟩
  · exact hostStatus_of_no_write (by simp [hh])
  · exact hostStatus_of_no_write (by simp [hh])
  · rw [hh]
    exact hostStatus_busWrite (s := { s with host := rest }) rest hw
  · exact hostStatus_of_no_write (by simp [hh])

/-! ### What the HOST's turn does to each flag -/

theorem HostStatus.busy_iff {ops : List BusOp} {st st' : Status} (h : HostStatus ops st st') :
    st'.busy = true ↔ st.busy = true ∨ ∃ w rest, ops = .write 0x004 .w32 w :: rest := by
  cases h with
  | start idle => simp
  | overrun busy => simp [busy]
  | acknowledge => simp
  | dropped busy write => simp [busy]
  | same cmd _ _ => simp [cmd]

theorem HostStatus.done_iff {ops : List BusOp} {st st' : Status} (h : HostStatus ops st st') :
    st'.done = true ↔ st.done = true ∧
      (∀ w rest, ops = .write 0x004 .w32 w :: rest → st.busy = true) ∧
      (∀ w rest, ops = .write 0x008 .w32 w :: rest → w.getLsbD 1 = false) := by
  cases h with
  | start idle => simp [idle]
  | overrun busy => simp [busy]
  | acknowledge => simp
  | dropped busy write =>
    have hs : ∀ w rest, ops ≠ .write 0x008 .w32 w :: rest := by
      rintro w rest rfl; exact not_isOperandWrite_status _ _ _ write
    simp [busy, hs]
  | same cmd status _ => simp [cmd, status]

theorem HostStatus.cmdOverrun_iff {ops : List BusOp} {st st' : Status} (h : HostStatus ops st st') :
    st'.cmdOverrun = true ↔
      (st.busy = true ∧ ∃ w rest, ops = .write 0x004 .w32 w :: rest) ∨
      (st.cmdOverrun = true ∧ ∀ w rest, ops = .write 0x008 .w32 w :: rest → w.getLsbD 4 = false) := by
  cases h with
  | start idle => simp [idle]
  | overrun busy => simp [busy]
  | acknowledge => simp
  | dropped busy write =>
    have hc : ∀ w rest, ops ≠ .write 0x004 .w32 w :: rest := by
      rintro w rest rfl; exact not_isOperandWrite_cmd _ _ _ write
    have hs : ∀ w rest, ops ≠ .write 0x008 .w32 w :: rest := by
      rintro w rest rfl; exact not_isOperandWrite_status _ _ _ write
    simp [hc, hs]
  | same cmd status _ => simp [cmd, status]

theorem HostStatus.wrBusy_iff {ops : List BusOp} {st st' : Status} (h : HostStatus ops st st') :
    st'.wrBusy = true ↔ (st.busy = true ∧ IsOperandWrite ops) ∨
      (st.wrBusy = true ∧ ∀ w rest, ops = .write 0x008 .w32 w :: rest → w.getLsbD 5 = false) := by
  cases h with
  | start idle => simp [idle]
  | overrun busy => simp [not_isOperandWrite_cmd]
  | acknowledge => simp [not_isOperandWrite_status]
  | dropped busy write => simp [busy, write]
  | same cmd status write =>
    have hw : ¬ (st.busy = true ∧ IsOperandWrite ops) := fun ⟨hb, ho⟩ => write hb ho
    simp [hw, status]

/-! ### The ENGINE -/

/-- What the ENGINE's turn does to the flags (R38, R39, R42, R43). -/
structure EngineFlags (st st' : Status) : Prop where
  busy : st'.busy = false
  done : st'.done = (st.busy || st.done)
  cmdOverrun : st'.cmdOverrun = st.cmdOverrun
  wrBusy : st'.wrBusy = st.wrBusy

/-- A running command that answers has completed with `Ok` or with `Err`. -/
theorem runCommand_next {s t : State} (h : runCommand s = .next t) :
    (∃ r, t = completeOk r s) ∨ (∃ e, t = completeErr e s) := by
  rcases hd : decodeWord s.cmd with _ | i
  · rw [runCommand_illegal hd] at h
    cases h; exact .inr ⟨_, rfl⟩
  · rw [runCommand_legal hd, exec_eq_complete] at h
    rcases complete_next h with ⟨r, _, ht⟩ | ⟨e, _, ht⟩
    · exact .inl ⟨r, ht⟩
    · exact .inr ⟨e, ht⟩

theorem engineTurn_flags {s t : State} (h : engineTurn s = .next t) : EngineFlags s.status t.status := by
  rcases hb : s.status.busy with _ | _
  · rw [engineTurn_idle hb] at h
    cases h; exact ⟨hb, by simp [hb], rfl, rfl⟩
  · rw [engineTurn_busy hb] at h
    rcases runCommand_next h with ⟨r, rfl⟩ | ⟨e, rfl⟩
    · exact ⟨rfl, by simp [hb], rfl, rfl⟩
    · exact ⟨rfl, by simp [hb], rfl, rfl⟩

/-! ### A step of each agent -/

section
variable {s s' t : State} {u : Turn}

theorem nextTurn_status (h : nextTurn s = (u, s')) : s'.status = s.status := by
  rw [nextTurn_state h]

theorem nextTurn_outLen (h : nextTurn s = (u, s')) : s'.outLen = s.outLen := by
  rw [nextTurn_state h]

theorem nextTurn_mem (h : nextTurn s = (u, s')) : s'.mem = s.mem := by
  rw [nextTurn_state h]

theorem step_host_status (hm : HostMoves s s') (h : step s = .next t) :
    HostStatus s'.host s.status t.status := by
  rw [← nextTurn_status hm]
  exact hostTurn_status (step_host hm ▸ h)

theorem step_engine_flags (hm : EngineMoves s s') (h : step s = .next t) :
    EngineFlags s.status t.status := by
  rw [← nextTurn_status hm]
  exact engineTurn_flags (step_engine hm ▸ h)

theorem step_reset_status (hm : ResetMoves s s') (h : step s = .next t) : t.status = Status.reset := by
  rw [step_reset hm] at h
  cases h; rfl

theorem step_host_sameOut (hm : HostMoves s s') (h : step s = .next t) : SameOut s t := by
  obtain ⟨hl, hb⟩ := hostTurn_sameOut (step_host hm ▸ h)
  rw [nextTurn_outLen hm] at hl
  rw [nextTurn_mem hm] at hb
  exact ⟨hl, hb⟩

/-- If DONE excludes BUSY before a step, it does so after it (10_state.md R39). -/
theorem step_done_excludes_busy (hi : s.status.busy = true → s.status.done = false) (h : step s = .next t)
    (hd : t.status.done = true) : t.status.busy = false := by
  obtain ⟨s', hm | hm | hm⟩ := turn_cases s
  · have hs := step_host_status hm h
    obtain ⟨hdone, hcmd, _⟩ := hs.done_iff.mp hd
    have hidle : ¬ s.status.busy = true := fun hb => by simp [hi hb] at hdone
    rw [← Bool.not_eq_true, hs.busy_iff]
    rintro (hb | ⟨w, rest, hw⟩)
    · exact hidle hb
    · exact hidle (hcmd w rest hw)
  · exact (step_engine_flags hm h).busy
  · rw [step_reset_status hm h]; rfl

end

end Sys2Proof.Machine
end

section
/-! PROOFS. The statements about single registers and flags (spec/10_state.md R37 to R45, R51, R55, R56, R59). -/

namespace Sys2Proof.Machine

/-- Settles O41: the step is `writeReg` at STATUS. -/
theorem statusWriteActsOnW1CBitsOnly : Obligations.StatusWriteActsOnW1CBitsOnly := by
  intro s s' v rest hm hh
  exact ⟨_, step_write_offset (r := .status) hm hh, rfl, rfl, rfl, rfl, rfl, rfl, rfl, rfl⟩

/-- Settles O42: the step is `writeReg` at IRQ_EN, and a narrow access to a register has no target. -/
theorem irqEnHoldsDoneIeAlone : Obligations.IrqEnHoldsDoneIeAlone := by
  intro s s' rest hm
  constructor
  · intro v hh
    refine ⟨_, step_write_offset (r := .irqEn) hm hh, rfl, ?_, rfl⟩
    rw [← irqEnWord_eq_and]
    exact busRead_offset _ .irqEn
  · intro off n v _ hoff hn
    have ht : accessTarget off n = none := accessTarget_narrow_register (by omega) hn
    exact ⟨fun hh => step_write_fault hm hh ht, fun hh => step_read_fault hm hh ht⟩

/-- Settles O44: the step is `writeReg` at a length register while IDLE. -/
theorem lengthRegistersReadBack : Obligations.LengthRegistersReadBack := by
  intro s s' off v rest hm hb hh
  have h0 : off = 0x020 → step s = .next { s' with host := rest, len0 := v } := by
    rintro rfl
    rw [step_write_offset (r := .len0) hm hh, writeReg_len0_idle]
    exact hb
  have h1 : off = 0x024 → step s = .next { s' with host := rest, len1 := v } := by
    rintro rfl
    rw [step_write_offset (r := .len1) hm hh, writeReg_len1_idle]
    exact hb
  have h2 : off = 0x028 → step s = .next { s' with host := rest, msgLen := v } := by
    rintro rfl
    rw [step_write_offset (r := .msgLen) hm hh, writeReg_msgLen_idle]
    exact hb
  refine ⟨h0, h1, h2, fun hoff => ?_⟩
  simp only [List.mem_cons, List.not_mem_nil, or_false] at hoff
  rcases hoff with rfl | rfl | rfl
  · exact ⟨_, h0 rfl, busRead_offset _ .len0⟩
  · exact ⟨_, h1 rfl, busRead_offset _ .len1⟩
  · exact ⟨_, h2 rfl, busRead_offset _ .msgLen⟩

/-- Settles O51: BUSY, agent by agent. -/
theorem busyChangesOnlyByStartCompletionReset : Obligations.BusyChangesOnlyByStartCompletionReset := by
  intro s s' t h
  refine ⟨fun hm => (step_host_status hm h).busy_iff, fun hm => (step_engine_flags hm h).busy, fun hm => ?_⟩
  rw [step_reset_status hm h]; rfl

/-- Settles O52: DONE, agent by agent; under the invariant DONE excludes BUSY before the step, so after it. -/
theorem doneFollowsItsEvents : Obligations.DoneFollowsItsEvents := by
  intro s s' t h
  refine ⟨fun hm => (step_host_status hm h).done_iff, fun hm => (step_engine_flags hm h).done, fun hm => ?_,
    fun hi => step_done_excludes_busy hi.status.busyDone h⟩
  rw [step_reset_status hm h]; rfl

/-- Settles O53: CMD_OVERRUN, agent by agent. -/
theorem overrunFlagIsSticky : Obligations.OverrunFlagIsSticky := by
  intro s s' t h
  refine ⟨fun hm => (step_host_status hm h).cmdOverrun_iff, fun hm => (step_engine_flags hm h).cmdOverrun,
    fun hm => ?_⟩
  rw [step_reset_status hm h]; rfl

/-- Settles O54: WR_BUSY, agent by agent. -/
theorem writeBusyFlagIsSticky : Obligations.WriteBusyFlagIsSticky := by
  intro s s' t h
  refine ⟨fun hm => (step_host_status hm h).wrBusy_iff, fun hm => (step_engine_flags hm h).wrBusy,
    fun hm => ?_⟩
  rw [step_reset_status hm h]; rfl

/-- Settles O55: no target of a HOST write reaches OUT or OUT_LEN. -/
theorem hostNeverChangesOut : Obligations.HostNeverChangesOut := by
  intro s s' t hm h
  obtain ⟨hl, hb⟩ := step_host_sameOut hm h
  exact ⟨hl, hb⟩

end Sys2Proof.Machine
end

section
/-! PROOF SUPPORT. Which accesses the window admits, in numbers (spec/20_memory.md R73 to R76), and the HOST step
that issues one. -/

namespace Sys2Proof.Machine

/-! ### Where an access goes, from its offset -/

/-- An admitted access is naturally aligned (20_memory.md R74). -/
theorem accessTarget_aligned {a : Nat} {n : Width} {g : Target} (h : accessTarget a n = some g) :
    a % n.bytes = 0 := by
  by_contra ha
  simp [accessTarget, ha] at h

/-- Every aligned offset below 0x034 is a register's (10_state.md R33). -/
theorem exists_offset_eq {a : Nat} (ha : a < 0x034) (hal : a % 4 = 0) : ∃ r : Reg, a = r.offset := by
  have hmap : ∀ k < 13, (regAt (4 * k)).isSome := by decide
  obtain ⟨k, rfl⟩ := Nat.dvd_of_mod_eq_zero hal
  obtain ⟨r, hr⟩ := Option.isSome_iff_exists.mp (hmap k (by omega))
  exact ⟨r, regAt_eq_some.mp hr⟩

theorem isOperandByte_iff {a : Nat} :
    IsOperandByte a ↔ (0x100 ≤ a ∧ a < 0x200) ∨ (0x1000 ≤ a ∧ a < 0x2000) := by
  rw [IsOperandByte, regionOf_in0, regionOf_in1, regionOf_msg]
  omega

theorem not_isOutByte_of_operand {a : Nat} (h : IsOperandByte a) : ¬ IsOutByte a := by
  rw [isOperandByte_iff] at h
  rw [isOutByte_iff, regionOf_out]
  omega

/-- An aligned access to an operand byte is admitted: MSG ends at a multiple of every width. -/
theorem accessTarget_of_operand {a : Nat} {n : Width} (ha : IsOperandByte a) (hal : a % n.bytes = 0) :
    accessTarget a n = some .operand := by
  rcases ha with hr | hr | hr
  · simp [accessTarget, hal, hr]
  · simp [accessTarget, hal, hr]
  · have hfit : a + n.bytes ≤ msgBase + Config.msgCap := by
      have hlt := (regionOf_msg.mp hr).2
      change a + n.bytes ≤ 0x2000
      rcases bytes_cases n with e | e | e <;> rw [e] at hal ⊢ <;> omega
    simp [accessTarget, hal, hr, hfit]

theorem accessTarget_of_out {a : Nat} {n : Width} (ha : IsOutByte a) (hal : a % n.bytes = 0) :
    accessTarget a n = some .out := by
  simp [accessTarget, hal, isOutByte_iff.mp ha]

/-- The accesses of `n` bytes at `a` that lie on the map (20_memory.md R73, R74, R76): aligned, and a 32-bit
access to a register, or within IN0, IN1 and OUT, or within MSG. -/
def OnMap (a : Nat) (n : Width) : Prop :=
  a % n.bytes = 0 ∧
    ((a < 0x034 ∧ n = .w32) ∨ (0x100 ≤ a ∧ a + n.bytes ≤ 0x280) ∨ (0x1000 ≤ a ∧ a + n.bytes ≤ 0x2000))

/-- What the window admits lies on the map: the first and the last byte of the access are the target's. -/
theorem onMap_of_accessTarget {a : Nat} {n : Width} {g : Target} (h : accessTarget a n = some g) : OnMap a n := by
  refine ⟨accessTarget_aligned h, ?_⟩
  have hn := bytes_cases n
  cases g with
  | reg r =>
    obtain ⟨rfl, hr⟩ := accessTarget_reg h
    obtain rfl := regAt_eq_some.mp hr
    exact .inl ⟨by cases r <;> decide, rfl⟩
  | operand =>
    have hfirst := isOperandByte_iff.mp (accessTarget_operand h a le_rfl (by omega))
    have hlast := isOperandByte_iff.mp (accessTarget_operand h (a + n.bytes - 1) (by omega) (by omega))
    omega
  | out =>
    have hfirst := regionOf_out.mp (isOutByte_iff.mp (accessTarget_out h a le_rfl (by omega)))
    have hlast := regionOf_out.mp (isOutByte_iff.mp
      (accessTarget_out h (a + n.bytes - 1) (by omega) (by omega)))
    omega

/-- What lies on the map is admitted. -/
theorem accessTarget_of_onMap {a : Nat} {n : Width} (h : OnMap a n) : ∃ g, accessTarget a n = some g := by
  obtain ⟨hal, hplace⟩ := h
  have hn := bytes_cases n
  by_cases hop : IsOperandByte a
  · exact ⟨_, accessTarget_of_operand hop hal⟩
  by_cases hout : IsOutByte a
  · exact ⟨_, accessTarget_of_out hout hal⟩
  rw [isOperandByte_iff] at hop
  rw [isOutByte_iff, regionOf_out] at hout
  obtain ⟨hlt, rfl⟩ : a < 0x034 ∧ n = .w32 := by
    rcases hplace with hreg | hbuf | hmsg
    · exact hreg
    · omega
    · omega
  obtain ⟨r, rfl⟩ := exists_offset_eq hlt hal
  exact ⟨_, accessTarget_offset r⟩

/-- An access has no target exactly when it is off the map. -/
theorem accessTarget_eq_none_iff {a : Nat} {n : Width} : accessTarget a n = none ↔ ¬ OnMap a n := by
  constructor
  · intro h hm
    obtain ⟨g, hg⟩ := accessTarget_of_onMap hm
    simp [h] at hg
  · intro h
    by_contra ha
    obtain ⟨g, hg⟩ := Option.ne_none_iff_exists'.mp ha
    exact h (onMap_of_accessTarget hg)

/-! ### What an admitted access does -/

/-- A read is a bus error exactly when it has no target. -/
theorem busRead_eq_none_iff {s : State} {a : Nat} {n : Width} : busRead s a n = none ↔ accessTarget a n = none := by
  rcases h : accessTarget a n with _ | ⟨r⟩ | _ | _ <;> simp [busRead, h]

theorem busWrite_operand_busy {s : State} {a : Nat} {n : Width} (ht : accessTarget a n = some .operand)
    (hb : s.status.busy = true) (v : Word) : busWrite s a n v = some (dropWrite s) := by
  simp [busWrite, ht, hb]

theorem busWrite_operand_idle {s : State} {a : Nat} {n : Width} (ht : accessTarget a n = some .operand)
    (hb : s.status.busy = false) (v : Word) :
    busWrite s a n v = some { s with mem := s.mem.writeBytes a (leBytes n.bytes v.toNat) } := by
  simp [busWrite, ht, hb]

theorem busWrite_out {a : Nat} {n : Width} (ht : accessTarget a n = some .out) (s : State) (v : Word) :
    busWrite s a n v = some s := by
  simp [busWrite, ht]

/-- A write is a bus error exactly when it has no target. -/
theorem busWrite_eq_none_iff {s : State} {a : Nat} {n : Width} {v : Word} :
    busWrite s a n v = none ↔ accessTarget a n = none := by
  rcases h : accessTarget a n with _ | ⟨r⟩ | _ | _
  · simp [busWrite, h]
  · simp [busWrite, h]
  · rcases hb : s.status.busy with _ | _
    · simp [busWrite_operand_idle h hb]
    · simp [busWrite_operand_busy h hb]
  · simp [busWrite_out h]

/-! ### One HOST step that accesses the window -/

section
variable {s s' : State} {a : Nat} {n : Width} {v : Word} {rest : List BusOp}

theorem step_write_next {t : State} (hm : HostMoves s s') (hh : s'.host = .write a n v :: rest)
    (hw : busWrite { s' with host := rest } a n v = some t) : step s = .next t := by
  simp [step_host hm, hostTurn, hh, hw]

theorem step_read_next {w : Word} (hm : HostMoves s s') (hh : s'.host = .read a n :: rest)
    (hr : busRead s' a n = some w) : step s = .next { s' with host := rest, reads := w :: s'.reads } := by
  simp [step_host hm, hostTurn, hh, hr]

/-- A HOST step that writes is a bus error exactly when the access has no target. -/
theorem step_write_fault_iff (hm : HostMoves s s') (hh : s'.host = .write a n v :: rest) :
    step s = .fault (.busError a n.bytes) ↔ accessTarget a n = none := by
  refine ⟨fun h => ?_, step_write_fault hm hh⟩
  by_contra ha
  obtain ⟨t, ht⟩ := Option.ne_none_iff_exists'.mp
    (mt (busWrite_eq_none_iff (s := { s' with host := rest }) (v := v)).mp ha)
  simp [step_write_next hm hh ht] at h

/-- A HOST step that reads is a bus error exactly when the access has no target. -/
theorem step_read_fault_iff (hm : HostMoves s s') (hh : s'.host = .read a n :: rest) :
    step s = .fault (.busError a n.bytes) ↔ accessTarget a n = none := by
  refine ⟨fun h => ?_, step_read_fault hm hh⟩
  by_contra ha
  obtain ⟨w, hw⟩ := Option.ne_none_iff_exists'.mp (mt (busRead_eq_none_iff (s := s')).mp ha)
  simp [step_read_next hm hh hw] at h

end

end Sys2Proof.Machine
end

section
/-! PROOF SUPPORT. What a HOST write to a read-only register leaves, and which bytes a buffer write stores
(spec/20_memory.md R72, R75, R77). -/

namespace Sys2Proof.Machine

/-- The registers none of whose bits a host can write (20_memory.md R75). -/
def Reg.readOnly : List Reg := [.id, .errSlot, .errExpected, .errGot, .errInfo, .outLen, .msgCap]

theorem writeReg_readOnly {r : Reg} (hr : r ∈ Reg.readOnly) (s : State) (v : Word) : writeReg s r v = s := by
  cases r with
  | id | errSlot | errExpected | errGot | errInfo | outLen | msgCap => rfl
  | _ => exact absurd hr (by decide)

theorem leBytes_getElem? (n x i : Nat) (hi : i < n) :
    (leBytes n x)[i]? = some (BitVec.ofNat 8 (x / 256 ^ i)) := by
  induction n generalizing x i with
  | zero => omega
  | succ n ih =>
    cases i with
    | zero => simp [leBytes]
    | succ i =>
      rw [leBytes, List.getElem?_cons_succ, ih _ _ (by omega), Nat.div_div_eq_div_mul, ← pow_succ']

/-- Byte `i` of the little-endian string of a word is its byte lane `i` (20_memory.md R77). -/
theorem leBytes_lane (v : Word) {n i : Nat} (hi : i < n) :
    (leBytes n v.toNat)[i]? = some (v.extractLsb' (8 * i) 8) := by
  rw [leBytes_getElem? n v.toNat i hi, BitVec.extractLsb', Nat.shiftRight_eq_div_pow, pow_mul]
  rfl

/-- A string stored at `a` holds byte lane `i` of the word at `a + i`. -/
theorem read_writeBytes_lane (m : Memory) (a : Nat) (v : Word) {n i : Nat} (hi : i < n) :
    (m.writeBytes a (leBytes n v.toNat)).read (a + i) = some (v.extractLsb' (8 * i) 8) := by
  rw [read_writeBytes, leBytes_length, if_pos (by omega), Nat.add_sub_cancel_left, leBytes_lane v hi]

end Sys2Proof.Machine
end

section
/-! PROOF SUPPORT. While BUSY the running command's word, lengths and operand bytes are frozen (spec/20_memory.md
R85, spec/70_reset_and_hazards.md R360, R364): once for each agent's turn but reset's. -/

namespace Sys2Proof.Machine

/-- CMD and the inputs of the command function are the same in both states. -/
structure Frozen (s t : State) : Prop where
  cmd : t.cmd = s.cmd
  inputs : SameInputs t s

/-- The registers and the memory as a whole unchanged. -/
theorem Frozen.of_mem_eq {s t : State} (cmd : t.cmd = s.cmd) (len0 : t.len0 = s.len0) (len1 : t.len1 = s.len1)
    (msgLen : t.msgLen = s.msgLen) (mem : t.mem = s.mem) : Frozen s t :=
  ⟨cmd, len0, len1, msgLen, fun _ _ => by rw [mem]⟩

theorem Frozen.trans {s t u : State} (h : Frozen s t) (h' : Frozen t u) : Frozen s u where
  cmd := h'.cmd.trans h.cmd
  inputs := {
    len0 := h'.inputs.len0.trans h.inputs.len0
    len1 := h'.inputs.len1.trans h.inputs.len1
    msgLen := h'.inputs.msgLen.trans h.inputs.msgLen
    bytes a ha := (h'.inputs.bytes a ha).trans (h.inputs.bytes a ha) }

/-- A completion writes OUT alone. -/
theorem CompletionFrame.frozen {s t : State} (h : CompletionFrame s t) : Frozen s t :=
  ⟨h.cmd, h.len0, h.len1, h.msgLen, fun a ha => h.bytes a (not_isOutByte_of_operand ha)⟩

theorem runCommand_frozen {s t : State} (h : runCommand s = .next t) : Frozen s t := by
  rcases hd : decodeWord s.cmd with _ | i
  · rw [runCommand_illegal hd] at h
    cases h
    exact (completeErr_spec _ s).frame.frozen
  · rw [runCommand_legal hd] at h
    rcases exec_next h with ⟨_, _, _, _, hok⟩ | ⟨_, _, _, herr⟩
    · exact hok.frame.frozen
    · exact herr.frame.frozen

theorem engineTurn_frozen {s t : State} (hb : s.status.busy = true) (h : engineTurn s = .next t) :
    Frozen s t := by
  rw [engineTurn_busy hb] at h
  exact runCommand_frozen h

/-- A dropped write sets a sticky bit; the other registers a BUSY core takes writes to are no operands. -/
theorem writeReg_frozen {s : State} (hb : s.status.busy = true) (r : Reg) (v : Word) :
    Frozen s (writeReg s r v) := by
  by_cases hl : r.isLength
  · rw [writeReg_length_busy hl hb]
    exact .of_mem_eq rfl rfl rfl rfl rfl
  cases r with
  | cmd =>
    rw [writeReg_cmd_busy hb]
    exact .of_mem_eq rfl rfl rfl rfl rfl
  | len0 => exact absurd (.inl rfl) hl
  | len1 => exact absurd (.inr (.inl rfl)) hl
  | msgLen => exact absurd (.inr (.inr rfl)) hl
  | _ => exact .of_mem_eq rfl rfl rfl rfl rfl

theorem busWrite_frozen {s t : State} {a : Nat} {n : Width} {v : Word} (hb : s.status.busy = true)
    (h : busWrite s a n v = some t) : Frozen s t := by
  rcases busWrite_cases h with ⟨r, _, _, rfl⟩ | ⟨_, _, rfl⟩ | ⟨_, hidle, _⟩ | ⟨_, rfl⟩
  · exact writeReg_frozen hb r v
  · exact .of_mem_eq rfl rfl rfl rfl rfl
  · simp [hb] at hidle
  · exact .of_mem_eq rfl rfl rfl rfl rfl

theorem hostTurn_frozen {s t : State} (hb : s.status.busy = true) (h : hostTurn s = .next t) : Frozen s t := by
  rcases hostTurn_cases h with ⟨_, rfl⟩ | ⟨_, _, _, _, _, _, rfl⟩ | ⟨_, _, _, rest, _, hw⟩ | ⟨_, _, rfl⟩
  · exact .of_mem_eq rfl rfl rfl rfl rfl
  · exact .of_mem_eq rfl rfl rfl rfl rfl
  · have hissue : Frozen s { s with host := rest } := .of_mem_eq rfl rfl rfl rfl rfl
    exact hissue.trans (busWrite_frozen hb hw)
  · exact .of_mem_eq rfl rfl rfl rfl rfl

theorem nextTurn_frozen {s s' : State} {u : Turn} (h : nextTurn s = (u, s')) : Frozen s s' := by
  rw [nextTurn_state h]
  exact .of_mem_eq rfl rfl rfl rfl rfl

/-- No step but reset's changes what the running command works on. -/
theorem step_frozen {s t : State} (hr : (nextTurn s).1 ≠ .reset) (hb : s.status.busy = true)
    (h : step s = .next t) : Frozen s t := by
  obtain ⟨s', hm | hm | hm⟩ := turn_cases s
  · rw [← nextTurn_status hm] at hb
    exact (nextTurn_frozen hm).trans (hostTurn_frozen hb (step_host hm ▸ h))
  · rw [← nextTurn_status hm] at hb
    exact (nextTurn_frozen hm).trans (engineTurn_frozen hb (step_engine hm ▸ h))
  · exact absurd (by rw [hm]) hr

end Sys2Proof.Machine
end

section
/-! PROOFS. The statements about the memory map (spec/20_memory.md R72 to R77, R85). -/

namespace Sys2Proof.Machine

/-- Settles O43: the step is `writeReg` at a read-only register, at STATUS or at IRQ_EN, or a write whose target
is OUT. -/
theorem readOnlyWritesAreIgnored : Obligations.ReadOnlyWritesAreIgnored := by
  intro s s' off n v rest hm hh
  refine ⟨?_, ?_, ?_, ?_⟩
  · rintro hoff rfl
    obtain ⟨r, hr, rfl⟩ := List.mem_map.mp (show off ∈ Reg.readOnly.map Reg.offset from hoff)
    rw [step_write_offset hm hh, writeReg_readOnly hr]
  · intro hout hal
    exact step_write_next hm hh (busWrite_out (accessTarget_of_out hout hal) _ v)
  · rintro rfl rfl
    exact ⟨_, step_write_offset (r := .status) hm hh, rfl, rfl, rfl, rfl, rfl⟩
  · rintro rfl rfl
    exact step_write_offset (r := .irqEn) hm hh

/-- Settles O45: the step stores the value's little-endian bytes at the offset. -/
theorem bufferWriteStoresItsBytes : Obligations.BufferWriteStoresItsBytes := by
  intro s s' off n v rest hm hh hb hop hal
  have hw := busWrite_operand_idle (s := { s' with host := rest }) (accessTarget_of_operand hop hal) hb v
  refine ⟨_, step_write_next hm hh hw, rfl, fun i hi => read_writeBytes_lane _ off v hi, fun a ha => ?_⟩
  exact read_writeBytes_other (by rwa [leBytes_length])

/-- Settles O48: an access faults exactly when it has no target, and it has none exactly when it is off the map. -/
theorem busErrorExactlyOffTheMap : Obligations.BusErrorExactlyOffTheMap := by
  rintro s s' off n v rest hm (hh | hh)
  · exact (step_read_fault_iff hm hh).trans accessTarget_eq_none_iff
  · exact (step_write_fault_iff hm hh).trans accessTarget_eq_none_iff

/-- Settles O56: HOST's and ENGINE's turns keep CMD and the command's inputs while BUSY. -/
theorem operandsAreFrozenWhileBusy : Obligations.OperandsAreFrozenWhileBusy := by
  intro s t hr hb h
  obtain ⟨hcmd, h0, h1, hmsg, hbytes⟩ := step_frozen hr hb h
  exact ⟨hcmd, h0, h1, hmsg, hbytes⟩

end Sys2Proof.Machine
end

section
/-! PROOF SUPPORT. A command word is its three fields; which fields the decoder accepts, which the encoder writes,
and which the ALLOWED masks leave free (spec/30_encoding.md R100 to R104). -/

namespace Sys2Proof

/-! ### The fields of a word -/

/-- The three fields make up the word (R100). -/
theorem fields_append (w : Word) :
    fieldReserved w ++ (BitVec.ofBool (fieldStrict w) ++ fieldOpcode w) = w := by
  have hbit : BitVec.ofBool (fieldStrict w) = w.extractLsb' 8 1 := by
    ext i hi
    obtain rfl : i = 0 := by omega
    simp [fieldStrict]
  rw [hbit, fieldReserved, fieldOpcode, BitVec.extractLsb'_append_extractLsb'_eq_extractLsb' (by rfl : 8 = 0 + 8),
    BitVec.extractLsb'_append_extractLsb'_eq_extractLsb' (by rfl : 9 = 0 + (1 + 8))]
  exact BitVec.extractLsb'_eq_self

/-- Words with the same fields are the same. -/
theorem word_eq_iff_fields {v w : Word} : v = w ↔
    fieldOpcode v = fieldOpcode w ∧ fieldStrict v = fieldStrict w ∧ fieldReserved v = fieldReserved w := by
  constructor
  · rintro rfl
    exact ⟨rfl, rfl, rfl⟩
  · rintro ⟨hop, hstrict, hres⟩
    rw [← fields_append v, ← fields_append w, hop, hstrict, hres]

@[simp] theorem fieldOpcode_and (v w : Word) : fieldOpcode (v &&& w) = fieldOpcode v &&& fieldOpcode w :=
  BitVec.extractLsb'_and

@[simp] theorem fieldStrict_and (v w : Word) : fieldStrict (v &&& w) = (fieldStrict v && fieldStrict w) :=
  BitVec.getLsbD_and

@[simp] theorem fieldReserved_and (v w : Word) :
    fieldReserved (v &&& w) = fieldReserved v &&& fieldReserved w :=
  BitVec.extractLsb'_and

/-! ### The decoder and the encoder by fields -/

theorem opcodeTakesStrict_iff {op : Byte} : opcodeTakesStrict op = true ↔ op = 0x11#8 := beq_iff_eq

/-- A word decodes to what the opcode map gives, where no reserved bit is set and STRICT only with the opcode
that takes it. -/
theorem decodeWord_ok_iff {w : Word} {i : Instr} : decodeWord w = .ok i ↔
    opcodeInstr (fieldOpcode w) (fieldStrict w) = some i ∧ fieldReserved w = 0#23 ∧
    (fieldStrict w = true → fieldOpcode w = 0x11#8) := by
  rw [decodeWord, ← opcodeTakesStrict_iff]
  rcases opcodeInstr (fieldOpcode w) (fieldStrict w) with _ | j
  · simp
  by_cases hres : fieldReserved w = 0#23
  · rcases hs : fieldStrict w with _ | _
    · simp [hres]
    · rcases ht : opcodeTakesStrict (fieldOpcode w) with _ | _ <;> simp [hres]
  · simp [hres]

/-- What the opcode map gives is encoded with that opcode (R103, R104). -/
theorem opcodeInstr_opcode {op : Byte} {strict : Bool} {i : Instr} (h : opcodeInstr op strict = some i) :
    op = fieldOpcode (encode i) := by
  unfold opcodeInstr at h
  split at h
  case h_6 hop => cases h; cases strict <;> exact BitVec.eq_of_toNat_eq hop
  case h_20 => cases h
  all_goals
    rename_i hop
    cases h
    exact BitVec.eq_of_toNat_eq hop

/-- The opcode map gives `i` exactly at the opcode of `i`'s word, and X25519_SHARED with that word's STRICT bit
(R103, R104). -/
theorem opcodeInstr_eq_some_iff {op : Byte} {strict : Bool} {i : Instr} : opcodeInstr op strict = some i ↔
    op = fieldOpcode (encode i) ∧ (op = 0x11#8 → strict = fieldStrict (encode i)) := by
  constructor
  · intro h
    refine ⟨opcodeInstr_opcode h, ?_⟩
    rintro rfl
    obtain rfl : .x25519Shared strict = i := Option.some.inj h
    cases strict <;> rfl
  · rintro ⟨rfl, hstrict⟩
    cases i with
    | x25519Shared b => cases b <;> rw [hstrict rfl] <;> rfl
    | _ => rfl

theorem fieldReserved_encode (i : Instr) : fieldReserved (encode i) = 0#23 := by
  cases i with
  | x25519Shared strict => cases strict <;> rfl
  | _ => rfl

/-- Only X25519_SHARED's word has STRICT set. -/
theorem fieldOpcode_encode_of_strict {i : Instr} (h : fieldStrict (encode i) = true) :
    fieldOpcode (encode i) = 0x11#8 := by
  cases i with
  | x25519Shared strict => cases strict <;> rfl
  | _ => cases h

/-- A word decodes to `i` exactly when it is `i`'s word: both say that its fields are those of `i`'s word. -/
theorem decodeWord_ok_iff_encode_eq {w : Word} {i : Instr} : decodeWord w = .ok i ↔ encode i = w := by
  rw [decodeWord_ok_iff, opcodeInstr_eq_some_iff, eq_comm (a := encode i), word_eq_iff_fields,
    fieldReserved_encode]
  constructor
  · rintro ⟨⟨hop, hshared⟩, hres, hstrict⟩
    refine ⟨hop, Bool.eq_iff_iff.mpr ⟨fun hw => ?_, fun hi => ?_⟩, hres⟩
    · rw [← hshared (hstrict hw), hw]
    · rw [hshared (hop.trans (fieldOpcode_encode_of_strict hi)), hi]
  · rintro ⟨hop, hstrict, hres⟩
    refine ⟨⟨hop, fun _ => hstrict⟩, hres, fun hw => ?_⟩
    rw [hop, fieldOpcode_encode_of_strict (hstrict ▸ hw)]

@[simp] theorem decodeWord_encode (i : Instr) : decodeWord (encode i) = .ok i :=
  decodeWord_ok_iff_encode_eq.mpr rfl

/-! ### The legal words -/

theorem opcodeDefined_iff {op : Byte} : opcodeDefined op = true ↔
    op.toNat ∈ [0x01, 0x02, 0x03, 0x04, 0x10, 0x11, 0x12, 0x20, 0x21, 0x22, 0x23, 0x24, 0x25, 0x26, 0x27,
      0x30, 0x31, 0x32, 0x33] := by
  rw [opcodeDefined, Bool.or_eq_true, Bool.or_eq_true, List.contains_iff_mem, List.contains_iff_mem,
    List.contains_iff_mem, ← List.mem_append, ← List.mem_append]
  rfl

theorem opcodeDefined_encode (i : Instr) : opcodeDefined (fieldOpcode (encode i)) = true := by
  cases i with
  | x25519Shared strict => cases strict <;> rfl
  | _ => rfl

/-- The opcode map is defined on the opcodes of R103. -/
theorem exists_opcodeInstr_iff {op : Byte} {strict : Bool} :
    (∃ i, opcodeInstr op strict = some i) ↔ opcodeDefined op = true := by
  constructor
  · rintro ⟨i, h⟩
    rw [opcodeInstr_opcode h]
    exact opcodeDefined_encode i
  · intro h
    unfold opcodeInstr
    split
    case h_20 => simp_all [opcodeDefined_iff]
    all_goals exact ⟨_, rfl⟩

@[simp] theorem fieldOpcode_not_allowedMask (op : Byte) : fieldOpcode (~~~(allowedMask op)) = 0#8 := by
  unfold allowedMask; split <;> rfl

@[simp] theorem fieldStrict_not_allowedMask (op : Byte) :
    fieldStrict (~~~(allowedMask op)) = !opcodeTakesStrict op := by
  unfold allowedMask
  split
  · rename_i h; rw [h]; rfl
  · rename_i h; rw [opcodeTakesStrict, beq_false_of_ne h]; rfl

@[simp] theorem fieldReserved_not_allowedMask (op : Byte) :
    fieldReserved (~~~(allowedMask op)) = BitVec.allOnes 23 := by
  unfold allowedMask; split <;> rfl

/-- A word sets no bit outside its opcode's ALLOWED mask exactly when its reserved bits are 0 and STRICT is set
only with the opcode that takes it (R101). -/
theorem and_not_allowedMask_eq_zero_iff {w : Word} : w &&& ~~~(allowedMask (fieldOpcode w)) = 0#32 ↔
    fieldReserved w = 0#23 ∧ (fieldStrict w = true → fieldOpcode w = 0x11#8) := by
  have hop : fieldOpcode 0#32 = 0#8 := rfl
  have hstrict : fieldStrict 0#32 = false := rfl
  have hres : fieldReserved 0#32 = 0#23 := rfl
  rw [word_eq_iff_fields, fieldReserved_and, fieldReserved_not_allowedMask, BitVec.and_allOnes,
    ← opcodeTakesStrict_iff]
  simp [hop, hstrict, hres, and_comm]

/-- The words that decode are the legal ones. -/
theorem exists_decodeWord_iff {w : Word} : (∃ i, decodeWord w = .ok i) ↔ legalWord w = true := by
  simp only [decodeWord_ok_iff, exists_and_right, exists_opcodeInstr_iff]
  rw [← and_not_allowedMask_eq_zero_iff, legalWord, Bool.and_eq_true, beq_iff_eq]
  rfl

end Sys2Proof
end

section
/-! PROOF SUPPORT. One read of a POLL (spec/30_encoding.md R110). -/

namespace Sys2Proof.Machine

/-- BUSY is bit 0 of STATUS (10_state.md R37). -/
@[simp] theorem status_word_getLsbD_zero (st : Status) : st.word.getLsbD 0 = st.busy := by
  rw [Status.word, BitVec.getLsbD_append]
  simp

theorem step_poll {s s' : State} {rest : List BusOp} (hm : HostMoves s s') (hh : s'.host = .poll :: rest) :
    step s = .next { s' with
      host := if s'.status.busy then s'.host else rest
      reads := s'.status.word :: s'.reads } := by
  simp [step_host hm, hostTurn, hh, readReg]

end Sys2Proof.Machine
end

section
/-! PROOFS. The statements about command words and POLL (spec/30_encoding.md R100 to R104, R110). -/

namespace Sys2Proof.Machine

/-- Settles O2: a command's word is the one word whose fields the decoder reads as that command. -/
theorem decodeEncodeAgree : Obligations.DecodeEncodeAgree :=
  fun _ _ => decodeWord_ok_iff_encode_eq

/-- Settles O1: the words that decode are the legal ones of R101. -/
theorem decodesExactlyLegalWords : Obligations.DecodesExactlyLegalWords := by
  intro w
  rw [exists_decodeWord_iff, legalWord, Bool.and_eq_true, beq_iff_eq, opcodeDefined_iff]
  rfl

/-- Settles O3: the eight legal words are encodings, the five others are run through the decoder. -/
theorem tableWordsDecode : Obligations.TableWordsDecode := by
  refine ⟨decodeWord_encode .fadd, decodeWord_encode .finv, decodeWord_encode .x25519Ladder,
    decodeWord_encode (.x25519Shared false), decodeWord_encode (.x25519Shared true),
    decodeWord_encode .edwSmul, decodeWord_encode .edwDecompress, decodeWord_encode .edVerify, ?_⟩
  decide

/-- Settles O50: the step is one read of STATUS, whose bit 0 is BUSY. -/
theorem pollRepeatsUntilIdle : Obligations.PollRepeatsUntilIdle := by
  intro s s' rest hm hh
  refine ⟨_, s'.status.word, step_poll hm hh, busRead_offset s' .status, rfl, fun hb => ?_, fun hb => ?_, rfl⟩
  · rw [status_word_getLsbD_zero] at hb
    exact if_pos hb
  · rw [status_word_getLsbD_zero] at hb
    exact if_neg (Bool.eq_false_iff.mp hb)

end Sys2Proof.Machine
end

section
/-! PROOF SUPPORT. Where a command's rule ends, there its `exec` completes (spec/60_exceptions.md R319), and what a
rule that begins with the length checks of R314 does when one of them fails. -/

namespace Sys2Proof.Machine

variable {i : Instr} {s : State}

theorem exec_completedOk {r : CmdResult} (h : commandOf i s = .ok r) :
    ∃ t, exec i s = .next t ∧ CompletedOk s t r.out r.result := by
  refine ⟨completeOk r s, by rw [exec_eq_complete, h, complete_ok], completeOk_spec r s ?_⟩
  exact (commandOf_ok h).1 ▸ outLength_le i

theorem exec_completedErr {e : CmdError} (h : commandOf i s = .error (.raised e)) :
    ∃ t, exec i s = .next t ∧ CompletedErr s t e.code.number e.slot e.expected e.got e.info :=
  ⟨completeErr e s, by rw [exec_eq_complete, h, complete_raised], completeErr_spec e s⟩

/-- A wrong LEN0 ends the command when its rule checks LEN0 first, whatever follows. -/
theorem exec_badLen0 {n : Nat} {rest : Unit → Except Stop CmdResult}
    (hrule : commandOf i s = checkLen 1#8 s.len0 n >>= rest) (h0 : s.len0.toNat ≠ n) :
    ∃ t, exec i s = .next t ∧ CompletedErr s t 0x02#8 1#8 (BitVec.ofNat 32 n) s.len0 0#8 := by
  rw [checkLen_bad h0, except_error_bind] at hrule
  exact exec_completedErr hrule

/-- A wrong LEN1 ends the command when its rule checks LEN1 after a right LEN0, whatever follows. -/
theorem exec_badLen1 {n m : Nat} {rest : Unit → Except Stop CmdResult}
    (hrule : commandOf i s = checkLen 1#8 s.len0 n >>= fun _ => checkLen 2#8 s.len1 m >>= rest)
    (h0 : s.len0.toNat = n) (h1 : s.len1.toNat ≠ m) :
    ∃ t, exec i s = .next t ∧ CompletedErr s t 0x02#8 2#8 (BitVec.ofNat 32 m) s.len1 0#8 := by
  rw [checkLen_ok h0, except_ok_bind, checkLen_bad h1, except_error_bind] at hrule
  exact exec_completedErr hrule

end Sys2Proof.Machine
end

section
/-! PROOF SUPPORT. The field functions by what they are modulo p (spec/40_field_arithmetic.md R133 to R137), and the
one shape of the rules of FADD, FSUB and FMUL (R140 to R142). -/

namespace Sys2Proof.Machine

/-! ### Subtraction and inversion modulo p -/

/-- What is subtracted and added again gives the minuend, modulo p (R135). -/
theorem fsub_add_mod (a b : Nat) : (fsub a b + b) % fieldPrime = a % fieldPrime := by
  rw [← ZMod.natCast_eq_natCast_iff', Nat.cast_add, cast_fsub, sub_add_cancel]

theorem red_eq_zero_iff {a : Nat} : red a = 0 ↔ (a : ZMod fieldPrime) = 0 := by
  rw [ZMod.natCast_eq_zero_iff, Nat.dvd_iff_mod_eq_zero, red]

/-- Every operand that is 0 modulo p inverts to 0 (R137). -/
theorem finv_of_red_eq_zero {a : Nat} (h : red a = 0) : finv a = 0 := by
  have := fieldPrime_fact
  refine eq_of_cast_eq (finv_lt a) fieldPrime_pos ?_
  rw [cast_finv_eq_inv, red_eq_zero_iff.mp h, inv_zero, Nat.cast_zero]

/-- Every other operand times its inverse is 1 (R137). -/
theorem fmul_finv {a : Nat} (h : red a ≠ 0) : fmul a (finv a) = 1 := by
  have := fieldPrime_fact
  refine eq_of_cast_eq (fmul_lt _ _) (by decide) ?_
  rw [cast_fmul, cast_finv_eq_inv, mul_inv_cancel₀ (mt red_eq_zero_iff.mpr h), Nat.cast_one]

/-- The output encoding of a reduced value holds that value (R139). -/
theorem leNat_feOut_of_lt {x : Nat} (h : x < fieldPrime) : leNat (feOut x) = x := by
  rw [leNat_feOut, Nat.mod_eq_of_lt h]

/-! ### The field commands -/

/-- The rule of a field command with two operands, `f` being its function. -/
def fieldRule (f : Nat → Nat → Nat) (s : State) : Except Stop CmdResult := do
  checkLen 1#8 s.len0 32
  checkLen 2#8 s.len1 32
  let a ← fieldA s
  let b ← fieldB s
  return ⟨feOut (f a b), false⟩

theorem commandOf_fadd : commandOf .fadd = fieldRule fadd := rfl

theorem commandOf_fsub : commandOf .fsub = fieldRule fsub := rfl

theorem commandOf_fmul : commandOf .fmul = fieldRule fmul := rfl

section
variable {i : Instr} {f : Nat → Nat → Nat} {s : State} (hi : commandOf i = fieldRule f)
include hi

theorem fieldRule_badLen0 (h0 : s.len0.toNat ≠ 32) :
    ∃ t, exec i s = .next t ∧ CompletedErr s t 0x02#8 1#8 32#32 s.len0 0#8 :=
  exec_badLen0 (congrFun hi s) h0

theorem fieldRule_badLen1 (h0 : s.len0.toNat = 32) (h1 : s.len1.toNat ≠ 32) :
    ∃ t, exec i s = .next t ∧ CompletedErr s t 0x02#8 2#8 32#32 s.len1 0#8 :=
  exec_badLen1 (congrFun hi s) h0 h1

/-- On written operands the command completes with the function's value, where the function's values are reduced. -/
theorem fieldRule_completes {A B : List Byte} (h0 : s.len0.toNat = 32) (h1 : s.len1.toNat = 32)
    (hA : In0Holds s 32 A) (hB : In1Holds s 32 B) (hf : f (leNat A) (leNat B) < fieldPrime) :
    ∃ t out, exec i s = .next t ∧ CompletedOk s t out false ∧ out.length = 32 ∧
      leNat out = f (leNat A) (leNat B) := by
  have hrule : fieldRule f s = .ok ⟨feOut (f (leNat A) (leNat B)), false⟩ := by
    rw [fieldRule, checkLen_ok h0, checkLen_ok h1, fieldA_ok hA, fieldB_ok hB]
    rfl
  obtain ⟨t, ht, hok⟩ := exec_completedOk ((congrFun hi s).trans hrule)
  exact ⟨t, _, ht, hok, feOut_length _, leNat_feOut_of_lt hf⟩

end

theorem finv_completes {s : State} {A : List Byte} (h0 : s.len0.toNat = 32) (hA : In0Holds s 32 A) :
    ∃ t out, exec .finv s = .next t ∧ CompletedOk s t out false ∧ out.length = 32 ∧
      leNat out = finv (leNat A) := by
  have hrule : finvCommand s = .ok ⟨feOut (finv (leNat A)), false⟩ := by
    rw [finvCommand, checkLen_ok h0, fieldA_ok hA]
    rfl
  obtain ⟨t, ht, hok⟩ := exec_completedOk (i := .finv) hrule
  exact ⟨t, _, ht, hok, feOut_length _, leNat_feOut_of_lt (finv_lt _)⟩

end Sys2Proof.Machine
end

section
/-! PROOFS. The statements about the field commands (spec/40_field_arithmetic.md R140 to R143). -/

namespace Sys2Proof.Machine

/-- Settles O11: FADD runs `fieldRule fadd`, and `fadd` is the sum modulo p. -/
theorem faddAddsModP : Obligations.FaddAddsModP := by
  refine ⟨decodeWord_encode .fadd, fun s => ⟨fieldRule_badLen0 commandOf_fadd, fieldRule_badLen1 commandOf_fadd, ?_⟩⟩
  intro A B h0 h1 hA hB
  rw [← fieldPrime_eq]
  exact fieldRule_completes commandOf_fadd h0 h1 hA hB (fadd_lt _ _)

/-- Settles O12: FSUB runs `fieldRule fsub`, and `fsub` is reduced and undone by adding. -/
theorem fsubSubtractsModP : Obligations.FsubSubtractsModP := by
  refine ⟨decodeWord_encode .fsub, fun s => ⟨fieldRule_badLen0 commandOf_fsub, fieldRule_badLen1 commandOf_fsub, ?_⟩⟩
  intro A B h0 h1 hA hB
  obtain ⟨t, out, ht, hok, hlen, hout⟩ := fieldRule_completes commandOf_fsub h0 h1 hA hB (fsub_lt _ _)
  rw [← fieldPrime_eq]
  refine ⟨t, out, ht, hok, hlen, ?_, ?_⟩
  · exact hout ▸ fsub_lt _ _
  · rw [hout, fsub_add_mod]

/-- Settles O13: FMUL runs `fieldRule fmul`, and `fmul` is the product modulo p. -/
theorem fmulMultipliesModP : Obligations.FmulMultipliesModP := by
  refine ⟨decodeWord_encode .fmul, fun s => ⟨fieldRule_badLen0 commandOf_fmul, fieldRule_badLen1 commandOf_fmul, ?_⟩⟩
  intro A B h0 h1 hA hB
  rw [← fieldPrime_eq]
  exact fieldRule_completes commandOf_fmul h0 h1 hA hB (fmul_lt _ _)

/-- Settles O14: FINV completes with `finv`, which is 0 where the operand is 0 modulo p and its inverse elsewhere. -/
theorem finvInvertsModP : Obligations.FinvInvertsModP := by
  refine ⟨decodeWord_encode .finv, fun s => ⟨exec_badLen0 rfl, ?_⟩⟩
  intro A h0 hA
  obtain ⟨t, out, ht, hok, hlen, hout⟩ := finv_completes h0 hA
  rw [← fieldPrime_eq]
  refine ⟨t, out, ht, hok, hlen, hout ▸ finv_lt _, ?_⟩
  rw [hout]
  split
  case isTrue hz => exact finv_of_red_eq_zero hz
  case isFalse hnz => exact fmul_finv hnz

end Sys2Proof.Machine
end

section
/-! PROOF SUPPORT. The rule of X25519_SHARED beside that of X25519_LADDER, and its value on written operands
(spec/41_montgomery_ladder.md R182, R183). -/

namespace Sys2Proof.Machine

variable {s : State} {strict : Bool} {A B : List Byte}

/-- Without STRICT the zero test is off, and the rule is the ladder's (R183). -/
theorem commandOf_x25519Shared_false : commandOf (.x25519Shared false) = commandOf .x25519Ladder := rfl

theorem exec_x25519Shared_false (s : State) : exec (.x25519Shared false) s = exec .x25519Ladder s := by
  rw [exec_eq_complete, exec_eq_complete, commandOf_x25519Shared_false]

/-- On written operands of the right lengths only the strict zero test is left of the rule (R182). -/
theorem x25519SharedCommand_of_operands (h0 : s.len0.toNat = 32) (h1 : s.len1.toNat = 32)
    (hA : In0Holds s 32 A) (hB : In1Holds s 32 B) : x25519SharedCommand strict s =
      if strict = true ∧ x25519 A B = zeros 32 then raise .zeroSharedSecret 0#8 0#32 0#32 0#8
      else .ok ⟨x25519 A B, false⟩ := by
  rw [x25519SharedCommand, checkLen_ok h0, checkLen_ok h1, readIn0_ok hA, readIn1_ok hB]
  simp only [except_ok_bind, Bool.and_eq_true, beq_iff_eq]
  rfl

end Sys2Proof.Machine
end

section
/-! PROOFS. The statement about X25519_SHARED (spec/41_montgomery_ladder.md R182, R183). -/

namespace Sys2Proof.Machine

/-- Settles O17: the command's rule is the ladder's but for the zero test, which ends it only with STRICT. -/
theorem sharedRejectsZeroOnlyWhenStrict : Obligations.SharedRejectsZeroOnlyWhenStrict := by
  refine ⟨decodeWord_encode (.x25519Shared false), decodeWord_encode (.x25519Shared true),
    exec_x25519Shared_false, fun s strict => ⟨exec_badLen0 rfl, exec_badLen1 rfl, ?_⟩⟩
  intro A B h0 h1 hA hB
  have hrule : commandOf (.x25519Shared strict) s = _ := x25519SharedCommand_of_operands h0 h1 hA hB
  by_cases hzero : strict = true ∧ x25519 A B = zeros 32
  · obtain ⟨t, ht, herr⟩ := exec_completedErr (hrule.trans (if_pos hzero))
    exact ⟨t, ht, (if_pos hzero).mpr herr⟩
  · obtain ⟨t, ht, hok⟩ := exec_completedOk (hrule.trans (if_neg hzero))
    exact ⟨t, ht, (if_neg hzero).mpr hok⟩

end Sys2Proof.Machine
end

section
/-! PROOF SUPPORT. The point operands of the Edwards commands, what `edwAdd` and `compress` compute in the field, and
the values of EDW_ADD and EDW_COMPRESS on written operands (spec/42_edwards_point.md R205, R209, R220, R223). -/

namespace Sys2Proof.Machine

/-! ### Point operands -/

/-- The coordinates fit the 32 bytes each has in a slot (00_scope.md R18). -/
structure Point.Fits (P : Point) : Prop where
  X : P.X < 2 ^ 256
  Y : P.Y < 2 ^ 256
  Z : P.Z < 2 ^ 256
  T : P.T < 2 ^ 256

section
variable {s : State} {P Q : Point}

theorem pointP_of_ptBytes (hP : P.Fits) (h : In0Holds s 128 (ptBytes P)) : pointP s = .ok P := by
  rw [pointP_ok h, ptRead_ptBytes P hP.X hP.Y hP.Z hP.T]

theorem pointQ_of_ptBytes (hQ : Q.Fits) (h : In1Holds s 128 (ptBytes Q)) : pointQ s = .ok Q := by
  rw [pointQ_ok h, ptRead_ptBytes Q hQ.X hQ.Y hQ.Z hQ.T]

theorem edwAdd_completes (h0 : s.len0.toNat = 128) (h1 : s.len1.toNat = 128) (hP : P.Fits) (hQ : Q.Fits)
    (hin0 : In0Holds s 128 (ptBytes P)) (hin1 : In1Holds s 128 (ptBytes Q)) :
    ∃ t, exec .edwAdd s = .next t ∧ CompletedOk s t (ptBytes (edwAdd P Q)) false := by
  have hrule : edwAddCommand s = .ok ⟨ptBytes (edwAdd P Q), false⟩ := by
    rw [edwAddCommand, checkLen_ok h0, checkLen_ok h1, pointP_of_ptBytes hP hin0, pointQ_of_ptBytes hQ hin1]
    rfl
  exact exec_completedOk (i := .edwAdd) hrule

theorem edwCompress_completes (h0 : s.len0.toNat = 128) (hP : P.Fits) (hin0 : In0Holds s 128 (ptBytes P)) :
    ∃ t, exec .edwCompress s = .next t ∧ CompletedOk s t (compress P) false := by
  have hrule : edwCompressCommand s = .ok ⟨compress P, false⟩ := by
    rw [edwCompressCommand, checkLen_ok h0, pointP_of_ptBytes hP hin0]
    rfl
  exact exec_completedOk (i := .edwCompress) hrule

end

/-! ### The unified formula in the field -/

/-- The unified formula's four coordinates in the field (R205). -/
theorem cast_edwAdd (P Q : Point) :
    let a : ZMod fieldPrime := ((P.Y : ZMod fieldPrime) - P.X) * (Q.Y - Q.X)
    let b : ZMod fieldPrime := ((P.Y : ZMod fieldPrime) + P.X) * (Q.Y + Q.X)
    let c : ZMod fieldPrime := (P.T : ZMod fieldPrime) * (2 * edwardsD) * Q.T
    let d : ZMod fieldPrime := (P.Z : ZMod fieldPrime) * 2 * Q.Z
    ((edwAdd P Q).X : ZMod fieldPrime) = (b - a) * (d - c) ∧
    ((edwAdd P Q).Y : ZMod fieldPrime) = (d + c) * (b + a) ∧
    ((edwAdd P Q).Z : ZMod fieldPrime) = (d - c) * (d + c) ∧
    ((edwAdd P Q).T : ZMod fieldPrime) = (b - a) * (b + a) := by
  simp only [edwAdd, cast_fmul, cast_fadd, cast_fsub, cast_edwards2D, Nat.cast_ofNat, and_self]

/-! ### The affine coordinates and their packing -/

/-- `P`'s affine x as `compress` computes it, 0 where Z is 0 modulo p (R209). -/
def Point.affineX (P : Point) : Nat := fmul P.X (finv P.Z)

/-- `P`'s affine y as `compress` computes it (R209). -/
def Point.affineY (P : Point) : Nat := fmul P.Y (finv P.Z)

/-- Dividing by a nonzero z and multiplying by it again gives the dividend, modulo p. -/
theorem fmul_finv_mul_mod {z : Nat} (hz : red z ≠ 0) (a : Nat) :
    fmul a (finv z) * z % fieldPrime = a % fieldPrime := by
  have := fieldPrime_fact
  rw [← ZMod.natCast_eq_natCast_iff', Nat.cast_mul, cast_fmul, cast_finv_eq_inv,
    inv_mul_cancel_right₀ (mt red_eq_zero_iff.mpr hz)]

theorem fmul_finv_of_red_eq_zero {z : Nat} (hz : red z = 0) (a : Nat) : fmul a (finv z) = 0 := by
  rw [finv_of_red_eq_zero hz]
  rfl

theorem compress_eq_le32 (P : Point) : compress P = le32 (P.affineY ||| ((P.affineX &&& 1) <<< 255)) := rfl

/-- The packed integer is the affine y with the affine x's low bit above it, in bit 255 (R209). -/
theorem leNat_compress (P : Point) : leNat (compress P) = P.affineY + 2 ^ 255 * (P.affineX % 2) := by
  have hy : P.affineY < 2 ^ 255 := (fmul_lt _ _).trans fieldPrime_lt
  have hpack : P.affineY ||| ((P.affineX &&& 1) <<< 255) = P.affineY + 2 ^ 255 * (P.affineX % 2) := by
    rw [Nat.and_one_is_mod, Nat.shiftLeft_eq, mul_comm, Nat.or_comm, ← Nat.two_pow_add_eq_or_of_lt hy, add_comm]
  have hfits : P.affineY + 2 ^ 255 * (P.affineX % 2) < 2 ^ 256 := by omega
  rw [compress_eq_le32, hpack, leNat_le32 _ hfits]

/-- Where Z is 0 modulo p both affine coordinates are 0, and so is the packed integer (R209). -/
theorem leNat_compress_of_red_eq_zero {P : Point} (hZ : red P.Z = 0) : leNat (compress P) = 0 := by
  have hx : P.affineX = 0 := fmul_finv_of_red_eq_zero hZ P.X
  have hy : P.affineY = 0 := fmul_finv_of_red_eq_zero hZ P.Y
  rw [leNat_compress, hx, hy, Nat.zero_mod, Nat.mul_zero]

end Sys2Proof.Machine
end

section
/-! PROOFS. The statements about EDW_ADD, EDW_COMPRESS and EDW_NEUTRAL (spec/42_edwards_point.md R220, R223,
R226). -/

namespace Sys2Proof.Machine

/-- Settles O23: EDW_ADD completes with `edwAdd`, whose coordinates are reduced and are the unified formula's. -/
theorem edwAddGivesUnifiedSum : Obligations.EdwAddGivesUnifiedSum := by
  refine ⟨decodeWord_encode .edwAdd, fun s => ⟨exec_badLen0 rfl, exec_badLen1 rfl, ?_⟩⟩
  intro x1 y1 z1 t1 x2 y2 z2 t2 hx1 hy1 hz1 ht1 hx2 hy2 hz2 ht2 h0 h1 hin0 hin1
  obtain ⟨t, ht, hok⟩ := edwAdd_completes (P := ⟨x1, y1, z1, t1⟩) (Q := ⟨x2, y2, z2, t2⟩) h0 h1
    ⟨hx1, hy1, hz1, ht1⟩ ⟨hx2, hy2, hz2, ht2⟩ hin0 hin1
  obtain ⟨hX, hY, hZ, hT⟩ := edwAdd_lt ⟨x1, y1, z1, t1⟩ ⟨x2, y2, z2, t2⟩
  exact ⟨t, _, _, _, _, ht, hok, hX, hY, hZ, hT, cast_edwAdd ⟨x1, y1, z1, t1⟩ ⟨x2, y2, z2, t2⟩⟩

/-- Settles O26: EDW_COMPRESS completes with `compress`, which packs the affine coordinates; both are 0 where Z is 0
modulo p. -/
theorem edwCompressPacksAffinePoint : Obligations.EdwCompressPacksAffinePoint := by
  refine ⟨decodeWord_encode .edwCompress, fun s => ⟨exec_badLen0 rfl, ?_⟩⟩
  intro x1 y1 z1 t1 hx hy hz ht h0 hin0
  rw [← fieldPrime_eq]
  obtain ⟨t, hexec, hok⟩ := edwCompress_completes (P := ⟨x1, y1, z1, t1⟩) h0 ⟨hx, hy, hz, ht⟩ hin0
  refine ⟨t, _, hexec, hok, compress_length _, ?_⟩
  split
  case isTrue hzero => exact leNat_compress_of_red_eq_zero hzero
  case isFalse hzero =>
    exact ⟨_, _, fmul_lt _ _, fmul_lt _ _, fmul_finv_mul_mod hzero x1, fmul_finv_mul_mod hzero y1, leNat_compress _⟩

/-- Settles O29: EDW_NEUTRAL's rule is the constant N, whatever the state. -/
theorem edwNeutralGivesNeutral : Obligations.EdwNeutralGivesNeutral :=
  ⟨decodeWord_encode .edwNeutral, fun _ => exec_completedOk (i := .edwNeutral) rfl⟩

end Sys2Proof.Machine
end

section
/-! PROOF SUPPORT. Every command's rule in one form, by the operand table of spec/30_encoding.md R104: the length
checks, EDW_SMUL's range check, the operand reads, and then a function of the operand bytes alone
(spec/60_exceptions.md R314, R315, R318). -/

namespace Sys2Proof.Machine

/-! ### The length checks (R314, R315) -/

/-- The error of a wrong length: EDW_DECOMPRESS reports it as reason 1 of its own (60_exceptions.md R312, R313). -/
def lengthError (i : Instr) (slot : Byte) (len : Word) (n : Nat) : CmdError :=
  if i = .edwDecompress then ⟨.decompress, slot, BitVec.ofNat 32 n, len, 1#8⟩
  else ⟨.badLength, slot, BitVec.ofNat 32 n, len, 0#8⟩

/-- The check of one slot's length register, where the table requires a length. -/
def checkSlot (i : Instr) (slot : Byte) (len : Word) : Option Nat → Except Stop Unit
  | none => .ok ()
  | some n => if len.toNat ≠ n then .error (.raised (lengthError i slot len n)) else .ok ()

/-- The check of MSG_LEN, where the command takes a message. -/
def checkMessage (i : Instr) (s : State) : Except Stop Unit := if takesMessage i then checkMsg s else .ok ()

/-- The length checks of a command in their order. -/
def lengthChecks (i : Instr) (s : State) : Except Stop Unit := do
  checkSlot i 1#8 s.len0 (requiredLen0 i)
  checkSlot i 2#8 s.len1 (requiredLen1 i)
  checkMessage i s

/-- EDW_SMUL reads its scalar and checks its range before its operands are read (R252, log entry 8). -/
def rangeCheck (i : Instr) (s : State) : Except Stop Unit :=
  if i = .edwSmul then do
    let k ← scalarS s
    if k ≥ 2 ^ 255 then raise .scalarRange 2#8 0#32 0#32 0#8 else .ok ()
  else .ok ()

/-! ### The operand reads (R60) -/

/-- The operand bytes of a command; a slot it does not read is empty. -/
structure Operands where
  in0 : List Byte
  in1 : List Byte
  msg : List Byte

/-- How many bytes of MSG a command reads. -/
def messageLen (i : Instr) (s : State) : Option Nat := if takesMessage i then some s.msgLen.toNat else none

/-- The bytes of one slot from `a`, where the command reads it. -/
def readSlot (s : State) (a : Nat) : Option Nat → Except Stop (List Byte)
  | none => .ok []
  | some n => operandBytes s a n

/-- The operand reads of a command. -/
def readOperands (i : Instr) (s : State) : Except Stop Operands := do
  let in0 ← readSlot s in0Base (requiredLen0 i)
  let msg ← readSlot s msgBase (messageLen i s)
  let in1 ← readSlot s in1Base (requiredLen1 i)
  return ⟨in0, in1, msg⟩

/-! ### The command function (R318) -/

/-- What a command computes from its operand bytes. -/
def commandFunction (i : Instr) (o : Operands) : Except Stop CmdResult :=
  match i with
  | .fadd => .ok ⟨feOut (fadd (leNat o.in0) (leNat o.in1)), false⟩
  | .fsub => .ok ⟨feOut (fsub (leNat o.in0) (leNat o.in1)), false⟩
  | .fmul => .ok ⟨feOut (fmul (leNat o.in0) (leNat o.in1)), false⟩
  | .finv => .ok ⟨feOut (finv (leNat o.in0)), false⟩
  | .x25519Ladder => .ok ⟨x25519 o.in0 o.in1, false⟩
  | .x25519Shared strict =>
    if strict && x25519 o.in0 o.in1 == zeros 32 then raise .zeroSharedSecret 0#8 0#32 0#32 0#8
    else .ok ⟨x25519 o.in0 o.in1, false⟩
  | .x25519Public => .ok ⟨x25519 o.in0 (le32 uBase), false⟩
  | .edwAdd => .ok ⟨ptBytes (edwAdd (ptRead o.in0) (ptRead o.in1)), false⟩
  | .edwDbl => .ok ⟨ptBytes (edwDbl (ptRead o.in0)), false⟩
  | .edwSmul => .ok ⟨ptBytes (edwSmul (ptRead o.in0) (leNat o.in1)), false⟩
  | .edwEq => .ok (boolResult (edwEq (ptRead o.in0) (ptRead o.in1)))
  | .edwCompress => .ok ⟨compress (ptRead o.in0), false⟩
  | .edwDecompress =>
    match decompress o.in0 with
    | .error f => raise .decompress 1#8 0#32 0#32 f.reason
    | .ok P => .ok ⟨ptBytes P, false⟩
  | .edwBase => .ok ⟨ptBytes basePoint, false⟩
  | .edwNeutral => .ok ⟨ptBytes neutralPoint, false⟩
  | .edExpand => .ok ⟨le32 (expandScalar o.in0) ++ expandPrefix o.in0, false⟩
  | .edPubkey => .ok ⟨secretToPublic o.in0, false⟩
  | .edSign => .ok ⟨sign o.in0 o.msg, false⟩
  | .edVerify => .ok (boolResult (verify o.in0 o.msg o.in1))

/-- A command's rule by the operand table. -/
def tableRule (i : Instr) (s : State) : Except Stop CmdResult := do
  lengthChecks i s
  rangeCheck i s
  let o ← readOperands i s
  commandFunction i o

/-- Every rule has that form: unfolded, both sides make the same checks and reads in the same order, but for EDW_SMUL,
which reads its scalar once. -/
theorem commandOf_eq_tableRule (i : Instr) (s : State) : commandOf i s = tableRule i s := by
  cases i <;> simp only [commandOf, faddCommand, fsubCommand, fmulCommand, finvCommand, x25519LadderCommand,
    x25519SharedCommand, x25519PublicCommand, edwAddCommand, edwDblCommand, edwSmulCommand, edwEqCommand,
    edwCompressCommand, edwDecompressCommand, edExpandCommand, edPubkeyCommand, edSignCommand, edVerifyCommand,
    fieldA, fieldB, pointP, pointQ, scalarS, readIn1,
    tableRule, lengthChecks, checkSlot, checkMessage, rangeCheck, readOperands, readSlot, messageLen,
    requiredLen0, requiredLen1, takesMessage, reduceCtorEq, Bool.false_eq_true, if_true, if_false,
    bind_map_left, bind_assoc, pure_bind, except_ok_bind]
  case edwDecompress => split <;> rfl
  case edwSmul =>
    rcases operandBytes s in1Base 32 with stop | k
    · rfl
    · simp only [except_ok_bind]
      split <;> rfl
  all_goals rfl

end Sys2Proof.Machine
end

section
/-! PROOF SUPPORT. How each part of a command's rule ends: which checks and reads answer, and with what a rule stops
(spec/60_exceptions.md R310, R314, R315, R319). -/

namespace Sys2Proof.Machine

/-- `Ends p q x`: the part `x` of a rule answers if `p` holds, and otherwise stops as `q` says. -/
inductive Ends {α : Type} (p : Prop) (q : Stop → Prop) : Except Stop α → Prop where
  | answers {a : α} (holds : p) : Ends p q (.ok a)
  | stops {stop : Stop} (fails : ¬ p) (how : q stop) : Ends p q (.error stop)

/-- The end is an error that a command's rule may raise: no unwritten byte, and not ILLEGAL_CMD. -/
def Stop.IsCommandError (stop : Stop) : Prop := ∃ e, stop = .raised e ∧ e.code ≠ .illegalCmd

theorem isCommandError_raised {e : CmdError} : (Stop.raised e).IsCommandError ↔ e.code ≠ .illegalCmd :=
  ⟨fun ⟨_, he, hc⟩ => by cases he; exact hc, fun hc => ⟨e, rfl, hc⟩⟩

/-- The codes of R310 but for ILLEGAL_CMD's are 2 to 6. -/
theorem ErrCode.number_bounds {code : ErrCode} (h : code ≠ .illegalCmd) :
    2 ≤ code.number.toNat ∧ code.number.toNat ≤ 6 := by
  cases code with
  | illegalCmd => exact absurd rfl h
  | _ => decide

section
variable {α β : Type} {p p' : Prop} {q : Stop → Prop} {x : Except Stop α} {f : α → Except Stop β} {stop : Stop}

theorem Ends.of_holds (h : Ends p q x) (hp : p) : ∃ a, x = .ok a := by
  cases h with
  | answers _ => exact ⟨_, rfl⟩
  | stops fails _ => exact absurd hp fails

theorem Ends.of_fails (h : Ends p q x) (hp : ¬ p) : ∃ stop, x = .error stop ∧ q stop := by
  cases h with
  | answers holds => exact absurd holds hp
  | stops _ how => exact ⟨_, rfl, how⟩

theorem Ends.of_error (h : Ends p q x) (hx : x = .error stop) : ¬ p ∧ q stop := by
  subst hx
  cases h with
  | stops fails how => exact ⟨fails, how⟩

theorem Ends.of_ok {a : α} (h : Ends p q x) (hx : x = .ok a) : p := by
  subst hx
  cases h with
  | answers holds => exact holds

/-- Of two parts in sequence both answer, or the first that does not stops the rule. -/
theorem Ends.bind (hx : Ends p q x) (hf : ∀ a, Ends p' q (f a)) : Ends (p ∧ p') q (x >>= f) := by
  cases hx with
  | stops fails how => exact .stops (fun h => fails h.1) how
  | @answers a holds =>
    rw [except_ok_bind]
    cases hfa : f a with
    | ok b => exact .answers ⟨holds, (hf a).of_ok hfa⟩
    | error stop => exact .stops (fun h => ((hf a).of_error hfa).1 h.2) ((hf a).of_error hfa).2

theorem Ends.congr (h : Ends p q x) (hp : p ↔ p') : Ends p' q x := propext hp ▸ h

/-- A sequence stops where its first part stops, or where its second does after an answer of the first. -/
theorem bind_eq_error :
    (x >>= f) = .error stop ↔ x = .error stop ∨ ∃ a, x = .ok a ∧ f a = .error stop := by
  cases x <;> simp

theorem isCommandError_of_raise {code : ErrCode} {slot info : Byte} {expected got : Word}
    (hr : (raise code slot expected got info : Except Stop α) = .error stop) (hc : code ≠ .illegalCmd) :
    stop.IsCommandError := by
  cases hr
  exact isCommandError_raised.mpr hc

end

section
variable {i : Instr} {s : State} {stop : Stop}

/-! ### The checks -/

theorem lengthError_isCommandError (i : Instr) (slot : Byte) (len : Word) (n : Nat) :
    (Stop.raised (lengthError i slot len n)).IsCommandError := by
  rw [isCommandError_raised, lengthError]
  split <;> nofun

theorem checkSlot_ends (i : Instr) (slot : Byte) (len : Word) (required : Option Nat) :
    Ends (∀ n ∈ required, len.toNat = n) Stop.IsCommandError (checkSlot i slot len required) := by
  cases required with
  | none => exact .answers nofun
  | some n =>
    by_cases h : len.toNat = n
    · rw [checkSlot, if_neg (not_not_intro h)]
      exact .answers (by simpa using h)
    · rw [checkSlot, if_pos h]
      exact .stops (by simpa using h) (lengthError_isCommandError ..)

theorem checkMessage_ends (i : Instr) (s : State) :
    Ends (takesMessage i = true → s.msgLen.toNat ≤ Config.msgCap) Stop.IsCommandError (checkMessage i s) := by
  by_cases ht : takesMessage i = true
  · rw [checkMessage, if_pos ht]
    by_cases h : s.msgLen.toNat ≤ Config.msgCap
    · rw [checkMsg_ok h]
      exact .answers fun _ => h
    · rw [checkMsg_bad (Nat.lt_of_not_le h)]
      exact .stops (fun hp => h (hp ht)) (isCommandError_raised.mpr nofun)
  · rw [checkMessage, if_neg ht]
    exact .answers fun h => absurd h ht

theorem lengthsPass_iff : LengthsPass i s ↔ (∀ n ∈ requiredLen0 i, s.len0.toNat = n) ∧
    (∀ n ∈ requiredLen1 i, s.len1.toNat = n) ∧ (takesMessage i = true → s.msgLen.toNat ≤ Config.msgCap) :=
  ⟨fun ⟨h0, h1, hm⟩ => ⟨h0, h1, hm⟩, fun ⟨h0, h1, hm⟩ => ⟨h0, h1, hm⟩⟩

/-- The length checks answer exactly where the lengths are right, and otherwise end in a command's error. -/
theorem lengthChecks_ends (i : Instr) (s : State) :
    Ends (LengthsPass i s) Stop.IsCommandError (lengthChecks i s) :=
  ((checkSlot_ends ..).bind fun _ => (checkSlot_ends ..).bind fun _ => checkMessage_ends i s).congr
    lengthsPass_iff.symm

/-! ### The reads -/

theorem readSlot_ends (s : State) (a : Nat) (len : Option Nat) :
    Ends (∀ n ∈ len, (s.mem.readBytes a n).isSome) (· = .unwritten) (readSlot s a len) := by
  cases len with
  | none => exact .answers nofun
  | some n =>
    rw [readSlot]
    rcases h : s.mem.readBytes a n with _ | bs
    · rw [operandBytes_unwritten h]
      exact .stops (by simp [h]) rfl
    · rw [operandBytes_ok h]
      exact .answers (by simp [h])

theorem operandsWritten_iff : OperandsWritten i s ↔
    (∀ n ∈ requiredLen0 i, (s.mem.readBytes in0Base n).isSome) ∧
    (∀ n ∈ messageLen i s, (s.mem.readBytes msgBase n).isSome) ∧
    (∀ n ∈ requiredLen1 i, (s.mem.readBytes in1Base n).isSome) ∧ True := by
  have hmsg : (∀ n ∈ messageLen i s, (s.mem.readBytes msgBase n).isSome) ↔
      (takesMessage i = true → (s.mem.readBytes msgBase s.msgLen.toNat).isSome) := by simp [messageLen]
  rw [hmsg, and_true]
  exact ⟨fun ⟨h0, h1, hm⟩ => ⟨h0, hm, h1⟩, fun ⟨h0, hm, h1⟩ => ⟨h0, h1, hm⟩⟩

/-- The operand reads answer exactly where every operand byte is written. -/
theorem readOperands_ends (i : Instr) (s : State) :
    Ends (OperandsWritten i s) (· = .unwritten) (readOperands i s) :=
  ((readSlot_ends ..).bind fun _ => (readSlot_ends ..).bind fun _ => (readSlot_ends ..).bind fun _ =>
    .answers trivial).congr operandsWritten_iff.symm

/-! ### EDW_SMUL's range check -/

theorem rangeCheck_of_ne (h : i ≠ .edwSmul) (s : State) : rangeCheck i s = .ok () := if_neg h

theorem rangeCheck_of_scalar {B : List Byte} (hB : In1Holds s 32 B) (hr : leNat B < 2 ^ 255) :
    rangeCheck .edwSmul s = .ok () := by
  rw [rangeCheck, if_pos rfl, scalarS_ok hB, except_ok_bind, if_neg (Nat.not_le.mpr hr)]

theorem rangeCheck_of_scalar_ge {B : List Byte} (hB : In1Holds s 32 B) (hr : 2 ^ 255 ≤ leNat B) :
    rangeCheck .edwSmul s = raise .scalarRange 2#8 0#32 0#32 0#8 := by
  rw [rangeCheck, if_pos rfl, scalarS_ok hB, except_ok_bind, if_pos hr]

theorem rangeCheck_of_unwritten (h : s.mem.readBytes in1Base 32 = none) :
    rangeCheck .edwSmul s = .error .unwritten := by
  rw [rangeCheck, if_pos rfl, scalarS, readIn1, operandBytes_unwritten h]
  rfl

theorem rangeCheck_error (h : rangeCheck i s = .error stop) :
    stop.IsCommandError ∨ (stop = .unwritten ∧ ¬ OperandsWritten i s) := by
  by_cases hi : i = .edwSmul
  · subst hi
    rcases hB : s.mem.readBytes in1Base 32 with _ | B
    · rw [rangeCheck_of_unwritten hB] at h
      cases h
      refine .inr ⟨rfl, fun hw => ?_⟩
      simpa [hB] using hw.in1 32 rfl
    · by_cases hr : leNat B < 2 ^ 255
      · simp [rangeCheck_of_scalar hB hr] at h
      · rw [rangeCheck_of_scalar_ge hB (Nat.le_of_not_lt hr)] at h
        exact .inl (isCommandError_of_raise h nofun)
  · simp [rangeCheck_of_ne hi] at h

/-! ### The rule -/

/-- Computing from the operand bytes, only X25519_SHARED and EDW_DECOMPRESS raise an error. -/
theorem commandFunction_error {o : Operands} (h : commandFunction i o = .error stop) : stop.IsCommandError := by
  cases i with
  | x25519Shared strict =>
    rw [commandFunction] at h
    split at h
    · exact isCommandError_of_raise h nofun
    · cases h
  | edwDecompress =>
    rw [commandFunction] at h
    split at h
    · exact isCommandError_of_raise h nofun
    · cases h
  | _ => cases h

/-- With what a rule stops: an error of the command, or an operand byte that is not written. -/
theorem commandOf_error (h : commandOf i s = .error stop) :
    stop.IsCommandError ∨ (stop = .unwritten ∧ ¬ OperandsWritten i s) := by
  simp only [commandOf_eq_tableRule, tableRule, bind_eq_error] at h
  rcases h with hl | ⟨_, _, hr | ⟨_, _, ho | ⟨o, _, hf⟩⟩⟩
  · exact .inl ((lengthChecks_ends i s).of_error hl).2
  · exact rangeCheck_error hr
  · obtain ⟨hw, hs⟩ := (readOperands_ends i s).of_error ho
    exact .inr ⟨hs, hw⟩
  · exact .inl (commandFunction_error hf)

/-- A failing length check ends the rule, whatever the buffers hold. -/
theorem commandOf_of_not_lengthsPass (h : ¬ LengthsPass i s) :
    ∃ stop, commandOf i s = .error stop ∧ stop.IsCommandError := by
  obtain ⟨stop, hl, hs⟩ := (lengthChecks_ends i s).of_fails h
  exact ⟨stop, by rw [commandOf_eq_tableRule, tableRule, hl, except_error_bind], hs⟩

theorem commandOf_of_lengthsPass (h : LengthsPass i s) :
    commandOf i s = rangeCheck i s >>= fun _ => readOperands i s >>= commandFunction i := by
  obtain ⟨_, hl⟩ := (lengthChecks_ends i s).of_holds h
  rw [commandOf_eq_tableRule, tableRule, hl, except_ok_bind]

/-- After its checks a command stops at an operand byte that is not written. -/
theorem commandOf_of_unwritten (hl : LengthsPass i s) (hr : rangeCheck i s = .ok ()) (hw : ¬ OperandsWritten i s) :
    commandOf i s = .error .unwritten := by
  obtain ⟨_, ho, rfl⟩ := (readOperands_ends i s).of_fails hw
  rw [commandOf_of_lengthsPass hl, hr, except_ok_bind, ho, except_error_bind]

theorem exec_of_unwritten (h : commandOf i s = .error .unwritten) : exec i s = .fault .unwrittenOperand := by
  rw [exec_eq_complete, h, complete_unwritten]

theorem exec_of_isCommandError (h : commandOf i s = .error stop) (hs : stop.IsCommandError) :
    ∃ (t : State) (e : CmdError), exec i s = .next t ∧
      CompletedErr s t e.code.number e.slot e.expected e.got e.info := by
  obtain ⟨e, rfl, _⟩ := hs
  obtain ⟨t, ht, herr⟩ := exec_completedErr h
  exact ⟨t, e, ht, herr⟩

end

end Sys2Proof.Machine
end

section
/-! PROOF SUPPORT. A command's outcome depends on its inputs alone (spec/60_exceptions.md R318). -/

namespace Sys2Proof.Machine

section
variable {i : Instr} {s s' : State}

/-! ### The same inputs give the same rule -/

theorem SameInputs.lengthChecks_eq (h : SameInputs s s') (i : Instr) : lengthChecks i s = lengthChecks i s' := by
  obtain ⟨h0, h1, hm, _⟩ := h
  simp only [lengthChecks, checkMessage, checkMsg, h0, h1, hm]

/-- A read of operand bytes only. -/
theorem SameInputs.readSlot_eq (h : SameInputs s s') {a : Nat} {len : Option Nat}
    (hop : ∀ n ∈ len, ∀ x, a ≤ x → x < a + n → IsOperandByte x) : readSlot s a len = readSlot s' a len := by
  cases len with
  | none => rfl
  | some n =>
    have hbytes : s.mem.readBytes a n = s'.mem.readBytes a n :=
      readBytes_congr fun x h1 h2 => h.bytes x (hop n rfl x h1 h2)
    rw [readSlot, readSlot, operandBytes, operandBytes, hbytes]

theorem requiredLen0_le : ∀ n ∈ requiredLen0 i, n ≤ 128 := by
  cases i <;> simp [requiredLen0]

theorem requiredLen1_le : ∀ n ∈ requiredLen1 i, n ≤ 128 := by
  cases i <;> simp [requiredLen1]

theorem isOperandByte_of_in0 {n x : Nat} (hn : n ≤ 128) (h1 : in0Base ≤ x) (h2 : x < in0Base + n) :
    IsOperandByte x := by
  rw [isOperandByte_iff]
  simp only [in0Base] at h1 h2
  omega

theorem isOperandByte_of_in1 {n x : Nat} (hn : n ≤ 128) (h1 : in1Base ≤ x) (h2 : x < in1Base + n) :
    IsOperandByte x := by
  rw [isOperandByte_iff]
  simp only [in1Base] at h1 h2
  omega

theorem isOperandByte_of_msg {n x : Nat} (hn : n ≤ Config.msgCap) (h1 : msgBase ≤ x) (h2 : x < msgBase + n) :
    IsOperandByte x := by
  rw [isOperandByte_iff]
  simp only [msgBase, Config.msgCap] at hn h1 h2
  omega

theorem SameInputs.readOperands_eq (h : SameInputs s s') (hl : LengthsPass i s) :
    readOperands i s = readOperands i s' := by
  have hlen : messageLen i s = messageLen i s' := by rw [messageLen, messageLen, h.msgLen]
  have hcap : ∀ n ∈ messageLen i s, n ≤ Config.msgCap := by
    simpa [messageLen] using hl.msgLen
  rw [readOperands, readOperands, ← hlen,
    h.readSlot_eq fun n hn _ => isOperandByte_of_in0 (requiredLen0_le n hn),
    h.readSlot_eq fun n hn _ => isOperandByte_of_msg (hcap n hn),
    h.readSlot_eq fun n hn _ => isOperandByte_of_in1 (requiredLen1_le n hn)]

theorem SameInputs.rangeCheck_eq (h : SameInputs s s') (i : Instr) : rangeCheck i s = rangeCheck i s' := by
  have hin1 : readIn1 s 32 = readIn1 s' 32 := h.readSlot_eq (len := some 32) fun n hn _ =>
    isOperandByte_of_in1 (by cases hn; decide)
  rw [rangeCheck, rangeCheck, scalarS, scalarS, hin1]

theorem SameInputs.commandOf_eq (h : SameInputs s s') (i : Instr) : commandOf i s = commandOf i s' := by
  rw [commandOf_eq_tableRule, commandOf_eq_tableRule, tableRule, tableRule, ← h.lengthChecks_eq i]
  rcases hc : lengthChecks i s with stop | _
  · rfl
  · have hl : LengthsPass i s := (lengthChecks_ends i s).of_ok hc
    rw [h.rangeCheck_eq i, h.readOperands_eq hl]

end

/-! ### The same end shows the same results -/

theorem completeOk_sameResults {r : CmdResult} (h : r.out.length ≤ bufBytes) (s s' : State) :
    SameResults (completeOk r s) (completeOk r s') :=
  ⟨rfl, rfl, rfl, rfl, rfl, rfl, rfl, rfl, rfl, rfl,
    (completeOk_spec r s h).out.bytes.trans (completeOk_spec r s' h).out.bytes.symm⟩

theorem completeErr_sameResults (e : CmdError) (s s' : State) :
    SameResults (completeErr e s) (completeErr e s') :=
  ⟨rfl, rfl, rfl, rfl, rfl, rfl, rfl, rfl, rfl, rfl,
    (completeErr_spec e s).out.bytes.trans (completeErr_spec e s').out.bytes.symm⟩

/-- Whether a completion faults does not depend on the state it completes in. -/
theorem complete_fault {o : Except Stop CmdResult} {s : State} {f : Fault} (h : complete o s = .fault f) (s' : State) :
    complete o s' = .fault f := by
  rcases complete_cases o s with ⟨_, rfl, _⟩ | ⟨_, rfl, _⟩ | ⟨rfl, _⟩
  · cases h
  · cases h
  · exact h

end Sys2Proof.Machine
end

section
/-! PROOF SUPPORT. The ENGINE's step on a command word (spec/60_exceptions.md R318, R319, log entry 3). -/

namespace Sys2Proof.Machine

/-- The table's word of a command is its encoding (30_encoding.md R104). -/
theorem tableWord_encode (i : Instr) : tableWord 32 (encode i).toNat = encode i := by
  apply BitVec.eq_of_toNat_eq
  rw [tableWord, BitVec.toNat_ofNat, Nat.mod_mod, Nat.mod_eq_of_lt (encode i).isLt]

theorem step_legal {s s' : State} {i : Instr} (hm : EngineMoves s s') (hb : s'.status.busy = true)
    (hd : decodeWord s'.cmd = .ok i) : step s = exec i s' := by
  rw [step_engine hm, engineTurn_busy hb, runCommand_legal hd]

end Sys2Proof.Machine
end

section
/-! PROOFS. The statements about completion, errors and faults (spec/60_exceptions.md R310 to R325). -/

namespace Sys2Proof.Machine

/-- Settles O5: an illegal word does not decode, and the step is ILLEGAL_CMD's `Err` completion. -/
theorem illegalWordCompletesWithItsWord : Obligations.IllegalWordCompletesWithItsWord := by
  intro s s' hm hb hw
  rw [step_engine hm, engineTurn_busy hb]
  rcases hd : decodeWord s'.cmd with _ | i
  · exact ⟨_, runCommand_illegal hd, completeErr_spec _ s'⟩
  · exact absurd (exists_decodeWord_iff.mp ⟨i, hd⟩) (by simp [hw])

/-- Settles O6: the two ends of `exec_next`, with the codes a command's rule can raise. -/
theorem commandsCompleteAtomically : Obligations.CommandsCompleteAtomically := by
  intro i s t h
  rcases exec_next h with ⟨r, hr, _, _, hok⟩ | ⟨e, he, _, herr⟩
  · obtain ⟨hlen, hres⟩ := commandOf_ok hr
    exact .inl ⟨r.out, r.result, hlen, hres, hok⟩
  · rcases commandOf_error he with hs | ⟨hu, _⟩
    · obtain ⟨h2, h6⟩ := ErrCode.number_bounds (isCommandError_raised.mp hs)
      exact .inr ⟨_, _, _, _, _, h2, h6, herr⟩
    · cases hu

/-- Settles O7: the same inputs give the same end of the rule, and so the same results or the same fault. -/
theorem outcomeDependsOnlyOnInputs : Obligations.OutcomeDependsOnlyOnInputs := by
  intro i s s' hin
  have hexec : exec i s' = complete (commandOf i s) s' := by rw [exec_eq_complete, hin.commandOf_eq i]
  rw [hexec]
  constructor
  · intro t h
    rcases exec_next h with ⟨r, hr, rfl, hlen, _⟩ | ⟨e, he, rfl, _⟩
    · exact ⟨_, by rw [hr, complete_ok], completeOk_sameResults (hlen ▸ outLength_le i) s s'⟩
    · exact ⟨_, by rw [he, complete_raised], completeErr_sameResults e s s'⟩
  · intro f h
    rw [exec_eq_complete] at h
    exact complete_fault h s'

/-- Settles O8: with its operands written a rule stops only in an error of the command, and so it does where a length
check fails. -/
theorem commandsCompleteOnWrittenOperands : Obligations.CommandsCompleteOnWrittenOperands := by
  constructor
  · intro i s hw
    rcases hc : commandOf i s with stop | r
    · rcases commandOf_error hc with hs | ⟨_, hn⟩
      · obtain ⟨t, _, ht, herr⟩ := exec_of_isCommandError hc hs
        exact ⟨t, ht, herr.busy, herr.done⟩
      · exact absurd hw hn
    · obtain ⟨t, ht, hok⟩ := exec_completedOk hc
      exact ⟨t, ht, hok.busy, hok.done⟩
  · intro i s hl
    obtain ⟨stop, hc, hs⟩ := commandOf_of_not_lengthsPass hl
    obtain ⟨t, _, ht, herr⟩ := exec_of_isCommandError hc hs
    exact ⟨t, ht, herr.err⟩

/-- Settles O9: after its checks a rule stops at the first operand byte that is not written. -/
theorem unwrittenOperandStopsTheCommand : Obligations.UnwrittenOperandStopsTheCommand := by
  refine ⟨fun i s hi hl hw => ?_, fun s hl h1 => ?_, fun s B hl hB hr h0 => ?_⟩
  · exact exec_of_unwritten (commandOf_of_unwritten hl (rangeCheck_of_ne hi s) hw)
  · refine exec_of_unwritten ?_
    rw [commandOf_of_lengthsPass hl, rangeCheck_of_unwritten h1, except_error_bind]
  · refine exec_of_unwritten (commandOf_of_unwritten hl (rangeCheck_of_scalar hB hr) fun hw => ?_)
    simpa [h0] using hw.in0 128 rfl

/-- Settles O39: the step is `writeReg` at CMD, which starts the command while IDLE and is dropped while BUSY. -/
theorem cmdWriteStartsCommand : Obligations.CmdWriteStartsCommand := by
  intro s s' w rest hm hh
  constructor
  · intro hb
    have hstart : step s = .next (startCommand w { s' with host := rest }) := by
      rw [step_write_offset (r := .cmd) hm hh, writeReg_cmd_idle]
      exact hb
    refine ⟨_, hstart, ?_⟩
    and_intros <;> rfl
  · intro hb
    rw [step_write_offset (r := .cmd) hm hh, writeReg_cmd_busy]
    · rfl
    · exact hb

/-- Settles O4: the ENGINE's turn decodes CMD, and the word of `withFetchWord` is in CMD at the ENGINE's turn. -/
theorem stepRunsDecodedCommand : Obligations.StepRunsDecodedCommand := by
  refine ⟨fun s s' i => step_legal, fun s i => ?_⟩
  rw [State.withFetchWord, tableWord_encode]
  have hm : EngineMoves (placeCommand (encode i) s) (startCommand (encode i) s) := rfl
  exact step_legal hm rfl (decodeWord_encode i)

/-- Settles O10: both completions set DONE and keep DONE_IE. -/
theorem completionRaisesEnabledInterrupt : Obligations.CompletionRaisesEnabledInterrupt := by
  intro i s t h
  rcases exec_next h with ⟨_, _, _, _, hok⟩ | ⟨_, _, _, herr⟩
  · rw [State.irq, hok.done, hok.frame.doneIe, Bool.true_and]
  · rw [State.irq, herr.done, herr.frame.doneIe, Bool.true_and]

end Sys2Proof.Machine
end

section
/-! PROOFS. A HOST read of an operand byte not written since reset (spec/70_reset_and_hazards.md R352). -/

namespace Sys2Proof.Machine

theorem hostByte_of_unwritten {s : State} {a : Nat} (h : s.mem.read a = none) :
    hostByte s a = Config.unspecifiedByte s.epoch a := by
  simp [hostByte, h]

/-- A byte read of an operand buffer is the byte's value, zero-extended (20_memory.md R71). -/
theorem busRead_operand_byte {s : State} {a : Nat} (ha : IsOperandByte a) :
    busRead s a .w8 = some ((hostByte s a).setWidth 32) := by
  have ht : accessTarget a .w8 = some .operand := accessTarget_of_operand ha (Nat.mod_one a)
  simp [busRead, ht, Width.bytes, hostBytes, leNat]

/-- Settles O49: the step is a byte read of the operand buffer, and a byte not written is read as the free value. -/
theorem unwrittenByteReadIsNoFault : Obligations.UnwrittenByteReadIsNoFault := by
  intro s s' off rest hm hh ho hu
  refine step_read_next hm hh ?_
  rw [busRead_operand_byte ho, hostByte_of_unwritten hu]

end Sys2Proof.Machine
end

section
/-! PROOF SUPPORT. Every agent's turn keeps the invariant: the HOST's accesses leave the completion's record alone or
start a command, a completion writes it anew, and reset empties it (spec/10_state.md section 2 and 3,
spec/60_exceptions.md R317, R319). -/

namespace Sys2Proof.Machine

/-! ### Parts of the invariant -/

/-- The memory is canonical and lists buffer bytes only. -/
def Memory.Good (m : Memory) : Prop := m.wf ∧ m.inBuffers

theorem inv_iff {s : State} : s.Inv ↔ s.mem.Good ∧ StatusInv s ∧ OutInv s :=
  ⟨fun ⟨hw, hb, hst, ho⟩ => ⟨⟨hw, hb⟩, hst, ho⟩, fun ⟨⟨hw, hb⟩, hst, ho⟩ => ⟨hw, hb, hst, ho⟩⟩

/-- A string stored in one of the buffers keeps the memory good. -/
theorem Memory.Good.writeBytes {m : Memory} (h : m.Good) {a : Nat} {bs : List Byte}
    (ha : ∀ x, a ≤ x → x < a + bs.length → IsOperandByte x ∨ IsOutByte x) : (m.writeBytes a bs).Good := by
  obtain ⟨hw, hb⟩ := h
  refine ⟨writeBytes_wf hw a bs, writeBytes_inBuffers hb fun x h1 h2 => ?_⟩
  rcases ha x h1 h2 with (hr | hr | hr) | hr
  · simp [hr]
  · simp [hr]
  · simp [hr]
  · simp [isOutByte_iff.mp hr]

theorem Memory.Good.writeOut {m : Memory} (h : m.Good) {bs : List Byte} (hl : bs.length ≤ bufBytes) :
    (m.writeBytes outBase bs).Good :=
  h.writeBytes fun _ h1 h2 => .inr ⟨h1, by omega⟩

/-- `t` shows the flags and the error record of `s`, but that DONE may be cleared. -/
structure SameRecord (s t : State) : Prop where
  busy : t.status.busy = s.status.busy
  done : t.status.done = true → s.status.done = true
  err : t.status.err = s.status.err
  result : t.status.result = s.status.result
  errcode : t.status.errcode = s.status.errcode
  errSlot : t.errSlot = s.errSlot
  errExpected : t.errExpected = s.errExpected
  errGot : t.errGot = s.errGot
  errInfo : t.errInfo = s.errInfo
  outLen : t.outLen = s.outLen

theorem SameRecord.of_status_eq {s t : State} (hst : t.status = s.status) (hslot : t.errSlot = s.errSlot)
    (hexp : t.errExpected = s.errExpected) (hgot : t.errGot = s.errGot) (hinfo : t.errInfo = s.errInfo)
    (hout : t.outLen = s.outLen) : SameRecord s t :=
  ⟨by rw [hst], by rw [hst]; exact id, by rw [hst], by rw [hst], by rw [hst], hslot, hexp, hgot, hinfo, hout⟩

theorem StatusInv.of_sameRecord {s t : State} (hs : StatusInv s) (h : SameRecord s t) : StatusInv t := by
  obtain ⟨hbusy, hdone, herr, hres, hcode, hslot, hexp, hgot, hinfo, hout⟩ := h
  obtain ⟨bd, be, br, er, ec, cr, eo, ok, sr, ir⟩ := hs
  constructor
  case busyDone => exact fun hb => Bool.eq_false_iff.mpr fun hd =>
    Bool.eq_false_iff.mp (bd (hbusy ▸ hb)) (hdone hd)
  case busyErr => rwa [hbusy, herr]
  case busyResult => rwa [hbusy, hres]
  case errResult => rwa [herr, hres]
  case errCode => rwa [herr, hcode]
  case codeRange => rwa [hcode]
  case errOut => rwa [herr, hout]
  case okRecord => rwa [herr, hslot, hexp, hgot, hinfo]
  case slotRange => rwa [hslot]
  case infoRange => rwa [hinfo]

theorem OutInv.of_sameOut {s t : State} (hs : OutInv s) (h : SameOut s t) : OutInv t := by
  obtain ⟨hlen, hbytes⟩ := h
  refine ⟨hlen ▸ hs.length, fun a h1 h2 => ?_⟩
  rw [hlen] at h1
  rw [hbytes a ⟨by omega, h2⟩]
  exact hs.tail a h1 h2

/-- OUT is zero after what it holds. -/
theorem OutHolds.outInv {t : State} {out : List Byte} (h : OutHolds t out)
    (hl : out.length ∈ [0, 1, 32, 64, 128]) : OutInv t := by
  obtain ⟨hfits, hbytes, hlen⟩ := h
  refine ⟨hlen ▸ hl, fun a h1 h2 => ?_⟩
  rw [hlen] at h1
  have hread := (readBytes_eq_some.mp hbytes).2 (a - outBase) (by omega)
  rw [Nat.add_sub_cancel' (by omega), List.getElem?_append_right (by omega)] at hread
  rw [hread, zeros, List.getElem?_replicate, if_pos (by omega)]

/-- The invariant is about the memory, the flags and the record alone. -/
theorem State.Inv.of_sameRecord {s t : State} (hs : s.Inv) (hmem : t.mem = s.mem) (h : SameRecord s t) : t.Inv := by
  obtain ⟨hm, hst, ho⟩ := inv_iff.mp hs
  exact inv_iff.mpr ⟨hmem ▸ hm, hst.of_sameRecord h, ho.of_sameOut ⟨h.outLen, fun _ _ => by rw [hmem]⟩⟩

/-- The invariant does not see the agents' record. -/
theorem State.Inv.of_agents {s : State} (h : s.Inv) (sched : List Turn) (host : List BusOp) (reads : List Word) :
    State.Inv { s with sched := sched, host := host, reads := reads } :=
  h.of_sameRecord rfl (.of_status_eq rfl rfl rfl rfl rfl rfl)

/-! ### The HOST's turn -/

theorem dropWrite_inv {s : State} (hs : s.Inv) : (dropWrite s).Inv :=
  hs.of_sameRecord rfl ⟨rfl, id, rfl, rfl, rfl, rfl, rfl, rfl, rfl, rfl⟩

theorem dropCommand_inv {s : State} (hs : s.Inv) : (dropCommand s).Inv :=
  hs.of_sameRecord rfl ⟨rfl, id, rfl, rfl, rfl, rfl, rfl, rfl, rfl, rfl⟩

theorem startCommand_inv {s : State} (hs : s.Inv) (w : Word) : (startCommand w s).Inv := by
  obtain ⟨hm, _, ho⟩ := inv_iff.mp hs
  exact inv_iff.mpr ⟨hm, by constructor <;> simp, ho.of_sameOut ⟨rfl, fun _ _ => rfl⟩⟩

theorem writeReg_inv {s : State} (hs : s.Inv) (r : Reg) (v : Word) : (writeReg s r v).Inv := by
  by_cases hl : s.status.busy = true ∧ r.isLength
  · obtain ⟨hb, hr⟩ := hl
    rw [writeReg_length_busy hr hb]
    exact dropWrite_inv hs
  have hidle : r.isLength → s.status.busy = false := fun hr => Bool.eq_false_iff.mpr fun hb => hl ⟨hb, hr⟩
  cases r with
  | cmd =>
    rcases hb : s.status.busy with _ | _
    · rw [writeReg_cmd_idle hb]; exact startCommand_inv hs v
    · rw [writeReg_cmd_busy hb]; exact dropCommand_inv hs
  | status =>
    exact hs.of_sameRecord rfl
      ⟨rfl, fun hd => (Bool.and_eq_true_iff.mp hd).1, rfl, rfl, rfl, rfl, rfl, rfl, rfl, rfl⟩
  | len0 =>
    rw [writeReg_len0_idle (hidle (.inl rfl))]
    exact hs.of_sameRecord rfl (.of_status_eq rfl rfl rfl rfl rfl rfl)
  | len1 =>
    rw [writeReg_len1_idle (hidle (.inr (.inl rfl)))]
    exact hs.of_sameRecord rfl (.of_status_eq rfl rfl rfl rfl rfl rfl)
  | msgLen =>
    rw [writeReg_msgLen_idle (hidle (.inr (.inr rfl)))]
    exact hs.of_sameRecord rfl (.of_status_eq rfl rfl rfl rfl rfl rfl)
  | _ => exact hs.of_sameRecord rfl (.of_status_eq rfl rfl rfl rfl rfl rfl)

/-- A string stored in an operand buffer keeps the memory good and reaches no byte of OUT. -/
theorem operand_write_inv {s : State} (hs : s.Inv) {a : Nat} {n : Width} (ht : accessTarget a n = some .operand)
    (v : Nat) : State.Inv { s with mem := s.mem.writeBytes a (leBytes n.bytes v) } := by
  obtain ⟨hm, hst, ho⟩ := inv_iff.mp hs
  refine inv_iff.mpr ⟨hm.writeBytes fun x h1 h2 => .inl (accessTarget_operand ht x h1 ?_),
    hst.of_sameRecord (.of_status_eq rfl rfl rfl rfl rfl rfl),
    ho.of_sameOut ⟨rfl, fun x hx => operand_write_out ht hx s.mem v⟩⟩
  rwa [leBytes_length] at h2

theorem busWrite_inv {s t : State} {a : Nat} {n : Width} {v : Word} (hs : s.Inv)
    (h : busWrite s a n v = some t) : t.Inv := by
  rcases busWrite_cases h with ⟨r, _, _, rfl⟩ | ⟨_, _, rfl⟩ | ⟨ht, _, rfl⟩ | ⟨_, rfl⟩
  · exact writeReg_inv hs r v
  · exact dropWrite_inv hs
  · exact operand_write_inv hs ht v.toNat
  · exact hs

theorem hostTurn_inv {s t : State} (hs : s.Inv) (h : hostTurn s = .next t) : t.Inv := by
  rcases hostTurn_cases h with ⟨_, rfl⟩ | ⟨_, _, _, _, _, _, rfl⟩ | ⟨_, _, _, rest, _, hw⟩ | ⟨_, _, rfl⟩
  · exact hs
  · exact hs.of_agents _ _ _
  · exact busWrite_inv (hs.of_agents s.sched rest s.reads) hw
  · exact hs.of_agents _ _ _

/-! ### The ENGINE's turn -/

/-- The slot and the reason of an error fit the fields that report them (60_exceptions.md R310 to R315). -/
def CmdError.InRange (e : CmdError) : Prop := e.slot.toNat ≤ 3 ∧ e.info.toNat ≤ 4

theorem raise_inRange {α : Type} {code : ErrCode} {slot info : Byte} {expected got : Word} {e : CmdError}
    (hr : slot.toNat ≤ 3 ∧ info.toNat ≤ 4)
    (h : (raise code slot expected got info : Except Stop α) = .error (.raised e)) : e.InRange := by
  cases h; exact hr

theorem lengthError_inRange (i : Instr) {slot : Byte} (hs : slot.toNat ≤ 3) (len : Word) (n : Nat) :
    (lengthError i slot len n).InRange := by
  rw [lengthError]
  split
  · exact ⟨hs, Nat.le_of_ble_eq_true rfl⟩
  · exact ⟨hs, Nat.zero_le 4⟩

theorem checkSlot_inRange {i : Instr} {slot : Byte} {len : Word} {required : Option Nat} {e : CmdError}
    (hs : slot.toNat ≤ 3) (h : checkSlot i slot len required = .error (.raised e)) : e.InRange := by
  cases required with
  | none => cases h
  | some n =>
    rw [checkSlot] at h
    split at h
    · cases h; exact lengthError_inRange i hs len n
    · cases h

theorem checkMessage_inRange {i : Instr} {s : State} {e : CmdError}
    (h : checkMessage i s = .error (.raised e)) : e.InRange := by
  rw [checkMessage] at h
  split at h
  · rw [checkMsg] at h
    split at h
    · exact raise_inRange (by decide) h
    · cases h
  · cases h

theorem lengthChecks_inRange {i : Instr} {s : State} {e : CmdError}
    (h : lengthChecks i s = .error (.raised e)) : e.InRange := by
  simp only [lengthChecks, bind_eq_error] at h
  rcases h with h | ⟨_, _, h | ⟨_, _, h⟩⟩
  · exact checkSlot_inRange (by decide) h
  · exact checkSlot_inRange (by decide) h
  · exact checkMessage_inRange h

theorem rangeCheck_inRange {i : Instr} {s : State} {e : CmdError}
    (h : rangeCheck i s = .error (.raised e)) : e.InRange := by
  by_cases hi : i = .edwSmul
  · subst hi
    rcases hB : s.mem.readBytes in1Base 32 with _ | B
    · simp [rangeCheck_of_unwritten hB] at h
    · by_cases hr : leNat B < 2 ^ 255
      · simp [rangeCheck_of_scalar hB hr] at h
      · rw [rangeCheck_of_scalar_ge hB (Nat.le_of_not_lt hr)] at h
        exact raise_inRange (by decide) h
  · simp [rangeCheck_of_ne hi] at h

theorem commandFunction_inRange {i : Instr} {o : Operands} {e : CmdError}
    (h : commandFunction i o = .error (.raised e)) : e.InRange := by
  cases i with
  | x25519Shared strict =>
    rw [commandFunction] at h
    split at h
    · exact raise_inRange (by decide) h
    · cases h
  | edwDecompress =>
    rw [commandFunction] at h
    split at h
    · rename_i f _
      exact raise_inRange (by cases f <;> decide) h
    · cases h
  | _ => cases h

theorem commandOf_inRange {i : Instr} {s : State} {e : CmdError}
    (h : commandOf i s = .error (.raised e)) : e.InRange := by
  simp only [commandOf_eq_tableRule, tableRule, bind_eq_error] at h
  rcases h with hl | ⟨_, _, hr | ⟨_, _, ho | ⟨_, _, hf⟩⟩⟩
  · exact lengthChecks_inRange hl
  · exact rangeCheck_inRange hr
  · cases ((readOperands_ends i s).of_error ho).2
  · exact commandFunction_inRange hf

theorem outLength_mem (i : Instr) : outLength i ∈ [0, 1, 32, 64, 128] := by
  cases i <;> simp [outLength]

theorem completeOk_inv {s : State} (hs : s.Inv) {r : CmdResult} (hl : r.out.length ∈ [0, 1, 32, 64, 128]) :
    (completeOk r s).Inv := by
  have hfits : r.out.length ≤ bufBytes := by
    simp only [List.mem_cons, List.not_mem_nil, or_false] at hl
    simp only [bufBytes]
    omega
  obtain ⟨hm, _, _⟩ := inv_iff.mp hs
  refine inv_iff.mpr ⟨?_, ?_, (completeOk_spec r s hfits).out.outInv hl⟩
  · rw [completeOk_mem]
    exact hm.writeOut (by simp; omega)
  · constructor <;> simp

theorem ErrCode.number_range (c : ErrCode) : c.number ≠ 0#8 ∧ c.number.toNat ≤ 6 := by
  cases c <;> decide

theorem completeErr_inv {s : State} (hs : s.Inv) {e : CmdError} (he : e.InRange) : (completeErr e s).Inv := by
  obtain ⟨hm, _, _⟩ := inv_iff.mp hs
  obtain ⟨hslot, hinfo⟩ := he
  obtain ⟨hne, hcode⟩ := e.code.number_range
  refine inv_iff.mpr ⟨?_, ?_, (completeErr_spec e s).out.outInv (by simp)⟩
  · rw [completeErr_mem]
    exact hm.writeOut (by simp)
  · constructor <;> simp [hne, hcode, hslot, hinfo]

theorem exec_inv {i : Instr} {s t : State} (hs : s.Inv) (h : exec i s = .next t) : t.Inv := by
  rcases exec_next h with ⟨r, _, rfl, hlen, _⟩ | ⟨e, he, rfl, _⟩
  · exact completeOk_inv hs (hlen ▸ outLength_mem i)
  · exact completeErr_inv hs (commandOf_inRange he)

theorem engineTurn_inv {s t : State} (hs : s.Inv) (h : engineTurn s = .next t) : t.Inv := by
  rcases hb : s.status.busy with _ | _
  · rw [engineTurn_idle hb] at h
    cases h; exact hs
  · rw [engineTurn_busy hb] at h
    rcases hd : decodeWord s.cmd with _ | i
    · rw [runCommand_illegal hd] at h
      cases h
      exact completeErr_inv hs ⟨Nat.zero_le 3, Nat.zero_le 4⟩
    · rw [runCommand_legal hd] at h
      exact exec_inv hs h

/-! ### Reset -/

/-- Memory, flags and record as reset leaves them meet the invariant. -/
theorem reset_inv : State.reset.Inv := by
  refine inv_iff.mpr ⟨⟨reset_mem_wf, nofun⟩, by constructor <;> decide, by decide, fun a h1 h2 => ?_⟩
  rw [reset_mem_read, unlisted, if_pos (isOutByte_iff.mp ⟨h1, h2⟩)]

theorem resetCore_inv (s : State) : (resetCore s).Inv :=
  reset_inv.of_sameRecord rfl (.of_status_eq rfl rfl rfl rfl rfl rfl)

theorem nextTurn_inv {s s' : State} {u : Turn} (hs : s.Inv) (h : nextTurn s = (u, s')) : s'.Inv := by
  rw [nextTurn_state h]
  exact hs.of_agents _ _ _

end Sys2Proof.Machine
end

section
/-! PROOFS. The statements about the invariant. -/

namespace Sys2Proof.Machine

/-- Settles O60: each agent's turn keeps the invariant. -/
theorem stepKeepsInvariant : Obligations.StepKeepsInvariant := by
  intro s t hs h
  obtain ⟨s', hm | hm | hm⟩ := turn_cases s
  · exact hostTurn_inv (nextTurn_inv hs hm) (step_host hm ▸ h)
  · exact engineTurn_inv (nextTurn_inv hs hm) (step_engine hm ▸ h)
  · rw [step_reset hm] at h
    cases h
    exact resetCore_inv s'

/-- Settles O59: the reset state's registers are 0 and its memory is empty. -/
theorem resetStateMeetsInvariant : Obligations.ResetStateMeetsInvariant := reset_inv

end Sys2Proof.Machine
end

section
/-! PROOF SUPPORT. A run of HOST turns that ends in the ENGINE's (spec/70_reset_and_hazards.md R366). -/

namespace Sys2Proof.Machine

/-- A completion step that is not a fault clears BUSY and sets DONE; the only fault is UNWRITTEN_OPERAND. -/
theorem runCommand_completes (s : State) :
    (∃ t, runCommand s = .next t ∧ t.status.busy = false ∧ t.status.done = true) ∨
      runCommand s = .fault .unwrittenOperand := by
  rcases hd : decodeWord s.cmd with _ | i
  · exact .inl ⟨_, runCommand_illegal hd, rfl, rfl⟩
  · rw [runCommand_legal hd]
    rcases exec_stops (i := i) (s := s) with ⟨t, ht⟩ | hf
    · refine .inl ⟨t, ht, ?_⟩
      rcases exec_next ht with ⟨_, _, _, _, hok⟩ | ⟨_, _, _, herr⟩
      · exact ⟨hok.busy, hok.done⟩
      · exact ⟨herr.busy, herr.done⟩
    · exact .inr hf

@[simp] theorem writeReg_sched (s : State) (r : Reg) (v : Word) : (writeReg s r v).sched = s.sched := by
  cases r <;> simp only [writeReg] <;> split <;> rfl

theorem busWrite_sched {s t : State} {a : Nat} {n : Width} {v : Word} (h : busWrite s a n v = some t) :
    t.sched = s.sched := by
  rcases busWrite_cases h with ⟨r, _, _, rfl⟩ | ⟨_, _, rfl⟩ | ⟨_, _, rfl⟩ | ⟨_, rfl⟩
  · exact writeReg_sched s r v
  · rfl
  · rfl
  · rfl

/-- The HOST does not choose who moves next. -/
theorem hostTurn_sched {s t : State} (h : hostTurn s = .next t) : t.sched = s.sched := by
  rcases hostTurn_cases h with ⟨_, rfl⟩ | ⟨_, _, _, _, _, _, rfl⟩ | ⟨_, _, _, rest, _, hw⟩ | ⟨_, _, rfl⟩
  · rfl
  · rfl
  · exact busWrite_sched (s := { s with host := rest }) hw
  · rfl

/-- A HOST turn of a BUSY core leaves it BUSY (10_state.md R38). -/
theorem step_host_busy_sched {s s' t : State} (hm : HostMoves s s') (hb : s.status.busy = true) (h : step s = .next t) :
    t.status.busy = true ∧ t.sched = s'.sched :=
  ⟨(step_host_status hm h).busy_iff.mpr (.inl hb), hostTurn_sched (step_host hm ▸ h)⟩

theorem step_engine_completes {s s' t : State} (hm : EngineMoves s s') (hb : s.status.busy = true)
    (h : step s = .next t) : t.status.busy = false ∧ t.status.done = true := by
  obtain ⟨hbusy, hdone, _, _⟩ := step_engine_flags hm h
  exact ⟨hbusy, by rw [hdone, hb, Bool.true_or]⟩

/-- A run answers only through an answer of its first step. -/
theorem run_succ_next {M : Host.Core} {k : Nat} {s t : M.State} (h : M.run (k + 1) s = .next t) :
    ∃ u, M.step s = .next u ∧ M.run k u = .next t := by
  rw [Host.Core.run] at h
  split at h
  · rename_i u hu
    exact ⟨u, hu, h⟩
  · cases h
  · cases h

/-- Through any number of HOST turns the command keeps running, and the ENGINE's turn completes it. -/
theorem run_completes {k : Nat} {s t : State} {rest : List Turn} (hb : s.status.busy = true)
    (hs : s.sched = List.replicate k Turn.host ++ Turn.engine :: rest)
    (h : Sys2Proof.core.run (k + 1) s = .next t) : t.status.busy = false ∧ t.status.done = true := by
  obtain ⟨u, hu, hrun⟩ := run_succ_next (M := Sys2Proof.core) h
  induction k generalizing s u with
  | zero =>
    have hm : EngineMoves s { s with sched := rest } := by simp [EngineMoves, nextTurn, hs]
    cases hrun
    exact step_engine_completes hm hb hu
  | succ k ih =>
    have hm : HostMoves s { s with sched := List.replicate k Turn.host ++ Turn.engine :: rest } := by
      simp [HostMoves, nextTurn, hs, List.replicate_succ]
    obtain ⟨hbu, hsu⟩ := step_host_busy_sched hm hb hu
    obtain ⟨v, hv, hrun'⟩ := run_succ_next (M := Sys2Proof.core) hrun
    exact ih hbu hsu hrun v hv hrun'

end Sys2Proof.Machine
end

section
/-! PROOF SUPPORT. What a HOST read returns: STATUS and IRQ_EN bit by bit (spec/10_state.md R37, R45), and a buffer's
bytes joined (spec/20_memory.md R71, R77). -/

namespace Sys2Proof.Machine

theorem step_read_offset {s s' : State} {r : Reg} {rest : List BusOp} (hm : HostMoves s s')
    (hh : s'.host = .read r.offset .w32 :: rest) :
    step s = .next { s' with host := rest, reads := readReg s' r :: s'.reads } :=
  step_read_next hm hh (busRead_offset s' r)

theorem irqEnWord_fields (doneIe : Bool) :
    (irqEnWord doneIe).getLsbD 0 = doneIe ∧ (irqEnWord doneIe).extractLsb' 1 31 = 0#31 := by
  cases doneIe <;> decide

/-- STATUS bit by bit (R37): the flags below bit 8, ERRCODE from bit 8 on. -/
theorem status_word_getLsbD (st : Status) (i : Nat) : st.word.getLsbD i =
    if i < 8 then [st.busy, st.done, st.err, st.result, st.cmdOverrun, st.wrBusy, false, false].getD i false
    else st.errcode.getLsbD (i - 8) := by
  rw [Status.word, BitVec.getLsbD_append, BitVec.getLsbD_append, BitVec.getLsbD_append, BitVec.getLsbD_append,
    BitVec.getLsbD_append, BitVec.getLsbD_append, BitVec.getLsbD_append, BitVec.getLsbD_append]
  by_cases hi : i < 8
  · interval_cases i <;> simp
  · obtain ⟨j, rfl⟩ := Nat.exists_eq_add_of_le' (Nat.le_of_not_lt hi)
    simpa using BitVec.lt_of_getLsbD

theorem status_word_fields (st : Status) :
    st.word.getLsbD 0 = st.busy ∧ st.word.getLsbD 1 = st.done ∧ st.word.getLsbD 2 = st.err ∧
    st.word.getLsbD 3 = st.result ∧ st.word.getLsbD 4 = st.cmdOverrun ∧ st.word.getLsbD 5 = st.wrBusy ∧
    st.word.extractLsb' 6 2 = 0#2 ∧ st.word.extractLsb' 8 8 = st.errcode ∧ st.word.extractLsb' 16 16 = 0#16 := by
  have hflag (i : Nat) (hi : i < 8) := (status_word_getLsbD st i).trans (if_pos hi)
  have hcode (i : Nat) (hi : 8 ≤ i) := (status_word_getLsbD st i).trans (if_neg (Nat.not_lt.mpr hi))
  refine ⟨hflag 0 (by decide), hflag 1 (by decide), hflag 2 (by decide), hflag 3 (by decide), hflag 4 (by decide),
    hflag 5 (by decide), ?_, ?_, ?_⟩
  · ext i hi
    rw [BitVec.getElem_extractLsb', hflag (6 + i) (by omega)]
    interval_cases i <;> simp
  · ext i hi
    rw [BitVec.getElem_extractLsb', hcode (8 + i) (by omega), Nat.add_sub_cancel_left, BitVec.getLsbD_eq_getElem]
  · ext i hi
    rw [BitVec.getElem_extractLsb', hcode (16 + i) (by omega), BitVec.getLsbD_of_ge _ _ (by omega),
      BitVec.getElem_zero]

/-! ### Buffers -/

/-- A byte of a buffer the HOST can read. -/
abbrev IsBufferByte (a : Nat) : Prop := IsOperandByte a ∨ IsOutByte a

theorem busRead_buffer {a : Nat} {n : Width} (ha : IsBufferByte a) (hal : a % n.bytes = 0) (s : State) :
    busRead s a n = some (BitVec.ofNat 32 (leNat (hostBytes s a n.bytes))) := by
  rcases ha with ho | ho
  · simp [busRead, accessTarget_of_operand ho hal]
  · simp [busRead, accessTarget_of_out ho hal]

/-- An aligned access that begins in a buffer stays in buffers. -/
theorem isBufferByte_add {a i : Nat} {n : Width} (ha : IsBufferByte a) (hal : a % n.bytes = 0) (hi : i < n.bytes) :
    IsBufferByte (a + i) := by
  rcases ha with ho | ho
  · exact .inl (accessTarget_operand (accessTarget_of_operand ho hal) _ (by omega) (by omega))
  · exact .inr (accessTarget_out (accessTarget_of_out ho hal) _ (by omega) (by omega))

theorem busRead_buffer_byte {a : Nat} (ha : IsBufferByte a) (s : State) :
    busRead s a .w8 = some ((hostByte s a).setWidth 32) := by
  rw [busRead_buffer (n := .w8) ha (Nat.mod_one a)]
  simp [Width.bytes, hostBytes, leNat]

theorem hostByte_of_read {s : State} {a : Nat} {b : Byte} (h : s.mem.read a = some b) : hostByte s a = b := by
  simp [hostByte, h]

/-- The first byte of a string is the low byte of its word (R77). -/
theorem ofNat_leNat_cons (b : Byte) (bs : List Byte) :
    BitVec.ofNat 32 (leNat (b :: bs)) = b.setWidth 32 ||| BitVec.ofNat 32 (leNat bs) <<< 8 := by
  apply BitVec.eq_of_toNat_eq
  have hb := b.isLt
  have hshift : (leNat bs % 2 ^ 32) <<< 8 % 2 ^ 32 = 2 ^ 8 * (leNat bs % 2 ^ 24) := by
    rw [Nat.shiftLeft_eq]
    omega
  have hlow : b.toNat % 2 ^ 32 = b.toNat := Nat.mod_eq_of_lt (by omega)
  rw [BitVec.toNat_or, BitVec.toNat_shiftLeft, BitVec.toNat_setWidth, BitVec.toNat_ofNat, BitVec.toNat_ofNat,
    hshift, hlow, Nat.or_comm, ← Nat.two_pow_add_eq_or_of_lt hb, leNat]
  omega

theorem busRead_w32 {a : Nat} (ha : IsBufferByte a) (hal : a % 4 = 0) (s : State) :
    busRead s a .w32 = some ((hostByte s a).setWidth 32 ||| (hostByte s (a + 1)).setWidth 32 <<< 8 |||
      (hostByte s (a + 2)).setWidth 32 <<< 16 ||| (hostByte s (a + 3)).setWidth 32 <<< 24) := by
  rw [busRead_buffer (n := .w32) ha hal]
  simp only [Width.bytes, hostBytes, ofNat_leNat_cons, BitVec.shiftLeft_or_distrib, ← BitVec.shiftLeft_add,
    BitVec.or_assoc]
  simp [leNat]

theorem busRead_w16 {a : Nat} (ha : IsBufferByte a) (hal : a % 2 = 0) (s : State) :
    busRead s a .w16 = some ((hostByte s a).setWidth 32 ||| (hostByte s (a + 1)).setWidth 32 <<< 8) := by
  rw [busRead_buffer (n := .w16) ha hal]
  simp only [Width.bytes, hostBytes, ofNat_leNat_cons]
  simp [leNat]

end Sys2Proof.Machine
end

section
/-! PROOFS. The statements about HOST accesses, runs and reset. -/

namespace Sys2Proof.Machine

/-- Settles O40: a CMD or length write is `writeReg` while BUSY, an operand write has an operand target. -/
theorem writesWhileBusyAreDropped : Obligations.WritesWhileBusyAreDropped := by
  intro s s' off n v rest hm hh hb
  refine ⟨?_, ?_, ?_⟩
  · rintro rfl rfl
    rw [step_write_offset (r := .cmd) hm hh, writeReg_cmd_busy]
    · rfl
    · exact hb
  · rintro hoff rfl
    obtain ⟨r, rfl⟩ : ∃ r : Reg, off = r.offset := by
      simp only [List.mem_cons, List.not_mem_nil, or_false] at hoff
      exact exists_offset_eq (by omega) (by omega)
    rw [step_write_offset hm hh, writeReg_length_busy (r.isLength_iff.mpr hoff)]
    · rfl
    · exact hb
  · intro hop hal
    exact step_write_next hm hh
      (busWrite_operand_busy (s := { s' with host := rest }) (accessTarget_of_operand hop hal) hb v)

/-- Settles O46: each width reads the little-endian join of the bytes it covers. -/
theorem wideReadsAgreeWithByteReads : Obligations.WideReadsAgreeWithByteReads := by
  constructor
  · intro s s' off rest b hm hh ha hread
    refine step_read_next hm hh ?_
    rw [busRead_buffer_byte ha, hostByte_of_read hread]
  · intro s off ha
    refine ⟨fun hal => ?_, fun hal => ?_⟩
    · have hbyte (i : Nat) (hi : i < 4) : busRead s (off + i) .w8 = some ((hostByte s (off + i)).setWidth 32) :=
        busRead_buffer_byte (isBufferByte_add (n := .w32) ha hal hi) s
      exact ⟨_, _, _, _, hbyte 0 (by omega), hbyte 1 (by omega), hbyte 2 (by omega), hbyte 3 (by omega),
        busRead_w32 ha hal s⟩
    · have hbyte (i : Nat) (hi : i < 2) : busRead s (off + i) .w8 = some ((hostByte s (off + i)).setWidth 32) :=
        busRead_buffer_byte (isBufferByte_add (n := .w16) ha hal hi) s
      exact ⟨_, _, hbyte 0 (by omega), hbyte 1 (by omega), busRead_w16 ha hal s⟩

/-- Settles O47: the step is a read of the register at the offset. -/
theorem registerReadsFollowTheMap : Obligations.RegisterReadsFollowTheMap := by
  intro s s' off rest hm hh
  refine ⟨fun w hw => ?_, ?_, ?_⟩
  · obtain ⟨r, _, hr⟩ := List.mem_map.mp (show (off, w) ∈ [Reg.id, .cmd, .errSlot, .errExpected, .errGot, .errInfo,
      .len0, .len1, .msgLen, .outLen, .msgCap].map fun r => (r.offset, readReg s' r) from hw)
    obtain ⟨rfl, rfl⟩ := Prod.mk.inj hr
    exact step_read_offset hm hh
  · rintro rfl
    exact ⟨_, step_read_offset (r := .status) hm hh, status_word_fields s'.status⟩
  · rintro rfl
    exact ⟨_, step_read_offset (r := .irqEn) hm hh, irqEnWord_fields s'.doneIe⟩

/-- Settles O57: HOST turns leave the core BUSY, and the ENGINE's turn completes the command. -/
theorem startedCommandsComplete : Obligations.StartedCommandsComplete := by
  intro s hb
  refine ⟨fun k rest t => run_completes hb, fun hs => ?_⟩
  have hm : EngineMoves s s := by simp [EngineMoves, nextTurn, hs, hb]
  rw [step_engine hm, engineTurn_busy hb]
  exact runCommand_completes s

/-- Settles O58: the step is `resetCore`, whose registers are 0 and whose memory lists nothing. -/
theorem resetInputRestoresResetValues : Obligations.ResetInputRestoresResetValues := by
  intro s s' hm
  refine ⟨_, step_reset hm, rfl, rfl, fun off hoff => ?_, busRead_offset _ .id, busRead_offset _ .msgCap,
    fun a ha => ?_, fun a ha => ?_⟩
  · obtain ⟨r, hr, rfl⟩ := List.mem_map.mp (show off ∈ [Reg.cmd, .status, .irqEn, .errSlot, .errExpected, .errGot,
      .errInfo, .len0, .len1, .msgLen, .outLen].map Reg.offset from hoff)
    rw [busRead_offset]
    cases r with
    | id | msgCap => exact absurd hr (by decide)
    | status => rw [readReg, resetCore_status]; decide
    | irqEn => rw [readReg, resetCore_doneIe]; decide
    | _ => rfl
  · exact (reset_mem_read a).trans (if_pos (isOutByte_iff.mp ha))
  · exact (reset_mem_read a).trans (if_neg fun hout => not_isOutByte_of_operand ha (isOutByte_iff.mpr hout))

end Sys2Proof.Machine
end

section
/-! PROOFS. The field's laws of inversion, distribution and subtraction (spec/40_field_arithmetic.md R145). -/

namespace Sys2Proof.Machine

theorem fmul_finv_eq_one_iff (a : Nat) : fmul a (finv a) = 1 ↔ red a ≠ 0 := by
  refine ⟨fun h hz => ?_, fmul_finv⟩
  rw [finv_of_red_eq_zero hz] at h
  exact absurd h (by simp [fmul, red])

theorem finv_finv (a : Nat) : finv (finv a) = red a := by
  have := fieldPrime_fact
  refine eq_of_cast_eq (finv_lt _) (red_lt a) ?_
  rw [cast_finv_eq_inv, cast_finv_eq_inv, inv_inv, cast_red]

theorem fmul_fadd (a b c : Nat) : fmul a (fadd b c) = fadd (fmul a b) (fmul a c) := by
  refine eq_of_cast_eq (fmul_lt _ _) (fadd_lt _ _) ?_
  rw [cast_fmul, cast_fadd, cast_fadd, cast_fmul, cast_fmul, mul_add]

/-- Subtraction adds what is left of a multiple of p. -/
theorem fsub_eq_fadd {b k : Nat} (a : Nat) (h : b ≤ fieldPrime * k) : fsub a b = fadd a (fieldPrime * k - b) := by
  refine eq_of_cast_eq (fsub_lt _ _) (fadd_lt _ _) ?_
  rw [cast_fsub, cast_fadd, Nat.cast_sub h, Nat.cast_mul, ZMod.natCast_self, zero_mul, zero_sub, sub_eq_add_neg]

/-- Settles O15: the four laws, in `ZMod fieldPrime`. -/
theorem fieldInverseLaws : Obligations.FieldInverseLaws :=
  ⟨fmul_finv_eq_one_iff, finv_finv, fmul_fadd, fun a _ _ => fsub_eq_fadd a⟩

end Sys2Proof.Machine
end

section
/-! PROOF SUPPORT. The X25519 codecs in arithmetic: masking, clamping and the u-coordinate
(spec/41_montgomery_ladder.md R171 to R173). -/

namespace Sys2Proof.Machine

/-! ### The first and the last byte of a 32-byte string -/

theorem exists_eq_cons_append {b : List Byte} (h : b.length = 32) :
    ∃ (x y : Byte) (m : List Byte), m.length = 30 ∧ b = x :: (m ++ [y]) := by
  cases b with
  | nil => cases h
  | cons x bs =>
    obtain rfl | ⟨m, y, rfl⟩ := List.eq_nil_or_concat' bs
    · cases h
    exact ⟨x, y, m, by simpa using h, rfl⟩

theorem modify_last {m : List Byte} (x y : Byte) (f : Byte → Byte) (h : m.length = 30) :
    (x :: (m ++ [y])).modify 31 f = x :: (m ++ [f y]) := by
  have happ : (m ++ [y]).modify 30 f = m ++ [f y] := by
    rw [List.modify_eq_take_cons_drop (by simp [h]), List.take_left' h]
    simp [List.getElem_append_right, h]
  rw [List.modify_succ_cons, happ]

/-- The value of a 32-byte string by its first byte, its middle and its last byte. -/
theorem leNat_cons_append {m : List Byte} (x y : Byte) (h : m.length = 30) :
    leNat (x :: (m ++ [y])) = x.toNat + 256 * (leNat m + 256 ^ 30 * y.toNat) := by
  rw [leNat, leNat_append, h]
  simp [leNat]

/-! ### The bit operations on a byte -/

theorem toNat_and_7F (x : Byte) : (x &&& 0x7F#8).toNat = x.toNat % 128 :=
  Nat.and_two_pow_sub_one_eq_mod x.toNat 7

theorem toNat_and_F8 (x : Byte) : (x &&& 0xF8#8).toNat = 8 * (x.toNat / 8) := by
  have hall : ∀ n < 256, n &&& 0xF8 = 8 * (n / 8) := by decide +kernel
  exact hall _ x.isLt

theorem toNat_and_7F_or_40 (x : Byte) : ((x &&& 0x7F#8) ||| 0x40#8).toNat = 64 + x.toNat % 64 := by
  have hall : ∀ n < 256, (n &&& 0x7F) ||| 0x40 = 64 + n % 64 := by decide +kernel
  exact hall _ x.isLt

/-! ### The codecs -/

/-- Masking bit 255 is reduction modulo 2^255 (R172). -/
theorem decodeU_eq {b : List Byte} (h : b.length = 32) : decodeU b = leNat b % 2 ^ 255 := by
  obtain ⟨x, y, m, hm, rfl⟩ := exists_eq_cons_append h
  have hlt := leNat_lt m
  rw [hm] at hlt
  have hx := x.isLt
  rw [decodeU, modify_last x y _ hm, leNat_cons_append x _ hm, leNat_cons_append x y hm, toNat_and_7F]
  omega

/-- The bitwise clamping is the arithmetic one (R171). -/
theorem decodeScalar_eq {b : List Byte} (h : b.length = 32) : decodeScalar b = clampValue (leNat b) := by
  obtain ⟨x, y, m, hm, rfl⟩ := exists_eq_cons_append h
  have hlt := leNat_lt m
  rw [hm] at hlt
  have hx := x.isLt
  rw [decodeScalar, List.modify_zero_cons, modify_last _ y _ hm, leNat_cons_append _ _ hm,
    leNat_cons_append x y hm, toNat_and_F8, toNat_and_7F_or_40, clampValue]
  omega

theorem decodeU_encodeU {x : Nat} (h : x < fieldPrime) : decodeU (encodeU x) = x := by
  have h255 : x < 2 ^ 255 := h.trans fieldPrime_lt
  rw [encodeU, red_of_lt h, decodeU_eq (le32_length x), leNat_le32 x (by omega), Nat.mod_eq_of_lt h255]

theorem encodeU_decodeU {b : List Byte} (hl : b.length = 32) (h : leNat b < fieldPrime) :
    encodeU (decodeU b) = b := by
  rw [decodeU_eq hl, Nat.mod_eq_of_lt (h.trans fieldPrime_lt), encodeU, red_of_lt h, le32_leNat b hl]

/-- A value from p to 2^256 and its reduction differ by p or 2p, which is no multiple of 2^254 up to the cleared
bits (R187). -/
theorem clampValue_mod_ne {v : Nat} (hp : 2 ^ 255 - 19 ≤ v) (hv : v < 2 ^ 256) :
    clampValue v ≠ clampValue (v % (2 ^ 255 - 19)) := by
  have hred : v % (2 ^ 255 - 19) = v - (2 ^ 255 - 19) ∨ v % (2 ^ 255 - 19) = v - 2 * (2 ^ 255 - 19) := by omega
  rw [clampValue, clampValue]
  omega

end Sys2Proof.Machine
end

section
/-! PROOFS. The statements about the X25519 codecs and the swap (spec/41_montgomery_ladder.md R175, R185, R187). -/

namespace Sys2Proof.Machine

/-- Settles O20: both clampings are `clampValue`, which tells the scalar from its reduction. -/
theorem clampingIsNotModular : Obligations.ClampingIsNotModular := by
  intro b hl hp
  have hlt : leNat b < 2 ^ 256 := by simpa [hl] using leNat_lt b
  rw [decodeScalar_eq hl, decodeScalar_eq (le32_length _), leNat_le32 _ (by omega)]
  exact clampValue_mod_ne hp hlt

/-- Settles O21: on canonical values the mask and the reduction change nothing. -/
theorem uCoordinateRoundTrip : Obligations.UCoordinateRoundTrip := by
  unfold Obligations.UCoordinateRoundTrip
  rw [← fieldPrime_eq]
  exact ⟨fun b => encodeU_decodeU, fun x => decodeU_encodeU⟩

/-- Settles O22: the mask keeps all of `a ^^^ b` or nothing of it. -/
theorem maskedSwapIsCswap : Obligations.MaskedSwapIsCswap := by
  intro bit a b
  cases bit with
  | false => simp [cswap]
  | true =>
    have hb : a ^^^ (a ^^^ b) = b := by rw [← BitVec.xor_assoc, BitVec.xor_self, BitVec.zero_xor]
    have ha : b ^^^ (a ^^^ b) = a := by rw [BitVec.xor_comm a b, ← BitVec.xor_assoc, BitVec.xor_self, BitVec.zero_xor]
    simp only [cswap, if_true, BitVec.allOnes_and, ha, hb, and_self]

end Sys2Proof.Machine
end

section
/-! PROOF SUPPORT. The ladder in the field: its postponed swaps against the reference that swaps back after each step
(spec/41_montgomery_ladder.md R176 to R178). -/

namespace Sys2Proof.Machine

/-- The reference's accumulators (x2, z2, x3, z3). -/
abbrev FieldLadderState := ZMod fieldPrime × ZMod fieldPrime × ZMod fieldPrime × ZMod fieldPrime

/-- Both pairs exchanged. -/
def FieldLadderState.swapped (r : FieldLadderState) : FieldLadderState := (r.2.2.1, r.2.2.2, r.1, r.2.1)

/-- The reference's step on its accumulators. -/
def FieldLadderState.next (u : ZMod fieldPrime) (r : FieldLadderState) : FieldLadderState :=
  fieldLadderStep u r.1 r.2.1 r.2.2.1 r.2.2.2

/-- The reference's turn for one bit of the scalar: swapped before the step and swapped back after it. -/
def fieldLadderTurn (k : Nat) (u : ZMod fieldPrime) (t : Nat) (r : FieldLadderState) : FieldLadderState :=
  if k.testBit t then (r.swapped.next u).swapped else r.next u

theorem fieldLadder_eq (k : Nat) (u : ZMod fieldPrime) : fieldLadder k u =
    ((List.range 255).foldr (fieldLadderTurn k u) (1, 0, u, 1)).1 *
      ((List.range 255).foldr (fieldLadderTurn k u) (1, 0, u, 1)).2.1 ^ (fieldPrime - 2) := by
  unfold fieldLadder
  generalize List.range 255 = l
  rfl

/-- The model's accumulators in the field, its postponed swap done. -/
def LadderState.toField (l : LadderState) : FieldLadderState :=
  if l.swap then (l.x3, l.z3, l.x2, l.z2) else (l.x2, l.z2, l.x3, l.z3)

/-- A swap that is not postponed is the reference's. -/
theorem toField_ladderSwap (l : LadderState) (b : Bool) :
    LadderState.toField { ladderSwap { l with swap := l.swap ^^ b } with swap := false } =
      if b then l.toField.swapped else l.toField := by
  obtain ⟨x2, z2, x3, z3, swap⟩ := l
  cases swap <;> cases b <;> rfl

theorem toField_ladderStep (x1 : Nat) (l : LadderState) (b : Bool) :
    LadderState.toField (ladderStep x1 { l with swap := b }) =
      if b then ((LadderState.toField { l with swap := false }).next x1).swapped
      else (LadderState.toField { l with swap := false }).next x1 := by
  have hstep : LadderState.toField { ladderStep x1 l with swap := false } =
      (LadderState.toField { l with swap := false }).next x1 := by
    simp only [LadderState.toField, ladderStep, FieldLadderState.next, fieldLadderStep, a24, cast_fmul, cast_fadd,
      cast_fsub, Bool.false_eq_true, if_false, Prod.mk.injEq]
    push_cast
    refine ⟨?_, ?_, ?_, ?_⟩ <;> ring
  cases b with
  | false => exact hstep
  | true => exact congrArg FieldLadderState.swapped hstep

/-- One iteration of the model is one turn of the reference. -/
theorem toField_ladderIteration (k x1 t : Nat) (l : LadderState) :
    (ladderIteration k x1 t l).toField = fieldLadderTurn k x1 t l.toField := by
  rw [ladderIteration, toField_ladderStep, toField_ladderSwap, fieldLadderTurn]
  cases k.testBit t <;> rfl

theorem toField_ladderLoop (k x1 n : Nat) (l : LadderState) :
    (ladderLoop k x1 n l).toField = (List.range n).foldr (fieldLadderTurn k x1) l.toField := by
  induction n generalizing l with
  | zero => rfl
  | succ n ih =>
    rw [ladderLoop, ih, toField_ladderIteration, List.range_succ, List.foldr_append, List.foldr_cons, List.foldr_nil]

theorem cast_ladderResult (l : LadderState) :
    ((ladderResult l : Nat) : ZMod fieldPrime) = l.toField.1 * l.toField.2.1 ^ (fieldPrime - 2) := by
  rw [ladderResult, cast_fmul, cast_finv]
  obtain ⟨x2, z2, x3, z3, swap⟩ := l
  cases swap <;> rfl

/-- The ladder is the reference's value. -/
theorem cast_ladder (k u : Nat) : ((ladder k u : Nat) : ZMod fieldPrime) = fieldLadder k u := by
  rw [ladder, cast_ladderResult, toField_ladderLoop, fieldLadder_eq]
  simp [LadderState.toField, ladderInit]

theorem ladder_lt (k u : Nat) : ladder k u < fieldPrime := fmul_lt _ _

theorem ladder_eq_val (k u : Nat) : ladder k u = (fieldLadder k (u : ZMod fieldPrime)).val := by
  rw [← cast_ladder, ZMod.val_cast_of_lt (ladder_lt k u)]

theorem x25519_length (A B : List Byte) : (x25519 A B).length = 32 := le32_length _

theorem leNat_x25519 {A B : List Byte} (hA : A.length = 32) (hB : B.length = 32) : leNat (x25519 A B) =
    (fieldLadder (clampValue (leNat A)) ((leNat B % 2 ^ 255 : Nat) : ZMod fieldPrime)).val := by
  have hlt := ladder_lt (decodeScalar A) (decodeU B)
  rw [x25519, encodeU, red_of_lt hlt, leNat_le32 _ (hlt.trans (by decide)), ladder_eq_val, decodeScalar_eq hA,
    decodeU_eq hB]

/-! ### The ladder from u = 0 -/

/-- From u = 0 the accumulator z2 stays 0, whatever the bit (R180). -/
theorem fieldLadderTurn_zero_z2 {k t : Nat} {r : FieldLadderState} (h : r.2.1 = 0) :
    (fieldLadderTurn k 0 t r).2.1 = 0 := by
  rw [fieldLadderTurn]
  split
  · simp [FieldLadderState.swapped, FieldLadderState.next, fieldLadderStep]
  · simp [FieldLadderState.next, fieldLadderStep, h]

theorem foldr_fieldLadderTurn_zero_z2 (k : Nat) (l : List Nat) :
    (l.foldr (fieldLadderTurn k 0) (1, 0, 0, 1)).2.1 = 0 := by
  induction l with
  | nil => rfl
  | cons t l ih => exact fieldLadderTurn_zero_z2 ih

theorem fieldLadder_zero (k : Nat) : fieldLadder k 0 = 0 := by
  have := fieldPrime_fact
  rw [fieldLadder_eq, foldr_fieldLadderTurn_zero_z2, zero_pow (by decide), mul_zero]

theorem x25519_of_zero {A B : List Byte} (hA : A.length = 32) (hB : B.length = 32)
    (hu : leNat B % 2 ^ 255 % fieldPrime = 0) : x25519 A B = zeros 32 := by
  have hzero : ((leNat B % 2 ^ 255 : Nat) : ZMod fieldPrime) = 0 :=
    (ZMod.natCast_eq_zero_iff _ _).mpr (Nat.dvd_of_mod_eq_zero hu)
  refine leNat_inj (by rw [x25519_length, zeros_length]) ?_
  rw [leNat_x25519 hA hB, hzero, fieldLadder_zero, ZMod.val_zero, leNat_zeros]

/-! ### The commands -/

section
variable {s : State} {A B : List Byte}

theorem x25519Ladder_completes (h0 : s.len0.toNat = 32) (h1 : s.len1.toNat = 32) (hA : In0Holds s 32 A)
    (hB : In1Holds s 32 B) : ∃ t, exec .x25519Ladder s = .next t ∧ CompletedOk s t (x25519 A B) false := by
  have hrule : x25519LadderCommand s = .ok ⟨x25519 A B, false⟩ := by
    rw [x25519LadderCommand, checkLen_ok h0, checkLen_ok h1, readIn0_ok hA, readIn1_ok hB]
    rfl
  exact exec_completedOk (i := .x25519Ladder) hrule

theorem x25519Public_completes (h0 : s.len0.toNat = 32) (hA : In0Holds s 32 A) :
    ∃ t, exec .x25519Public s = .next t ∧ CompletedOk s t (x25519 A (le32 uBase)) false := by
  have hrule : x25519PublicCommand s = .ok ⟨x25519 A (le32 uBase), false⟩ := by
    rw [x25519PublicCommand, checkLen_ok h0, readIn0_ok hA]
    rfl
  exact exec_completedOk (i := .x25519Public) hrule

end

theorem le32_uBase : le32 uBase = 9#8 :: List.replicate 31 0#8 := by decide

end Sys2Proof.Machine
end

section
/-! PROOFS. The statements about the X25519 commands (spec/41_montgomery_ladder.md R180 to R184). -/

namespace Sys2Proof.Machine

/-- Settles O16: the command's value is `x25519`, whose ladder is the reference's in the field. -/
theorem ladderComputesX25519 : Obligations.LadderComputesX25519 := by
  refine ⟨fun A B hA hB => ⟨x25519_length A B, leNat_x25519 hA hB⟩,
    fun s => ⟨exec_badLen0 rfl, exec_badLen1 rfl, ?_⟩⟩
  intro A B h0 h1 hA hB
  obtain ⟨t, ht, hok⟩ := x25519Ladder_completes h0 h1 hA hB
  exact ⟨t, _, ht, hok, x25519_length A B, leNat_x25519 (readBytes_length hA) (readBytes_length hB)⟩

/-- Settles O18: the rule reads the scalar alone, and LE32(9) is the base's string. -/
theorem publicUsesBaseNine : Obligations.PublicUsesBaseNine := by
  refine fun s => ⟨exec_badLen0 rfl, fun A h0 hA => ?_⟩
  rw [← le32_uBase]
  exact x25519Public_completes h0 hA

/-- Settles O19: from u = 0 the ladder's z2 stays 0, so that its value is 0. -/
theorem zeroUGivesZeroSecret : Obligations.ZeroUGivesZeroSecret := by
  intro s A B h0 h1 hA hB hu
  rw [← fieldPrime_eq] at hu
  have hzero : x25519 A B = List.replicate 32 0#8 := x25519_of_zero (readBytes_length hA) (readBytes_length hB) hu
  constructor
  · obtain ⟨t, ht, hok⟩ := x25519Ladder_completes h0 h1 hA hB
    exact ⟨t, ht, hzero ▸ hok⟩
  · have hrule : commandOf (.x25519Shared true) s = _ := x25519SharedCommand_of_operands h0 h1 hA hB
    exact exec_completedErr (hrule.trans (if_pos ⟨rfl, hzero⟩))

end Sys2Proof.Machine
end

section
/-! PROOF SUPPORT. The Edwards formulas in the field, and why they are complete: d is no square and −1 is one
(spec/42_edwards_point.md R200 to R206, R210, R212). -/

namespace Sys2Proof.Machine

/-! ### Squares in the field -/

theorem cast_fieldPrime_sub {x : Nat} (h : x ≤ fieldPrime) :
    ((fieldPrime - x : Nat) : ZMod fieldPrime) = -(x : ZMod fieldPrime) := by
  rw [Nat.cast_sub h, ZMod.natCast_self, zero_sub]

/-- SQRT_M1 squares to −1 in the field (R202). -/
theorem cast_sqrtM1_sq : (sqrtM1 : ZMod fieldPrime) ^ 2 = -1 := by
  have h := cast_fmul sqrtM1 sqrtM1
  rw [sqrtM1_square, cast_fieldPrime_sub (by decide), Nat.cast_one] at h
  rw [pow_two, ← h]

section
variable {a b : ZMod fieldPrime}

/-- A nonzero square is not d times a square. -/
theorem sq_sub_edwardsD_mul_sq_ne_zero (ha : a ≠ 0) : a ^ 2 - (edwardsD : ZMod fieldPrime) * b ^ 2 ≠ 0 := by
  have := fieldPrime_fact
  intro h
  have hb : b ≠ 0 := by
    rintro rfl
    exact ha (pow_eq_zero_iff (two_ne_zero) |>.mp (by simpa using h))
  refine sq_ne_edwardsD (a / b) ?_
  rw [div_pow, div_eq_iff (pow_ne_zero 2 hb)]
  exact sub_eq_zero.mp h

/-- Nor is it −d times a square, −1 being a square. -/
theorem sq_add_edwardsD_mul_sq_ne_zero (ha : a ≠ 0) : a ^ 2 + (edwardsD : ZMod fieldPrime) * b ^ 2 ≠ 0 := by
  have := fieldPrime_fact
  have hi := cast_sqrtM1_sq
  have hia : (sqrtM1 : ZMod fieldPrime) * a ≠ 0 := by
    refine mul_ne_zero (fun h0 => ?_) ha
    rw [h0, zero_pow two_ne_zero] at hi
    exact one_ne_zero (neg_eq_zero.mp hi.symm)
  have h := sq_sub_edwardsD_mul_sq_ne_zero (b := b) hia
  rw [mul_pow, hi] at h
  exact fun h0 => h (by linear_combination -h0)

end

/-! ### The formulas -/

/-- Reduced tuples are equal when their coordinates are equal in the field. -/
theorem Point.eq_of_cast_eq {P Q : Point}
    (hP : P.X < fieldPrime ∧ P.Y < fieldPrime ∧ P.Z < fieldPrime ∧ P.T < fieldPrime)
    (hQ : Q.X < fieldPrime ∧ Q.Y < fieldPrime ∧ Q.Z < fieldPrime ∧ Q.T < fieldPrime)
    (hX : (P.X : ZMod fieldPrime) = Q.X) (hY : (P.Y : ZMod fieldPrime) = Q.Y)
    (hZ : (P.Z : ZMod fieldPrime) = Q.Z) (hT : (P.T : ZMod fieldPrime) = Q.T) : P = Q := by
  obtain ⟨pX, pY, pZ, pT⟩ := hP
  obtain ⟨qX, qY, qZ, qT⟩ := hQ
  rw [Point.mk.injEq]
  exact ⟨Machine.eq_of_cast_eq pX qX hX, Machine.eq_of_cast_eq pY qY hY, Machine.eq_of_cast_eq pZ qZ hZ,
    Machine.eq_of_cast_eq pT qT hT⟩

/-- The doubling formula's four coordinates in the field (R206). -/
theorem cast_edwDbl (P : Point) :
    let a : ZMod fieldPrime := (P.X : ZMod fieldPrime) ^ 2
    let b : ZMod fieldPrime := (P.Y : ZMod fieldPrime) ^ 2
    let e : ZMod fieldPrime := a + b - ((P.X : ZMod fieldPrime) + P.Y) ^ 2
    let f : ZMod fieldPrime := 2 * (P.Z : ZMod fieldPrime) ^ 2 + (a - b)
    ((edwDbl P).X : ZMod fieldPrime) = e * f ∧ ((edwDbl P).Y : ZMod fieldPrime) = (a - b) * (a + b) ∧
    ((edwDbl P).Z : ZMod fieldPrime) = f * (a - b) ∧ ((edwDbl P).T : ZMod fieldPrime) = e * (a + b) := by
  simp only [edwDbl, cast_fmul, cast_fadd, cast_fsub, Nat.cast_ofNat, pow_two, and_self]

theorem edwAdd_comm (P Q : Point) : edwAdd P Q = edwAdd Q P := by
  obtain ⟨hX, hY, hZ, hT⟩ := cast_edwAdd P Q
  obtain ⟨hX', hY', hZ', hT'⟩ := cast_edwAdd Q P
  refine Point.eq_of_cast_eq (edwAdd_lt P Q) (edwAdd_lt Q P) ?_ ?_ ?_ ?_
  · rw [hX, hX']; ring
  · rw [hY, hY']; ring
  · rw [hZ, hZ']; ring
  · rw [hT, hT']; ring

/-- `P`'s coordinates scaled by 4Z, T by 4XY over Z (R212). -/
def Point.scaled (P : Point) : Point :=
  ⟨4 * P.X * P.Z % fieldPrime, 4 * P.Y * P.Z % fieldPrime, 4 * P.Z * P.Z % fieldPrime, 4 * P.X * P.Y % fieldPrime⟩

theorem edwAdd_neutralPoint (P : Point) : edwAdd P neutralPoint = P.scaled := by
  obtain ⟨hX, hY, hZ, hT⟩ := cast_edwAdd P neutralPoint
  have hmod (x : Nat) : x % fieldPrime < fieldPrime := red_lt x
  refine Point.eq_of_cast_eq (edwAdd_lt P _) ⟨hmod _, hmod _, hmod _, hmod _⟩ ?_ ?_ ?_ ?_
  · rw [hX, Point.scaled, ZMod.natCast_mod]; push_cast [neutralPoint]; ring
  · rw [hY, Point.scaled, ZMod.natCast_mod]; push_cast [neutralPoint]; ring
  · rw [hZ, Point.scaled, ZMod.natCast_mod]; push_cast [neutralPoint]; ring
  · rw [hT, Point.scaled, ZMod.natCast_mod]; push_cast [neutralPoint]; ring

/-! ### Equality of affine points -/

/-- `edw_eq` compares the cross products in the field (R210). -/
theorem edwEq_iff (P Q : Point) : edwEq P Q = true ↔
    (P.X : ZMod fieldPrime) * Q.Z = Q.X * P.Z ∧ (P.Y : ZMod fieldPrime) * Q.Z = Q.Y * P.Z := by
  rw [edwEq, Bool.and_eq_true, beq_iff_eq, beq_iff_eq, fsub_eq_zero, fsub_eq_zero, cast_fmul, cast_fmul, cast_fmul,
    cast_fmul]

theorem edwEq_iff_mod (P Q : Point) : edwEq P Q = true ↔
    P.X * Q.Z % fieldPrime = Q.X * P.Z % fieldPrime ∧ P.Y * Q.Z % fieldPrime = Q.Y * P.Z % fieldPrime := by
  rw [edwEq_iff, ← ZMod.natCast_eq_natCast_iff', ← ZMod.natCast_eq_natCast_iff', Nat.cast_mul, Nat.cast_mul,
    Nat.cast_mul, Nat.cast_mul]

/-! ### Doubling and addition of a valid point to itself -/

/-- `Q`'s coordinates are `P`'s, all multiplied by `c`. -/
structure Point.IsMultiple (c : ZMod fieldPrime) (P Q : Point) : Prop where
  X : (Q.X : ZMod fieldPrime) = c * P.X
  Y : (Q.Y : ZMod fieldPrime) = c * P.Y
  Z : (Q.Z : ZMod fieldPrime) = c * P.Z
  T : (Q.T : ZMod fieldPrime) = c * P.T

theorem Point.IsMultiple.validPoint {c : ZMod fieldPrime} {P Q : Point} (h : P.IsMultiple c Q) (hc : c ≠ 0)
    (hP : ValidPoint P) : ValidPoint Q := by
  have := fieldPrime_fact
  obtain ⟨hX, hY, hZ, hT⟩ := h
  obtain ⟨hnz, hprod, hcurve⟩ := hP
  refine ⟨?_, ?_, ?_⟩
  · rw [hZ]; exact mul_ne_zero hc hnz
  · rw [hT, hZ, hX, hY]; linear_combination c ^ 2 * hprod
  · rw [hT, hZ, hX, hY]; linear_combination c ^ 2 * hcurve

theorem Point.IsMultiple.edwEq {c : ZMod fieldPrime} {P Q : Point} (h : P.IsMultiple c Q) :
    edwEq P Q = true ∧ Machine.edwEq Q P = true := by
  obtain ⟨hX, hY, hZ, _⟩ := h
  rw [edwEq_iff, edwEq_iff, hX, hY, hZ]
  refine ⟨⟨?_, ?_⟩, ?_, ?_⟩ <;> ring

/-- The double of a valid point is valid: its Z is −(Z² − dT²)(Z² + dT²) (R206, R212). -/
theorem edwDbl_validPoint {P : Point} (hP : ValidPoint P) : ValidPoint (edwDbl P) := by
  have := fieldPrime_fact
  obtain ⟨hX, hY, hZ, hT⟩ := cast_edwDbl P
  obtain ⟨hnz, hprod, hcurve⟩ := hP
  refine ⟨?_, ?_, ?_⟩
  · have hfactor : ((edwDbl P).Z : ZMod fieldPrime) =
        -(((P.Z : ZMod fieldPrime) ^ 2 - edwardsD * (P.T : ZMod fieldPrime) ^ 2) *
          ((P.Z : ZMod fieldPrime) ^ 2 + edwardsD * (P.T : ZMod fieldPrime) ^ 2)) := by
      rw [hZ]
      linear_combination ((P.Y : ZMod fieldPrime) ^ 2 - (P.X : ZMod fieldPrime) ^ 2 - (P.Z : ZMod fieldPrime) ^ 2 +
        edwardsD * (P.T : ZMod fieldPrime) ^ 2) * hcurve
    rw [hfactor]
    exact neg_ne_zero.mpr (mul_ne_zero (sq_sub_edwardsD_mul_sq_ne_zero hnz) (sq_add_edwardsD_mul_sq_ne_zero hnz))
  · rw [hT, hZ, hX, hY]; ring
  · rw [hT, hZ, hX, hY]
    linear_combination 4 * ((P.X : ZMod fieldPrime) ^ 2 + (P.Y : ZMod fieldPrime) ^ 2) ^ 2 *
      ((P.Z : ZMod fieldPrime) ^ 2 * hcurve +
        edwardsD * ((P.T : ZMod fieldPrime) * P.Z + (P.X : ZMod fieldPrime) * P.Y) * hprod)

/-- Added to itself a valid point gives −4 times the coordinates of its double (R205, R206). -/
theorem edwAdd_self_isMultiple {P : Point} (hP : ValidPoint P) : (edwDbl P).IsMultiple (-4) (edwAdd P P) := by
  obtain ⟨hX, hY, hZ, hT⟩ := cast_edwDbl P
  obtain ⟨hX', hY', hZ', hT'⟩ := cast_edwAdd P P
  have hcurve := hP.curve
  refine ⟨?_, ?_, ?_, ?_⟩
  · rw [hX, hX']
    linear_combination 8 * (P.X : ZMod fieldPrime) * P.Y * hcurve
  · rw [hY, hY']
    linear_combination -4 * ((P.X : ZMod fieldPrime) ^ 2 + (P.Y : ZMod fieldPrime) ^ 2) * hcurve
  · rw [hZ, hZ']
    linear_combination 4 * ((P.Y : ZMod fieldPrime) ^ 2 - (P.X : ZMod fieldPrime) ^ 2 - (P.Z : ZMod fieldPrime) ^ 2 +
      edwardsD * (P.T : ZMod fieldPrime) ^ 2) * hcurve
  · rw [hT, hT']
    ring

theorem neg_four_ne_zero : (-4 : ZMod fieldPrime) ≠ 0 := by
  intro h
  have h4 : ((4 : Nat) : ZMod fieldPrime) = 0 := by linear_combination -h
  exact absurd ((ZMod.natCast_eq_zero_iff _ _).mp h4) (by decide +kernel)

end Sys2Proof.Machine
end

section
/-! PROOF SUPPORT. `recover_x` finds the point of the curve with the given y and sign exactly when there is one
(spec/42_edwards_point.md R207, R208). -/

namespace Sys2Proof.Machine

/-! ### The curve equation solved for x² -/

/-- The equation's denominator d·y² + 1 is never 0, −1 being a square and d none. -/
theorem one_add_edwardsD_mul_sq_ne_zero (y : ZMod fieldPrime) : 1 + (edwardsD : ZMod fieldPrime) * y ^ 2 ≠ 0 := by
  have := fieldPrime_fact
  simpa using sq_add_edwardsD_mul_sq_ne_zero (b := y) (one_ne_zero (α := ZMod fieldPrime))

theorem cast_recoverX2 (y : Nat) :
    (recoverX2 y : ZMod fieldPrime) * (1 + (edwardsD : ZMod fieldPrime) * y ^ 2) = y ^ 2 - 1 := by
  have := fieldPrime_fact
  have hden := one_add_edwardsD_mul_sq_ne_zero (y : ZMod fieldPrime)
  have hcast : ((fadd (fmul (fmul edwardsD y) y) 1 : Nat) : ZMod fieldPrime) =
      1 + (edwardsD : ZMod fieldPrime) * y ^ 2 := by
    rw [cast_fadd, cast_fmul, cast_fmul]; push_cast; ring
  rw [recoverX2, cast_fmul, cast_finv_eq_inv, hcast, inv_mul_cancel_right₀ hden, cast_fsub, cast_fmul, Nat.cast_one,
    pow_two]

/-- The points with the given y are the roots of `recoverX2 y` (R200, R207). -/
theorem onCurve_iff_sq_eq (x : ZMod fieldPrime) (y : Nat) :
    OnCurve x (y : ZMod fieldPrime) ↔ x ^ 2 = (recoverX2 y : ZMod fieldPrime) := by
  have := fieldPrime_fact
  have hden := one_add_edwardsD_mul_sq_ne_zero (y : ZMod fieldPrime)
  have hx2 := cast_recoverX2 y
  rw [OnCurve, ← mul_left_inj' (a := x ^ 2) hden, hx2]
  constructor
  · intro h; linear_combination -h
  · intro h; linear_combination -h

/-! ### The candidate root -/

/-- A square to the power (p − 1)/4 is 1 or −1. -/
theorem sq_pow_quarter {w : ZMod fieldPrime} (hw : w ≠ 0) :
    (w ^ 2) ^ ((fieldPrime - 1) / 4) = 1 ∨ (w ^ 2) ^ ((fieldPrime - 1) / 4) = -1 := by
  have := fieldPrime_fact
  rw [← mul_self_eq_one_iff, ← pow_two, ← pow_mul, ← pow_mul,
    show 2 * ((fieldPrime - 1) / 4 * 2) = fieldPrime - 1 by decide]
  exact ZMod.pow_card_sub_one_eq_one hw

theorem candidateRoot_lt (x2 : Nat) : candidateRoot x2 < fieldPrime := by
  rw [candidateRoot]
  split
  · exact fmul_lt _ _
  · exact fpow_lt _ _ (by decide)

/-- The candidate root is a root whenever there is one (R207). -/
theorem candidateRoot_sq {x2 : Nat} {w : ZMod fieldPrime} (hw : w ^ 2 = (x2 : ZMod fieldPrime)) (h0 : w ≠ 0) :
    (candidateRoot x2 : ZMod fieldPrime) ^ 2 = x2 := by
  have hroot : ((fpow x2 ((fieldPrime + 3) / 8) : Nat) : ZMod fieldPrime) ^ 2 =
      x2 * (w ^ 2) ^ ((fieldPrime - 1) / 4) := by
    rw [cast_fpow _ _ (by decide), ← hw, ← pow_mul, ← pow_succ', show (fieldPrime + 3) / 8 * 2 =
      (fieldPrime - 1) / 4 + 1 by decide]
  rw [candidateRoot]
  split
  case isTrue hne =>
    rw [Ne, fsub_eq_zero, cast_fmul, ← pow_two, hroot] at hne
    have hneg : (w ^ 2) ^ ((fieldPrime - 1) / 4) = -1 :=
      (sq_pow_quarter h0).resolve_left fun h1 => hne (by rw [h1, mul_one])
    rw [cast_fmul, mul_pow, hroot, hneg, cast_sqrtM1_sq]
    ring
  case isFalse heq =>
    rw [not_not, fsub_eq_zero, cast_fmul, ← pow_two] at heq
    exact heq

/-! ### The root of the given parity -/

/-- p − x has the other parity than x. -/
theorem fieldPrime_sub_mod_two {x : Nat} (h : x < fieldPrime) : (fieldPrime - x) % 2 = 1 - x % 2 := by
  have hp : fieldPrime % 2 = 1 := by decide
  omega

/-- Of the two roots of a nonzero square one has the given parity. -/
theorem root_eq_of_parity {x c : Nat} (hx : x < fieldPrime) (hc : c < fieldPrime) (h0 : c ≠ 0)
    (hsq : (x : ZMod fieldPrime) ^ 2 = (c : ZMod fieldPrime) ^ 2) :
    x = if c % 2 = x % 2 then c else fieldPrime - c := by
  have := fieldPrime_fact
  have hflip := fieldPrime_sub_mod_two hc
  rcases sq_eq_sq_iff_eq_or_eq_neg.mp hsq with h | h
  · obtain rfl : x = c := eq_of_cast_eq hx hc h
    rw [if_pos rfl]
  · rw [← cast_fieldPrime_sub hc.le] at h
    obtain rfl : x = fieldPrime - c := eq_of_cast_eq hx (by omega) h
    rw [if_neg (by omega)]

/-! ### recover_x -/

section
variable {x y sign : Nat}

theorem recoverX_of_ge (h : fieldPrime ≤ y) : recoverX y sign = .error .nonCanonical := if_pos h

theorem recoverX_of_zero (hy : y < fieldPrime) (h : recoverX2 y = 0) :
    recoverX y sign = if sign = 1 then .error .zeroWithSign else .ok 0 := by
  rw [recoverX, if_neg (Nat.not_le.mpr hy)]
  exact if_pos h

theorem recoverX_of_ne_zero (hy : y < fieldPrime) (h : recoverX2 y ≠ 0) : recoverX y sign =
    if (candidateRoot (recoverX2 y) : ZMod fieldPrime) ^ 2 ≠ recoverX2 y then .error .noRoot
    else if candidateRoot (recoverX2 y) % 2 ≠ sign then .ok (fieldPrime - candidateRoot (recoverX2 y))
    else .ok (candidateRoot (recoverX2 y)) := by
  rw [recoverX, if_neg (Nat.not_le.mpr hy)]
  simp only [if_neg h, fsub_eq_zero, cast_fmul, ← pow_two, Ne, Nat.and_one_is_mod]

/-- Where x² is 0 the root is 0, and its sign 0. -/
theorem recoverX_ok_iff_of_zero (hy : y < fieldPrime) (hs : sign ≤ 1) (h0 : recoverX2 y = 0) :
    recoverX y sign = .ok x ↔ x < fieldPrime ∧ x % 2 = sign ∧ (x : ZMod fieldPrime) ^ 2 = recoverX2 y := by
  have := fieldPrime_fact
  rw [recoverX_of_zero hy h0, h0, Nat.cast_zero, pow_eq_zero_iff two_ne_zero]
  constructor
  · intro h
    split at h
    · cases h
    · obtain rfl : 0 = x := Except.ok.inj h
      exact ⟨fieldPrime_pos, by omega, Nat.cast_zero⟩
  · rintro ⟨hx, hpar, hcast⟩
    obtain rfl : x = 0 := eq_of_cast_eq hx fieldPrime_pos (hcast.trans Nat.cast_zero.symm)
    rw [if_neg (by omega)]

/-- The candidate root of a nonzero x² is not 0. -/
theorem candidateRoot_ne_zero (h0 : recoverX2 y ≠ 0)
    (hroot : (candidateRoot (recoverX2 y) : ZMod fieldPrime) ^ 2 = recoverX2 y) : candidateRoot (recoverX2 y) ≠ 0 := by
  intro hz
  rw [hz, Nat.cast_zero, zero_pow two_ne_zero] at hroot
  exact h0 (eq_of_cast_eq (fmul_lt _ _) fieldPrime_pos (hroot.symm.trans Nat.cast_zero.symm))

/-- Elsewhere it is the candidate root or its negative, whichever has the parity. -/
theorem recoverX_ok_iff_of_ne_zero (hy : y < fieldPrime) (hs : sign ≤ 1) (h0 : recoverX2 y ≠ 0) :
    recoverX y sign = .ok x ↔ x < fieldPrime ∧ x % 2 = sign ∧ (x : ZMod fieldPrime) ^ 2 = recoverX2 y := by
  have hc := candidateRoot_lt (recoverX2 y)
  rw [recoverX_of_ne_zero hy h0]
  constructor
  · intro h
    split at h
    · cases h
    · rename_i hroot
      rw [not_not] at hroot
      have hpos := candidateRoot_ne_zero h0 hroot
      split at h
      · rename_i hpar
        obtain rfl := Except.ok.inj h
        have hflip := fieldPrime_sub_mod_two hc
        refine ⟨by omega, by omega, ?_⟩
        rw [cast_fieldPrime_sub hc.le, neg_sq, hroot]
      · rename_i hpar
        obtain rfl := Except.ok.inj h
        exact ⟨hc, not_not.mp hpar, hroot⟩
  · rintro ⟨hx, rfl, hsq⟩
    have hxne : (x : ZMod fieldPrime) ≠ 0 := fun hz => h0 (eq_of_cast_eq (fmul_lt _ _) fieldPrime_pos
      (by rw [← hsq, hz, zero_pow two_ne_zero, Nat.cast_zero]))
    have hroot := candidateRoot_sq hsq hxne
    have hxeq := root_eq_of_parity hx hc (candidateRoot_ne_zero h0 hroot) (hsq.trans hroot.symm)
    rw [if_neg (not_not_intro hroot)]
    by_cases hpar : candidateRoot (recoverX2 y) % 2 = x % 2
    · rw [if_pos hpar] at hxeq
      rw [if_neg (not_not_intro hpar), ← hxeq]
    · rw [if_neg hpar] at hxeq
      rw [if_pos hpar, ← hxeq]

/-- An answer is the x of that parity on the curve (R207). -/
theorem recoverX_eq_ok_iff (hy : y < fieldPrime) (hs : sign ≤ 1) :
    recoverX y sign = .ok x ↔ x < fieldPrime ∧ x % 2 = sign ∧ OnCurve (x : ZMod fieldPrime) (y : ZMod fieldPrime) := by
  rw [onCurve_iff_sq_eq]
  by_cases h0 : recoverX2 y = 0
  · exact recoverX_ok_iff_of_zero hy hs h0
  · exact recoverX_ok_iff_of_ne_zero hy hs h0

/-- Where no point has that y there is no root (reason 3). -/
theorem recoverX_of_not_onCurve (hy : y < fieldPrime)
    (h : ∀ x : ZMod fieldPrime, ¬ OnCurve x (y : ZMod fieldPrime)) : recoverX y sign = .error .noRoot := by
  simp only [onCurve_iff_sq_eq] at h
  have h0 : recoverX2 y ≠ 0 := fun hz => h 0 (by rw [hz]; simp)
  rw [recoverX_of_ne_zero hy h0, if_pos (h _)]

/-- Where the only root is 0 the sign bit cannot be 1 (reason 4). -/
theorem recoverX_of_onCurve_zero (hy : y < fieldPrime) (h : OnCurve 0 (y : ZMod fieldPrime)) :
    recoverX y 1 = .error .zeroWithSign := by
  rw [onCurve_iff_sq_eq, zero_pow two_ne_zero] at h
  have h0 : recoverX2 y = 0 := eq_of_cast_eq (fmul_lt _ _) fieldPrime_pos (h.symm.trans Nat.cast_zero.symm)
  rw [recoverX_of_zero hy h0, if_pos rfl]

end

/-! ### Decompression and compression -/

section
variable {b : List Byte} {P : Point}

theorem encodingY_eq (b : List Byte) : encodingY b = leNat b % 2 ^ 255 :=
  Nat.and_two_pow_sub_one_eq_mod _ 255

theorem encodingSign_eq (b : List Byte) : encodingSign b = leNat b / 2 ^ 255 :=
  Nat.shiftRight_eq_div_pow _ 255

/-- The sign is one bit. -/
theorem encodingSign_le (h : b.length = 32) : encodingSign b ≤ 1 := by
  have hlt : leNat b < 2 ^ 256 := by simpa [h] using leNat_lt b
  rw [encodingSign_eq]
  omega

theorem decompress_of_ok {x : Nat} (h : recoverX (encodingY b) (encodingSign b) = .ok x) :
    decompress b = .ok ⟨x, encodingY b, 1, fmul x (encodingY b)⟩ := by
  rw [decompress, h]

theorem decompress_of_error {f : RecoverFail} (h : recoverX (encodingY b) (encodingSign b) = .error f) :
    decompress b = .error f := by
  rw [decompress, h]

/-- What decompresses is a canonical y with a recovered x (R208). -/
theorem decompress_ok (h : decompress b = .ok P) : encodingY b < fieldPrime ∧
    ∃ x, recoverX (encodingY b) (encodingSign b) = .ok x ∧ P = ⟨x, encodingY b, 1, fmul x (encodingY b)⟩ := by
  rcases hr : recoverX (encodingY b) (encodingSign b) with f | x
  · rw [decompress_of_error hr] at h; cases h
  · rw [decompress_of_ok hr] at h
    refine ⟨Nat.lt_of_not_le fun hge => ?_, x, rfl, (Except.ok.inj h).symm⟩
    rw [recoverX_of_ge hge] at hr
    cases hr

theorem fmul_finv_one {a : Nat} (h : a < fieldPrime) : fmul a (finv 1) = a := by
  have := fieldPrime_fact
  refine eq_of_cast_eq (fmul_lt _ _) h ?_
  rw [cast_fmul, cast_finv_eq_inv, Nat.cast_one, inv_one, mul_one]

/-- Compression packs again what decompression took apart (R209, R212). -/
theorem compress_of_decompress (hl : b.length = 32) (h : decompress b = .ok P) : compress P = b := by
  obtain ⟨hy, x, hx, rfl⟩ := decompress_ok h
  obtain ⟨hlt, hpar, _⟩ := (recoverX_eq_ok_iff hy (encodingSign_le hl)).mp hx
  refine leNat_inj (by rw [compress_length, hl]) ?_
  rw [leNat_compress, Point.affineX, Point.affineY, fmul_finv_one hlt, fmul_finv_one hy, hpar, encodingY_eq,
    encodingSign_eq]
  omega

/-- Equal points with Z not 0 have the same affine coordinates. -/
theorem fmul_finv_eq_of_cross {a c z w : Nat} (hz : red z ≠ 0) (hw : red w ≠ 0)
    (h : (a : ZMod fieldPrime) * w = c * z) : fmul a (finv z) = fmul c (finv w) := by
  have := fieldPrime_fact
  refine eq_of_cast_eq (fmul_lt _ _) (fmul_lt _ _) ?_
  rw [cast_fmul, cast_fmul, cast_finv_eq_inv, cast_finv_eq_inv, ← div_eq_mul_inv, ← div_eq_mul_inv,
    div_eq_div_iff (mt red_eq_zero_iff.mpr hz) (mt red_eq_zero_iff.mpr hw), h]

theorem compress_eq_of_edwEq {Q : Point} (hP : red P.Z ≠ 0) (hQ : red Q.Z ≠ 0) (h : edwEq P Q = true) :
    compress P = compress Q := by
  obtain ⟨hX, hY⟩ := (edwEq_iff P Q).mp h
  have hx : P.affineX = Q.affineX := fmul_finv_eq_of_cross hP hQ hX
  have hy : P.affineY = Q.affineY := fmul_finv_eq_of_cross hP hQ hY
  rw [compress_eq_le32, compress_eq_le32, hx, hy]

end

/-! ### The commands -/

section
variable {s : State} {P Q : Point} {A : List Byte}

theorem edwDbl_completes (h0 : s.len0.toNat = 128) (hP : P.Fits) (hin0 : In0Holds s 128 (ptBytes P)) :
    ∃ t, exec .edwDbl s = .next t ∧ CompletedOk s t (ptBytes (edwDbl P)) false := by
  have hrule : edwDblCommand s = .ok ⟨ptBytes (edwDbl P), false⟩ := by
    rw [edwDblCommand, checkLen_ok h0, pointP_of_ptBytes hP hin0]
    rfl
  exact exec_completedOk (i := .edwDbl) hrule

theorem edwEq_completes (h0 : s.len0.toNat = 128) (h1 : s.len1.toNat = 128) (hP : P.Fits) (hQ : Q.Fits)
    (hin0 : In0Holds s 128 (ptBytes P)) (hin1 : In1Holds s 128 (ptBytes Q)) :
    ∃ t, exec .edwEq s = .next t ∧
      CompletedOk s t [if edwEq P Q then 0x01#8 else 0x00#8] (edwEq P Q) := by
  have hrule : edwEqCommand s = .ok (boolResult (edwEq P Q)) := by
    rw [edwEqCommand, checkLen_ok h0, checkLen_ok h1, pointP_of_ptBytes hP hin0, pointQ_of_ptBytes hQ hin1]
    rfl
  exact exec_completedOk (i := .edwEq) hrule

theorem edwDecompress_badLen (h0 : s.len0.toNat ≠ 32) :
    ∃ t, exec .edwDecompress s = .next t ∧ CompletedErr s t 0x05#8 1#8 32#32 s.len0 1#8 :=
  exec_completedErr (i := .edwDecompress) (if_pos h0)

theorem edwDecompress_completes (h0 : s.len0.toNat = 32) (hA : In0Holds s 32 A) (h : decompress A = .ok P) :
    ∃ t, exec .edwDecompress s = .next t ∧ CompletedOk s t (ptBytes P) false := by
  have hrule : edwDecompressCommand s = .ok ⟨ptBytes P, false⟩ := by
    rw [edwDecompressCommand, if_neg (not_not_intro h0), readIn0_ok hA, except_ok_bind, h]
    rfl
  exact exec_completedOk (i := .edwDecompress) hrule

theorem edwDecompress_fails {f : RecoverFail} (h0 : s.len0.toNat = 32) (hA : In0Holds s 32 A)
    (h : decompress A = .error f) :
    ∃ t, exec .edwDecompress s = .next t ∧ CompletedErr s t 0x05#8 1#8 0#32 0#32 f.reason := by
  have hrule : edwDecompressCommand s = raise .decompress 1#8 0#32 0#32 f.reason := by
    rw [edwDecompressCommand, if_neg (not_not_intro h0), readIn0_ok hA, except_ok_bind, h]
  exact exec_completedErr (i := .edwDecompress) hrule

end

end Sys2Proof.Machine
end

section
/-! PROOFS. The statements about Edwards points (spec/42_edwards_point.md R205 to R212, R221 to R225). -/

namespace Sys2Proof.Machine

/-- Settles O24: EDW_DBL completes with `edwDbl`, whose coordinates are reduced and are the doubling formula's. -/
theorem edwDblGivesDouble : Obligations.EdwDblGivesDouble := by
  refine ⟨decodeWord_encode .edwDbl, fun s => ⟨exec_badLen0 rfl, ?_⟩⟩
  intro x1 y1 z1 t1 hx hy hz ht h0 hin0
  obtain ⟨t, hexec, hok⟩ := edwDbl_completes (P := ⟨x1, y1, z1, t1⟩) h0 ⟨hx, hy, hz, ht⟩ hin0
  obtain ⟨hX, hY, hZ, hT⟩ := edwDbl_lt ⟨x1, y1, z1, t1⟩
  exact ⟨t, _, _, _, _, hexec, hok, hX, hY, hZ, hT, cast_edwDbl ⟨x1, y1, z1, t1⟩⟩

/-- Settles O25: EDW_EQ completes with `edwEq`, which compares the cross products modulo p. -/
theorem edwEqComparesAffinePoints : Obligations.EdwEqComparesAffinePoints := by
  refine ⟨decodeWord_encode .edwEq, fun s => ⟨exec_badLen0 rfl, exec_badLen1 rfl, ?_⟩⟩
  intro x1 y1 z1 t1 x2 y2 z2 t2 hx1 hy1 hz1 ht1 hx2 hy2 hz2 ht2 h0 h1 hin0 hin1
  obtain ⟨t, ht, hok⟩ := edwEq_completes (P := ⟨x1, y1, z1, t1⟩) (Q := ⟨x2, y2, z2, t2⟩) h0 h1
    ⟨hx1, hy1, hz1, ht1⟩ ⟨hx2, hy2, hz2, ht2⟩ hin0 hin1
  have heq := edwEq_iff_mod ⟨x1, y1, z1, t1⟩ ⟨x2, y2, z2, t2⟩
  rw [← fieldPrime_eq]
  refine ⟨t, ht, ?_⟩
  split
  case isTrue hcross =>
    rw [heq.mpr hcross] at hok
    exact hok
  case isFalse hcross =>
    rw [Bool.eq_false_iff.mpr (mt heq.mp hcross)] at hok
    exact hok

/-- Settles O27: `recover_x` answers exactly the point of the curve with that parity, and each reason is its own case
of the curve equation. -/
theorem decompressFindsTheCurvePoint : Obligations.DecompressFindsTheCurvePoint := by
  intro s
  refine ⟨edwDecompress_badLen, fun A h0 hA => ?_⟩
  have hsign := encodingSign_le (readBytes_length hA)
  rw [← fieldPrime_eq, ← encodingY_eq, ← encodingSign_eq]
  refine ⟨fun hge => ?_, fun hlt => ⟨fun x hx hpar hcurve => ?_, fun hnone => ?_, fun hzero hone => ?_⟩⟩
  · exact edwDecompress_fails h0 hA (decompress_of_error (recoverX_of_ge hge))
  · have hrec := (recoverX_eq_ok_iff hlt hsign).mpr ⟨hx, hpar, hcurve⟩
    exact edwDecompress_completes h0 hA (decompress_of_ok hrec)
  · exact edwDecompress_fails h0 hA (decompress_of_error (recoverX_of_not_onCurve hlt hnone))
  · have hrec : recoverX (encodingY A) (encodingSign A) = .error .zeroWithSign :=
      hone ▸ recoverX_of_onCurve_zero hlt hzero
    exact edwDecompress_fails h0 hA (decompress_of_error hrec)

/-- Settles O28: the generator's x is the one `recover_x` answers for y = 4/5 and sign 0. -/
theorem edwBaseGivesTheGenerator : Obligations.EdwBaseGivesTheGenerator := by
  refine ⟨decodeWord_encode .edwBase, fun s => ?_⟩
  obtain ⟨hY, hX, hZ, hT⟩ := basePoint_eq
  have hlt : basePoint.Y < fieldPrime := hY ▸ fmul_lt _ _
  obtain ⟨hxlt, hpar, hcurve⟩ := (recoverX_eq_ok_iff hlt (Nat.zero_le 1)).mp hX
  have hbytes : ptBytes basePoint = le32 basePoint.X ++ le32 basePoint.Y ++ le32 1 ++
      le32 (basePoint.X * basePoint.Y % fieldPrime) := by
    rw [ptBytes, hZ, hT]; rfl
  obtain ⟨t, ht, hok⟩ := exec_completedOk (i := .edwBase) (s := s) rfl
  rw [← fieldPrime_eq]
  refine ⟨t, basePoint.X, basePoint.Y, ht, ?_, hxlt, hlt, by decide, hpar, hcurve⟩
  rw [← hbytes]
  exact hok

/-- Settles O30: the double is valid by completeness, and the sum is −4 times it. -/
theorem doublingAgreesWithAddition : Obligations.DoublingAgreesWithAddition := by
  intro P hP
  have hdbl := edwDbl_validPoint hP
  have hmul := edwAdd_self_isMultiple hP
  exact ⟨hdbl, hmul.validPoint neg_four_ne_zero hdbl, hmul.edwEq⟩

/-- Settles O31: the formula is symmetric in the field, and so on reduced coordinates. -/
theorem additionSymmetricWithNeutral : Obligations.AdditionSymmetricWithNeutral :=
  ⟨edwAdd_comm, edwAdd_neutralPoint⟩

/-- Settles O32: a recovered x has the sign's parity, and equal points have the same affine coordinates. -/
theorem compressInvertsDecompress : Obligations.CompressInvertsDecompress :=
  ⟨fun _ _ => compress_of_decompress, fun _ _ => compress_eq_of_edwEq⟩

end Sys2Proof.Machine
end

section
/-! PROOF SUPPORT. The fixed loop of scalar multiplication as a fold, its values for small scalars, and EDW_SMUL
(spec/43_edwards_scalar_mult.md R250, R252). -/

namespace Sys2Proof.Machine

/-- The loop's body at bit `i`, on Q and the doubled point. -/
def smulTurn (k : Nat) (r : Point × Point) (i : Nat) : Point × Point :=
  (if k.testBit i then edwAdd r.1 r.2 else r.1, edwDbl r.2)

theorem scalarFold_eq (P : Point) (k : Nat) :
    scalarFold P k = ((List.range 255).foldl (smulTurn k) (neutralPoint, P)).1 := rfl

/-- The loop is a left fold over the bits from `i` on. -/
theorem smulLoop_eq_foldl (k n i : Nat) (Q Pc : Point) :
    smulLoop k n i Q Pc = ((List.range' i n).foldl (smulTurn k) (Q, Pc)).1 := by
  induction n generalizing i Q Pc with
  | zero => rfl
  | succ n ih =>
    rw [smulLoop, ih, List.range'_succ, List.foldl_cons]
    rfl

theorem edwSmul_eq_scalarFold (P : Point) (k : Nat) : edwSmul P k = scalarFold P k := by
  rw [edwSmul, smulLoop_eq_foldl, scalarFold_eq, List.range_eq_range']

/-- Bits that are 0 add nothing. -/
theorem smulLoop_of_zero_bits {k i : Nat} (n : Nat) (Q Pc : Point) (h : ∀ j, i ≤ j → k.testBit j = false) :
    smulLoop k n i Q Pc = Q := by
  induction n generalizing i Pc with
  | zero => rfl
  | succ n ih =>
    rw [smulLoop, h i le_rfl, if_neg Bool.false_ne_true]
    exact ih _ fun j hj => h j (by omega)

theorem edwSmul_zero (P : Point) : edwSmul P 0 = neutralPoint :=
  smulLoop_of_zero_bits 255 _ _ fun j _ => Nat.zero_testBit j

/-- The scalar 1 adds P to N once (R252). -/
theorem edwSmul_one (P : Point) : edwSmul P 1 = P.scaled := by
  have hrest : ∀ j, 1 ≤ j → Nat.testBit 1 j = false := fun j hj =>
    Nat.testBit_lt_two_pow (Nat.one_lt_two_pow (by omega))
  rw [edwSmul, smulLoop, smulLoop_of_zero_bits 254 _ _ hrest, ← edwAdd_neutralPoint, edwAdd_comm]
  rfl

section
variable {s : State} {A B : List Byte}

theorem edwSmul_outOfRange (h0 : s.len0.toNat = 128) (h1 : s.len1.toNat = 32) (hB : In1Holds s 32 B)
    (hr : 2 ^ 255 ≤ leNat B) :
    ∃ t, exec .edwSmul s = .next t ∧ CompletedErr s t 0x04#8 2#8 0#32 0#32 0#8 := by
  have hrule : edwSmulCommand s = raise .scalarRange 2#8 0#32 0#32 0#8 := by
    rw [edwSmulCommand, checkLen_ok h0, checkLen_ok h1, scalarS_ok hB]
    exact if_pos hr
  exact exec_completedErr (i := .edwSmul) hrule

theorem edwSmul_completes (h0 : s.len0.toNat = 128) (h1 : s.len1.toNat = 32) (hB : In1Holds s 32 B)
    (hr : leNat B < 2 ^ 255) (hA : In0Holds s 128 A) :
    ∃ t, exec .edwSmul s = .next t ∧ CompletedOk s t (ptBytes (edwSmul (ptRead A) (leNat B))) false := by
  have hrule : edwSmulCommand s = .ok ⟨ptBytes (edwSmul (ptRead A) (leNat B)), false⟩ := by
    rw [edwSmulCommand, checkLen_ok h0, checkLen_ok h1, scalarS_ok hB, pointP_ok hA]
    exact if_neg (Nat.not_le.mpr hr)
  exact exec_completedOk (i := .edwSmul) hrule

end

end Sys2Proof.Machine
end

section
/-! PROOFS. The statements about scalar multiplication (spec/43_edwards_scalar_mult.md R250, R252). -/

namespace Sys2Proof.Machine

/-- Settles O33: after the range check the command's value is the loop's, which is the fold over the bits. -/
theorem edwSmulRunsTheFixedLoop : Obligations.EdwSmulRunsTheFixedLoop := by
  refine fun s => ⟨exec_badLen0 rfl, exec_badLen1 rfl, fun B h0 h1 hB => ⟨edwSmul_outOfRange h0 h1 hB, ?_⟩⟩
  intro hr A hA
  rw [← edwSmul_eq_scalarFold]
  exact edwSmul_completes h0 h1 hB hr hA

/-- Settles O34: the scalar 0 has no bit to add, the scalar 1 adds P to N. -/
theorem smallScalarsGiveKnownTuples : Obligations.SmallScalarsGiveKnownTuples :=
  fun P => ⟨edwSmul_zero P, edwSmul_one P⟩

end Sys2Proof.Machine
end

section
/-! PROOF SUPPORT. Key expansion, signing and verification in the terms of the scheme, and their commands
(spec/44_ed25519_protocol.md R271 to R275, R280 to R283). -/

namespace Sys2Proof.Machine

/-- q in numbers (R270). -/
theorem groupOrder_eq : groupOrder = 2 ^ 252 + 27742317777372353535851937790883648493 := by decide

/-- The clamped integer in arithmetic (R272). -/
theorem expandScalar_eq (sk : List Byte) :
    expandScalar sk = clampValue (leNat ((Config.hash512 sk).toList.take 32)) :=
  decodeScalar_eq (by simp)

/-- `t` of a signature (R274). -/
def signT (sk msg : List Byte) : Nat :=
  (hmodq (expandPrefix sk ++ msg) +
    hmodq (compress (edwSmul basePoint (hmodq (expandPrefix sk ++ msg))) ++ secretToPublic sk ++ msg) *
      expandScalar sk) % groupOrder

theorem sign_eq (sk msg : List Byte) : sign sk msg =
    compress (edwSmul basePoint (hmodq (expandPrefix sk ++ msg))) ++ le32 (signT sk msg) := rfl

theorem sign_take (sk msg : List Byte) :
    (sign sk msg).take 32 = compress (edwSmul basePoint (hmodq (expandPrefix sk ++ msg))) := by
  rw [sign_eq, List.take_left' (compress_length _)]

theorem leNat_sign_drop (sk msg : List Byte) : leNat ((sign sk msg).drop 32) = signT sk msg := by
  have hlt : signT sk msg < groupOrder := Nat.mod_lt _ (by decide)
  rw [sign_eq, List.drop_left' (compress_length _), leNat_le32 _ (hlt.trans (by decide))]

/-- Verification by its four conditions (R275). -/
theorem verify_iff (pub msg sig : List Byte) : verify pub msg sig = true ↔
    ∃ Ap Rp, decompress pub = .ok Ap ∧ decompress (signatureR sig) = .ok Rp ∧ signatureT sig < groupOrder ∧
      edwEq (edwSmul basePoint (signatureT sig))
        (edwAdd Rp (edwSmul Ap (hmodq (signatureR sig ++ pub ++ msg)))) = true := by
  simp only [verify]
  rcases decompress pub with f | Ap
  · simp
  rcases decompress (signatureR sig) with f | Rp
  · simp
  by_cases ht : signatureT sig < groupOrder
  · simp [ht, Nat.not_le.mpr ht]
  · simp [ht, Nat.le_of_not_lt ht]

theorem signatureT_eq {sig : List Byte} (h : sig.length = 64) : signatureT sig = leNat (sig.drop 32) := by
  rw [signatureT, List.take_of_length_le (by simp [h])]

section
variable {s : State} {A B M : List Byte}

theorem edExpand_completes (h0 : s.len0.toNat = 32) (hA : In0Holds s 32 A) :
    ∃ t, exec .edExpand s = .next t ∧ CompletedOk s t (le32 (expandScalar A) ++ expandPrefix A) false := by
  have hrule : edExpandCommand s = .ok ⟨le32 (expandScalar A) ++ expandPrefix A, false⟩ := by
    rw [edExpandCommand, checkLen_ok h0, readIn0_ok hA]
    rfl
  exact exec_completedOk (i := .edExpand) hrule

theorem edPubkey_completes (h0 : s.len0.toNat = 32) (hA : In0Holds s 32 A) :
    ∃ t, exec .edPubkey s = .next t ∧ CompletedOk s t (secretToPublic A) false := by
  have hrule : edPubkeyCommand s = .ok ⟨secretToPublic A, false⟩ := by
    rw [edPubkeyCommand, checkLen_ok h0, readIn0_ok hA]
    rfl
  exact exec_completedOk (i := .edPubkey) hrule

theorem edSign_badMsgLen (h0 : s.len0.toNat = 32) (hm : Config.msgCap < s.msgLen.toNat) :
    ∃ t, exec .edSign s = .next t ∧ CompletedErr s t 0x03#8 3#8 4096#32 s.msgLen 0#8 := by
  have hrule : edSignCommand s = .error (.raised ⟨.msgLength, 3#8, 4096#32, s.msgLen, 0#8⟩) := by
    rw [edSignCommand, checkLen_ok h0, checkMsg_bad hm]
    rfl
  exact exec_completedErr (i := .edSign) hrule

theorem edSign_completes (h0 : s.len0.toNat = 32) (hm : s.msgLen.toNat ≤ Config.msgCap) (hA : In0Holds s 32 A)
    (hM : MsgHolds s M) : ∃ t, exec .edSign s = .next t ∧ CompletedOk s t (sign A M) false := by
  have hrule : edSignCommand s = .ok ⟨sign A M, false⟩ := by
    rw [edSignCommand, checkLen_ok h0, checkMsg_ok hm, readIn0_ok hA, readMsg_ok hM]
    rfl
  exact exec_completedOk (i := .edSign) hrule

theorem edVerify_badMsgLen (h0 : s.len0.toNat = 32) (h1 : s.len1.toNat = 64)
    (hm : Config.msgCap < s.msgLen.toNat) :
    ∃ t, exec .edVerify s = .next t ∧ CompletedErr s t 0x03#8 3#8 4096#32 s.msgLen 0#8 := by
  have hrule : edVerifyCommand s = .error (.raised ⟨.msgLength, 3#8, 4096#32, s.msgLen, 0#8⟩) := by
    rw [edVerifyCommand, checkLen_ok h0, checkLen_ok h1, checkMsg_bad hm]
    rfl
  exact exec_completedErr (i := .edVerify) hrule

theorem edVerify_completes (h0 : s.len0.toNat = 32) (h1 : s.len1.toNat = 64) (hm : s.msgLen.toNat ≤ Config.msgCap)
    (hA : In0Holds s 32 A) (hB : In1Holds s 64 B) (hM : MsgHolds s M) :
    ∃ t, exec .edVerify s = .next t ∧
      CompletedOk s t [if verify A M B then 0x01#8 else 0x00#8] (verify A M B) := by
  have hrule : edVerifyCommand s = .ok (boolResult (verify A M B)) := by
    rw [edVerifyCommand, checkLen_ok h0, checkLen_ok h1, checkMsg_ok hm, readIn0_ok hA, readMsg_ok hM, readIn1_ok hB]
    rfl
  exact exec_completedOk (i := .edVerify) hrule

end

end Sys2Proof.Machine
end

section
/-! PROOFS. The statements about the Ed25519 commands (spec/44_ed25519_protocol.md R280 to R283). -/

namespace Sys2Proof.Machine

/-- Settles O35: the command's value is the clamped first half of the digest and its second half. -/
theorem edExpandClampsTheDigest : Obligations.EdExpandClampsTheDigest := by
  refine fun s => ⟨exec_badLen0 rfl, fun A h0 hA => ?_⟩
  rw [← expandScalar_eq]
  exact edExpand_completes h0 hA

/-- Settles O36: the command's value is the public key of the clamped scalar. -/
theorem edPubkeyCompressesScalarTimesBase : Obligations.EdPubkeyCompressesScalarTimesBase := by
  refine fun s => ⟨exec_badLen0 rfl, fun A h0 hA => ?_⟩
  rw [← expandScalar_eq, ← edwSmul_eq_scalarFold]
  exact edPubkey_completes h0 hA

/-- Settles O37: the command's value is `sign`, whose halves are R and t. -/
theorem edSignFollowsTheScheme : Obligations.EdSignFollowsTheScheme := by
  refine fun s => ⟨exec_badLen0 rfl, edSign_badMsgLen, fun A M h0 hm hA hM => ?_⟩
  obtain ⟨t, ht, hok⟩ := edSign_completes h0 hm hA hM
  simp only [← expandScalar_eq, ← groupOrder_eq, ← edwSmul_eq_scalarFold]
  exact ⟨t, _, ht, hok, sign_length A M, sign_take A M, leNat_sign_drop A M,
    (leNat_sign_drop A M).trans_lt (Nat.mod_lt _ (by decide))⟩

/-- Settles O38: the command answers the verdict of `verify`, which holds by its four conditions. -/
theorem edVerifyNeverErrsOnWellFormedInput : Obligations.EdVerifyNeverErrsOnWellFormedInput := by
  refine fun s => ⟨exec_badLen0 rfl, exec_badLen1 rfl, edVerify_badMsgLen, fun A B M h0 h1 hm hA hB hM => ?_⟩
  obtain ⟨t, ht, hok⟩ := edVerify_completes h0 h1 hm hA hB hM
  refine ⟨t, _, ht, hok, ?_⟩
  rw [← groupOrder_eq]
  simp only [← edwSmul_eq_scalarFold]
  have hv := verify_iff A M B
  rw [signatureT_eq (readBytes_length hB)] at hv
  exact hv

end Sys2Proof.Machine
end
